-- ==== Sys2Proof/Word.lean ====
section
/-! DEFINITION. The word and byte types of SCOUT-FCB and the bit-field notation of 00_scope.md rule R9. -/

namespace Sys2Proof

/-- A 32-bit register value (00_scope.md rule R9: a register is 32 bits wide unless stated).
Real-valued registers hold IEEE 754 binary32 bit patterns in this type (rule R11). -/
abbrev Word := BitVec 32

/-- A byte of the receive port (20_memory.md rule R70) or a byte lane of the bus (rule R69). -/
abbrev Byte := BitVec 8

end Sys2Proof
end

