-- ==== Sys2Proof/Config.lean ====
section
/-! DEFINITION. What is fixed for one SCOUT-FCB: the OPEN parameters of 00_scope.md rule R7, the constants wired
into the hardware (10_state.md rule R47), and the one free value the spec leaves open. -/

namespace Sys2Proof

/-- The OPEN parameters of 00_scope.md rule R7, "which a model takes as an argument", each coded so that every value
of this type is inside its legal range. `State` carries one `Params` (the step function has no other argument), and no
step changes it (10_state.md rule R47: fixed for a run), so a statement about every state is a statement about every
choice of the parameters. DESIGN CHOICE (assumption 1). -/
structure Params where
  /-- `NUM_CHANNELS` − 1; the legal range is 1..14. -/
  channelsPred : Fin 14
  /-- `RX_FIFO_DEPTH` − 1; the legal range is every integer ≥ 1. -/
  fifoPred : Nat
  /-- `PWM_PERIOD_NS` − 1; an integer count of nanoseconds. -/
  periodPred : Nat
  /-- `BLOCK_BASE` / 512; the base is aligned to 512 bytes. -/
  basePage : Nat
  /-- `RC_BYTE_TIMEOUT`, "a duration ≥ 0"; no step reads it (40_rc_decoder.md rule R108, the untimed reading). DESIGN
  CHOICE: a whole number of nanoseconds, where the spec names neither unit nor granularity (assumption 20). -/
  rcByteTimeout : Nat
  /-- `CMD_LATENCY`, "a duration"; no step reads it (20_memory.md rule R73). DESIGN CHOICE: a whole number of nanoseconds,
  as `rcByteTimeout` (assumption 20). -/
  cmdLatency : Nat
  deriving DecidableEq, Repr

/-- `NUM_CHANNELS`, 1..14 (00_scope.md rule R7). -/
def Params.numChannels (p : Params) : Nat := p.channelsPred.val + 1

/-- `RX_FIFO_DEPTH`, at least 1 (00_scope.md rule R7). -/
def Params.rxFifoDepth (p : Params) : Nat := p.fifoPred + 1

/-- `PWM_PERIOD_NS`, a positive number of nanoseconds (00_scope.md rule R7, 43_pwm_system.md rule R185). -/
def Params.pwmPeriodNs (p : Params) : Nat := p.periodPred + 1

/-- `BLOCK_BASE`, a multiple of 512 (00_scope.md rule R7, 20_memory.md rule R60). -/
def Params.blockBase (p : Params) : Nat := 512 * p.basePage

/-- The parameters `State.reset` carries: `NUM_CHANNELS` is rule R7's reference value 14. DESIGN CHOICE for the other
five, for which the spec gives no reference value (assumption 2): depth 64 (rule R7 recommends 32 or more), a period
one above the largest legal `DUTY_CEIL` (2^24, 42_mixer_duty.md rule R151), base address 0, both durations 0. -/
def Params.reference : Params :=
  { channelsPred := 13, fifoPred := 63, periodPred := 16777216, basePage := 0, rcByteTimeout := 0, cmdLatency := 0 }

/-- Which binary32 operation produced a NaN (the argument of `Config.nanBits`). -/
inductive FloatOp where
  | add | sub | mul | div
  deriving DecidableEq, Repr

/-- FREE VALUE. The sign and payload of the NaN an invalid operation yields: neither the spec nor IEEE 754 fixes them
(93_implementation_defined.md U25). It has no body, so nothing can be proved of it; the block never stores a NaN
(00_scope.md rule R12). Assumption 3. -/
opaque Config.nanBits : FloatOp → Word → Word → Word

/-- `RC_SYNC`, the sync byte that begins a frame (00_scope.md rule R7, 40_rc_decoder.md rule R100). -/
def Config.rcSync : Byte := 0x20

/-- `RC_CK_BASE`, the checksum base (00_scope.md rule R7, 40_rc_decoder.md rule R102). -/
def Config.rcCkBase : Nat := 0xFFDF

/-- `RC_MAX_ATTEMPTS`, the bound on hunt attempts (00_scope.md rule R7, 40_rc_decoder.md rule R106). -/
def Config.rcMaxAttempts : Nat := 10

/-- `I_LIMIT`, +150.0 as a binary32 pattern (00_scope.md rule R7). -/
def Config.iLimit : Word := 0x43160000

/-- −150.0, the lower anti-windup limit (41_pid.md rule R130). -/
def Config.iLimitNeg : Word := 0xC3160000

end Sys2Proof
end

