-- ==== Sys2Proof/Syntax.lean ====
section
/-! DEFINITION. The commands of SCOUT-FCB, one constructor per row of the opcode map (30_encoding.md rule R85). -/

namespace Sys2Proof

/-- The three axes, numbered 0 roll, 1 pitch, 2 yaw (10_state.md rule R27). -/
inductive Axis where
  | roll | pitch | yaw
  deriving DecidableEq, Repr

/-- The field `AX` of PID_RESET: one axis, or all three for the field value 3 (30_encoding.md rule R82). -/
inductive AxisSel where
  | one (a : Axis)
  | all
  deriving DecidableEq, Repr

/-- The field `K` of RC_NORM (30_encoding.md rule R82): 0 maps 1500→0, ±100; 1 maps 1000→0, 2000→100. -/
inductive MapKind where
  | centred | dial
  deriving DecidableEq, Repr

/-- One of the receiver's channels 1..14; channel number i is the element i − 1 (10_state.md rule R29). -/
abbrev Channel := Fin 14

/-- The channel number 1..14 that the field `CHN` carries (30_encoding.md rule R82). -/
def Channel.number (c : Channel) : Nat := c.val + 1

/-- A command of the block (30_encoding.md rule R85). PID_UPDATE has no fourth axis (rule R86), so its operand is an
`Axis`; a channel above `NUM_CHANNELS` is ill-formed and is refused by `Instr.wf`. -/
inductive Instr where
  /-- NOP, 43_pwm_system.md rule R180. -/
  | nop
  /-- RC_READ, 40_rc_decoder.md rule R105. -/
  | rcRead
  /-- NORM, 40_rc_decoder.md rule R113. -/
  | norm
  /-- RC_NORM, 40_rc_decoder.md rule R114. -/
  | rcNorm (k : MapKind) (c : Channel)
  /-- PID_UPDATE, 41_pid.md rule R130. -/
  | pidUpdate (a : Axis)
  /-- PID_RESET, 41_pid.md rule R135. -/
  | pidReset (sel : AxisSel)
  /-- MIX, 42_mixer_duty.md rule R160. -/
  | mix
  /-- DUTY, 42_mixer_duty.md rule R158. -/
  | duty
  /-- FORCE_IDLE, 42_mixer_duty.md rule R163. -/
  | forceIdle
  /-- PWM_ENABLE, 43_pwm_system.md rule R181. -/
  | pwmEnable
  /-- PWM_RELEASE, 43_pwm_system.md rule R182. -/
  | pwmRelease
  /-- SHUTDOWN, 43_pwm_system.md rule R183. -/
  | shutdown
  deriving DecidableEq, Repr

end Sys2Proof
end

