-- ==== Sys2Proof/WellFormed.lean ====
section
/-! DEFINITION. Which commands of `Instr` the block with parameter `NUM_CHANNELS` has (30_encoding.md rule R86). -/

namespace Sys2Proof

/-- The one field-value condition of 30_encoding.md rule R86 that the types do not already carry: RC_NORM's channel is
at most `NUM_CHANNELS`. (Channel 0 and a fourth PID axis have no term.) -/
def Instr.wf (numChannels : Nat) : Instr → Bool
  | .nop | .rcRead | .norm | .mix | .duty | .forceIdle | .pwmEnable | .pwmRelease | .shutdown => true
  | .rcNorm _ c => decide (c.number ≤ numChannels)
  | .pidUpdate _ => true
  | .pidReset _ => true

end Sys2Proof
end

