-- ==== Sys2Proof/Decode.lean ====
section
/-! DEFINITION. The command word: bit fields, the opcode map, the decoder and the encoder (30_encoding.md rules R80 to
R88). -/

namespace Sys2Proof

/-- `v[hi:lo]`, the unsigned field of bits hi down to lo (00_scope.md rule R9). -/
def field (w : Word) (hi lo : Nat) : Nat := w.toNat / 2 ^ lo % 2 ^ (hi + 1 - lo)

/-- The twelve assigned opcodes (30_encoding.md rule R85). -/
inductive Op where
  | nop | rcRead | norm | rcNorm | pidUpdate | pidReset | mix | duty | forceIdle | pwmEnable | pwmRelease | shutdown
  deriving DecidableEq, Repr

/-- The three formats (30_encoding.md rule R82): no fields, axis, channel. -/
inductive Format where
  | n | a | c
  deriving DecidableEq, Repr

/-- Why a word is illegal (30_encoding.md rule R88 checks in this order); each is the fault BAD_CMD (rule R87). -/
inductive Reject where
  /-- the opcode is not in the map of rule R85 -/
  | unknownOpcode
  /-- a reserved bit of the opcode's format is not 0 (rule R82) -/
  | reservedBits
  /-- the field-value condition of rule R86 fails -/
  | fieldValue
  deriving DecidableEq, Repr

/-- Column OP of the opcode map (30_encoding.md rule R85). -/
def Op.code : Op → Nat
  | .nop => 0x00
  | .rcRead => 0x01
  | .norm => 0x02
  | .rcNorm => 0x03
  | .pidUpdate => 0x10
  | .pidReset => 0x11
  | .mix => 0x20
  | .duty => 0x21
  | .forceIdle => 0x22
  | .pwmEnable => 0x30
  | .pwmRelease => 0x31
  | .shutdown => 0x32

/-- Every opcode, in the order of the map. -/
def Op.all : List Op :=
  [.nop, .rcRead, .norm, .rcNorm, .pidUpdate, .pidReset, .mix, .duty, .forceIdle, .pwmEnable, .pwmRelease, .shutdown]

/-- The opcode a field `OP` selects, or none where the map has no such row (30_encoding.md rule R87). -/
def Op.ofCode (n : Nat) : Option Op := Op.all.find? fun o => o.code == n

/-- Column Format of the opcode map (30_encoding.md rule R85). -/
def Op.format : Op → Format
  | .rcNorm => .c
  | .pidUpdate | .pidReset => .a
  | .nop | .rcRead | .norm | .mix | .duty | .forceIdle | .pwmEnable | .pwmRelease | .shutdown => .n

/-- The lowest bit of the format's reserved field, which reaches up to bit 31 (30_encoding.md rule R82). -/
def Format.reservedFrom : Format → Nat
  | .n => 8
  | .a => 10
  | .c => 13

/-- Column mask of the opcode map (30_encoding.md rule R85). -/
def Op.mask (o : Op) : Word :=
  match o.format with
  | .n => 0xFFFFFFFF
  | .a => 0xFFFFFCFF
  | .c => 0xFFFFE0FF

/-- Column match of the opcode map (30_encoding.md rule R85). -/
def Op.matchWord (o : Op) : Word := BitVec.ofNat 32 o.code

/-- The axis a field value 0..2 names; 3 names none (30_encoding.md rule R82). -/
def Axis.ofField : Nat → Option Axis
  | 0 => some .roll
  | 1 => some .pitch
  | 2 => some .yaw
  | _ => none

/-- The axis number (10_state.md rule R27). -/
def Axis.number : Axis → Nat
  | .roll => 0
  | .pitch => 1
  | .yaw => 2

/-- The field `AX` of PID_RESET, where 3 is all axes (30_encoding.md rule R82). -/
def AxisSel.ofField (n : Nat) : AxisSel :=
  match Axis.ofField n with
  | some a => .one a
  | none => .all

/-- The field `AX` of PID_RESET for a selection (30_encoding.md rule R82). -/
def AxisSel.number : AxisSel → Nat
  | .one a => a.number
  | .all => 3

/-- The field `K` (30_encoding.md rule R82). -/
def MapKind.ofField (n : Nat) : MapKind := if n = 0 then .centred else .dial

/-- The bit `K` of a mapping kind (30_encoding.md rule R82). -/
def MapKind.number : MapKind → Nat
  | .centred => 0
  | .dial => 1

/-- The channel a field `CHN` names: 1..14; 0 and 15 name none (30_encoding.md rules R82, R86). -/
def Channel.ofField (n : Nat) : Option Channel :=
  if h : 1 ≤ n ∧ n ≤ 14 then some ⟨n - 1, by omega⟩ else none

/-- The command an assigned opcode and the word's fields stand for (30_encoding.md rules R82, R83), or none where the
fields name nothing (`AX` = 3 of PID_UPDATE, `CHN` = 0 or 15: rule R86). -/
def assemble (o : Op) (w : Word) : Option Instr :=
  match o with
  | .nop => some .nop
  | .rcRead => some .rcRead
  | .norm => some .norm
  | .rcNorm => (Channel.ofField (field w 11 8)).map fun c => .rcNorm (MapKind.ofField (field w 12 12)) c
  | .pidUpdate => (Axis.ofField (field w 9 8)).map .pidUpdate
  | .pidReset => some (.pidReset (AxisSel.ofField (field w 9 8)))
  | .mix => some .mix
  | .duty => some .duty
  | .forceIdle => some .forceIdle
  | .pwmEnable => some .pwmEnable
  | .pwmRelease => some .pwmRelease
  | .shutdown => some .shutdown

/-- Decode one command word for a block with `numChannels` channels: unknown opcode, then reserved bits, then field
values (30_encoding.md rules R80, R88). Total: every word is a well-formed command or is rejected by name. -/
def decode (numChannels : Nat) (w : Word) : Except Reject Instr :=
  match Op.ofCode (field w 7 0) with
  | none => .error .unknownOpcode
  | some o =>
    if field w 31 o.format.reservedFrom ≠ 0 then .error .reservedBits
    else
      match assemble o w with
      | none => .error .fieldValue
      | some i => if i.wf numChannels then .ok i else .error .fieldValue

/-- The opcode of a command (30_encoding.md rule R85). -/
def Instr.op : Instr → Op
  | .nop => .nop
  | .rcRead => .rcRead
  | .norm => .norm
  | .rcNorm _ _ => .rcNorm
  | .pidUpdate _ => .pidUpdate
  | .pidReset _ => .pidReset
  | .mix => .mix
  | .duty => .duty
  | .forceIdle => .forceIdle
  | .pwmEnable => .pwmEnable
  | .pwmRelease => .pwmRelease
  | .shutdown => .shutdown

/-- The bits 31:8 of a command's word, as a number (30_encoding.md rule R82). -/
def Instr.operandBits : Instr → Nat
  | .rcNorm k c => c.number + 16 * k.number
  | .pidUpdate a => a.number
  | .pidReset sel => sel.number
  | .nop | .rcRead | .norm | .mix | .duty | .forceIdle | .pwmEnable | .pwmRelease | .shutdown => 0

/-- The 32-bit word of a command (30_encoding.md rules R81, R82, R85). -/
def encode (i : Instr) : Word := BitVec.ofNat 32 (i.op.code + 256 * i.operandBits)

/-- What the decoder reads from a word of `nbits` bits with every higher bit 0, for the reference `NUM_CHANNELS` = 14
(00_scope.md rule R7); a command is exactly one 32-bit word (30_encoding.md rule R81). -/
def decodeTableWord (nbits w : Nat) : Option Instr :=
  let v := w % 2 ^ nbits
  if 2 ^ 32 ≤ v then none
  else
    match decode Params.reference.numChannels (BitVec.ofNat 32 v) with
    | .ok i => some i
    | .error _ => none

end Sys2Proof
end

