-- ==== Sys2Proof/Machine/Binary32.lean ====
section
/-! DEFINITION. IEEE 754 binary32 arithmetic on bit patterns (00_scope.md rule R11): every operation is computed exactly
over the integers and rounded once, to nearest, ties to even. -/

namespace Sys2Proof.Machine

/-- The magnitude field of a binary32 pattern: bits 30:0, the biased exponent above the fraction. -/
def magBits (x : Word) : Nat := x.toNat % 2 ^ 31

/-- The sign bit 31. -/
def signBit (x : Word) : Bool := decide (2 ^ 31 ≤ x.toNat)

/-- The magnitude field of the infinities: biased exponent 255, fraction 0. -/
def infMag : Nat := 0x7F800000

/-- `isfinite(x)`: neither an infinity nor a NaN (00_scope.md rule R11). -/
def isFinite (x : Word) : Bool := decide (magBits x < infMag)

/-- A NaN: biased exponent 255 and a nonzero fraction. -/
def isNaN (x : Word) : Bool := decide (infMag < magBits x)

/-- An infinity of either sign. -/
def isInf (x : Word) : Bool := magBits x == infMag

/-- A zero of either sign. -/
def isZero (x : Word) : Bool := magBits x == 0

/-- The absolute value of the finite number with magnitude field `m`, counted in units of 2^-149 (the smallest
subnormal): a subnormal is its fraction, a normal number its 24-bit significand shifted by the exponent. -/
def unitsOfMag (m : Nat) : Nat :=
  if m < 2 ^ 23 then m else (2 ^ 23 + m % 2 ^ 23) * 2 ^ (m / 2 ^ 23 - 1)

/-- |x| in units of 2^-149, for a finite x. -/
def units (x : Word) : Nat := unitsOfMag (magBits x)

/-- x in units of 2^-149, for a finite x; both zeros give 0. -/
def exactUnits (x : Word) : Int := if signBit x then -(units x : Int) else (units x : Int)

/-- The integer nearest the nonnegative rational `n / d`, ties to even. -/
def rneDiv (n d : Nat) : Nat :=
  let m := n / d
  let r := n % d
  if 2 * r < d then m else if d < 2 * r then m + 1 else m + m % 2

/-- Round the nonnegative rational `n / d` (in units of 2^-149) to the magnitude field of the nearest binary32 value,
ties to even; a result of 2^128 or more is the infinity. The spacing at a value of 2^(23+k) to 2^(24+k) units is 2^k
units, and the fields of consecutive values are consecutive integers, so the field is `k * 2^23` plus the rounded
significand, also when the rounding carries into the next exponent. -/
def roundMag (n d : Nat) : Nat :=
  let k := Nat.log2 (n / d) - 23
  min (k * 2 ^ 23 + rneDiv n (d * 2 ^ k)) infMag

/-- The pattern with a sign and a magnitude field. -/
def pack (neg : Bool) (m : Nat) : Word := BitVec.ofNat 32 (if neg then 2 ^ 31 + m else m)

/-- The quiet NaN of an invalid operation; its sign and payload are the free value `Config.nanBits` (assumption 3). -/
def nanResult (op : FloatOp) (a b : Word) : Word := Config.nanBits op a b ||| 0x7FC00000

/-- −x: the sign bit turned over. -/
def fneg (x : Word) : Word := pack (!signBit x) (magBits x)

/-- a + b for operands that are not NaN; `op` names the operation for a NaN result. An exact zero sum is +0.0 unless
both operands are negative zeros (IEEE 754, 00_scope.md rule R11). -/
def addCore (op : FloatOp) (a b : Word) : Word :=
  if isInf a then
    if isInf b && (signBit a != signBit b) then nanResult op a b else a
  else if isInf b then b
  else
    let v := exactUnits a + exactUnits b
    if v = 0 then pack (signBit a && signBit b) 0
    else pack (decide (v < 0)) (roundMag v.natAbs 1)

/-- `fadd(a, b)` (00_scope.md rule R11). -/
def fadd (a b : Word) : Word :=
  if isNaN a || isNaN b then nanResult .add a b else addCore .add a b

/-- `fsub(a, b)`, which is a + (−b) (00_scope.md rule R11). -/
def fsub (a b : Word) : Word :=
  if isNaN a || isNaN b then nanResult .sub a b else addCore .sub a (fneg b)

/-- `fmul(a, b)` (00_scope.md rule R11). -/
def fmul (a b : Word) : Word :=
  let neg := signBit a != signBit b
  if isNaN a || isNaN b then nanResult .mul a b
  else if isInf a || isInf b then
    if isZero a || isZero b then nanResult .mul a b else pack neg infMag
  else pack neg (roundMag (units a * units b) (2 ^ 149))

/-- `fdiv(a, b)` (00_scope.md rule R11). -/
def fdiv (a b : Word) : Word :=
  let neg := signBit a != signBit b
  if isNaN a || isNaN b then nanResult .div a b
  else if isInf a then
    if isInf b then nanResult .div a b else pack neg infMag
  else if isInf b then pack neg 0
  else if isZero b then
    if isZero a then nanResult .div a b else pack neg infMag
  else pack neg (roundMag (units a * 2 ^ 149) (units b))

/-- `u32_to_f32(n)`: the binary32 value nearest n, ties to even (00_scope.md rule R11). -/
def u32ToF32 (n : Nat) : Word := pack false (roundMag (n * 2 ^ 149) 1)

/-- `f32_to_u32_trunc(x)`: the integer part of a finite x ≥ 0 (00_scope.md rule R11). -/
def f32ToU32Trunc (x : Word) : Word := BitVec.ofNat 32 (units x / 2 ^ 149)

/-- The order of the patterns that are not NaN: the signed magnitude field, so that −0.0 and +0.0 are equal. -/
def orderKey (x : Word) : Int := if signBit x then -(magBits x : Int) else (magBits x : Int)

/-- IEEE `a < b`; false with a NaN (00_scope.md rule R11). -/
def flt (a b : Word) : Bool := !isNaN a && !isNaN b && decide (orderKey a < orderKey b)

/-- IEEE `a ≤ b`; false with a NaN (00_scope.md rule R11). -/
def fle (a b : Word) : Bool := !isNaN a && !isNaN b && decide (orderKey a ≤ orderKey b)

/-- IEEE `a == b`; false with a NaN, true for +0.0 and −0.0 (00_scope.md rule R11). -/
def feq (a b : Word) : Bool := !isNaN a && !isNaN b && decide (orderKey a = orderKey b)

/-- `fclamp(x, lo, hi)` (00_scope.md rule R11): x itself, sign of zero included, when it lies between the bounds. -/
def fclamp (x lo hi : Word) : Word := if flt x lo then lo else if flt hi x then hi else x

/-- The condition of `check_finite(x1, ..., xn)` (00_scope.md rule R12). -/
def allFinite (xs : List Word) : Bool := xs.all isFinite

/-- +0.0. -/
def fZero : Word := 0x00000000
/-- 0.5. -/
def fHalf : Word := 0x3F000000
/-- 1.0. -/
def fOne : Word := 0x3F800000
/-- 2.0. -/
def fTwo : Word := 0x40000000
/-- 100.0. -/
def fHundred : Word := 0x42C80000
/-- −100.0. -/
def fNegHundred : Word := 0xC2C80000
/-- 1000.0. -/
def fThousand : Word := 0x447A0000

end Sys2Proof.Machine
end

