-- ==== Sys2Proof/Machine/State.lean ====
section
/-! DEFINITION. The state of SCOUT-FCB (10_state.md), the events by which its four agents and its reset input act on
it, the reasons a step can stop, and the state after reset (70_reset_and_hazards.md rule R230). -/

namespace Sys2Proof.Machine

/-- The four motors, m = 0 front-left, 1 front-right, 2 rear-left, 3 rear-right (10_state.md rule R39). -/
inductive Motor where
  | frontLeft | frontRight | rearLeft | rearRight
  deriving DecidableEq, Repr

/-- One value per axis, in the order of 10_state.md rule R27. -/
structure PerAxis (α : Type) where
  roll  : α
  pitch : α
  yaw   : α
  deriving DecidableEq, Repr

/-- One value per motor, in the order of 10_state.md rule R39. -/
structure PerMotor (α : Type) where
  frontLeft  : α
  frontRight : α
  rearLeft   : α
  rearRight  : α
  deriving DecidableEq, Repr

/-- The fault causes (60_exceptions.md rule R200); `none` is the code while `STATUS.FAULT` = 0. Codes 0x08..0xFF are
never produced, so they have no constructor. -/
inductive FaultCode where
  | none | nonfinite | dtRange | normRange | dutyCfg | badCmd | busy | badAccess
  deriving DecidableEq, Repr

/-- The RC status code held in `CH[0]` (10_state.md rule R28). -/
inductive RcStatus where
  | initial | new | failed | checksumError
  deriving DecidableEq, Repr

/-- Where the RC engine stands in its read (10_state.md rule R44). -/
inductive RcPhase where
  | idle | hunt | payload
  deriving DecidableEq, Repr

/-- The widths a host access can have (20_memory.md rule R61): only 32 bits is admitted. -/
inductive Width where
  | w8 | w16 | w32 | w64
  deriving DecidableEq, Repr

/-- One step of one agent (00_scope.md rule R3), or of the external reset input (70_reset_and_hazards.md rule R230). -/
inductive Event where
  /-- The host reads at a host address, with an access of the given width (20_memory.md rule R62). -/
  | hostRead (width : Width) (addr : Nat)
  /-- The host writes `v` at a host address, with an access of the given width (20_memory.md rules R63, R67). -/
  | hostWrite (width : Width) (addr : Nat) (v : Word)
  /-- The byte source pushes a byte (20_memory.md rule R71). -/
  | rxPush (b : Byte)
  /-- The command engine takes one step of an RC read (40_rc_decoder.md rules R107 to R109). -/
  | rcStep
  /-- The PWM generator starts a period: the untimed reading (43_pwm_system.md rule R189). -/
  | pwmPeriodStart
  /-- `ns` nanoseconds pass at the PWM generator: the timed reading (43_pwm_system.md rules R185 to R187). -/
  | pwmElapse (ns : Nat)
  /-- The external reset input (70_reset_and_hazards.md rule R230). -/
  | reset
  deriving DecidableEq, Repr

/-- The whole state. Every field but the first three is state the spec names; `STATUS.BUSY`, `STATUS.RX_LEVEL`,
`STATUS.RC_ATTEMPTS` and `PWM_OUT` are views of it (Machine/Flags.lean). -/
structure State where
  /-- MODEL's own: the parameters of 00_scope.md rule R7, fixed for a run (assumption 1). -/
  params : Params
  /-- MODEL's own: the steps the agents and the reset input will take, the next one first (assumption 4). -/
  pending : List Event
  /-- MODEL's own: the value the bus gave back for the host's last read (20_memory.md rule R62; assumption 5). -/
  readData : Option Word
  /-- `CMD`, the last word stored by a write while not halted (10_state.md rule R23). -/
  cmd : Word
  /-- `ARG0`..`ARG4`, the operand registers (10_state.md rule R24). -/
  arg0 : Word
  arg1 : Word
  arg2 : Word
  arg3 : Word
  arg4 : Word
  /-- `RES0`, the last scalar result (10_state.md rule R25). -/
  res0 : Word
  /-- `STATUS.FAULT` (10_state.md rule R26). -/
  fault : Bool
  /-- `STATUS.HALTED` (10_state.md rule R26). -/
  halted : Bool
  /-- `STATUS.PWM_EN` (10_state.md rule R26). -/
  pwmEn : Bool
  /-- `STATUS.RX_OVR` (10_state.md rule R26). -/
  rxOvr : Bool
  /-- `STATUS.FAULT_CODE` (10_state.md rule R26). -/
  faultCode : FaultCode
  /-- `CH[0]` bits 1:0 (10_state.md rule R28). -/
  rcStatus : RcStatus
  /-- `CH[1..14]` bits 15:0 (10_state.md rule R29). -/
  ch : Vector (BitVec 16) 14
  /-- `KP`, `KI`, `KD`, the gains per axis (10_state.md rule R31). -/
  kp : PerAxis Word
  ki : PerAxis Word
  kd : PerAxis Word
  /-- `INTEG`, `last_integral` per axis (10_state.md rule R32). -/
  integ : PerAxis Word
  /-- `LASTERR`, `last_error` per axis (10_state.md rule R32). -/
  lastErr : PerAxis Word
  /-- `PID_OUT`, the last output per axis (10_state.md rule R33). -/
  pidOut : PerAxis Word
  /-- `IDLE_THR` and `GOV_THR` (10_state.md rule R35). -/
  idleThr : Word
  govThr : Word
  /-- `MIX_THR` (10_state.md rule R36). -/
  mixThr : Word
  /-- `DEADZONE`, `DUTY_FLOOR`, `DUTY_CEIL` (10_state.md rule R37). -/
  deadzone : Word
  dutyFloor : Word
  dutyCeil : Word
  /-- `MRAW`, the raw motor commands (10_state.md rule R38). -/
  mraw : PerMotor Word
  /-- `MOTOR`, the motor duty commands in nanoseconds (10_state.md rule R39). -/
  motor : PerMotor Word
  /-- `RXQ`, the receive FIFO, oldest byte first (10_state.md rule R41). -/
  rxq : List Byte
  /-- `rc_phase`, `rc_attempts`, `rc_buf[0..30]`, `rc_count` (10_state.md rule R44); `rc_buf` at reset and between reads:
  assumptions 6 and 18. -/
  rcPhase : RcPhase
  rcAttempts : Nat
  rcBuf : Vector Byte 31
  rcCount : Nat
  /-- `ACTIVE_DUTY`, the pulse widths latched at the period start (10_state.md rule R45). -/
  activeDuty : PerMotor Word
  /-- The period phase: nanoseconds since the current PWM period began (10_state.md rule R45). -/
  pwmPhase : Nat
  deriving DecidableEq, Repr

/-- The reasons the MODEL stops with a fault: there is none. Every fault the spec describes is fault entry
(60_exceptions.md rule R203), which is a next state with `STATUS.FAULT` = 1; nobody raises a value of this type, so it
is safe. -/
inductive Fault where
  deriving DecidableEq, Repr

/-- The reasons the model gives a step no meaning. -/
inductive Refusal where
  /-- Raised by `exec` alone, for an instruction that has no meaning yet; no arm raises it. Safe: the run stops. -/
  | notModelled (mnemonic : String)
  /-- Raised by a host access whose address is outside the 512-byte window: such addresses "are the platform's and
  outside the model" (20_memory.md rule R60, 93_implementation_defined.md U17, treatment `refuse`). Safe: the run
  stops. -/
  | outsideWindow
  deriving DecidableEq, Repr

/-- The state after reset for any choice of the parameters (70_reset_and_hazards.md rules R230, R231): each register
at the Reset column of 10_state.md rule R22, `RXQ` empty, the RC engine idle, the PWM generator released. `rcBuf` is
unspecified there (rule R232) and holds zeros here: DESIGN CHOICE (assumption 6). -/
def State.resetWith (p : Params) : State :=
  { params := p, pending := [], readData := none,
    cmd := 0, arg0 := 0, arg1 := 0, arg2 := 0, arg3 := 0, arg4 := 0, res0 := 0,
    fault := false, halted := false, pwmEn := false, rxOvr := false, faultCode := .none,
    rcStatus := .initial, ch := Vector.replicate 14 0,
    kp := ⟨0, 0, 0⟩, ki := ⟨0, 0, 0⟩, kd := ⟨0, 0, 0⟩,
    integ := ⟨0, 0, 0⟩, lastErr := ⟨0, 0, 0⟩, pidOut := ⟨0, 0, 0⟩,
    idleThr := 0, govThr := 0, mixThr := 0,
    deadzone := 0x3CF5C28F, dutyFloor := 1000000, dutyCeil := 2000000,
    mraw := ⟨0, 0, 0, 0⟩, motor := ⟨1000000, 1000000, 1000000, 1000000⟩,
    rxq := [], rcPhase := .idle, rcAttempts := 0, rcBuf := Vector.replicate 31 0, rcCount := 0,
    activeDuty := ⟨1000000, 1000000, 1000000, 1000000⟩, pwmPhase := 0 }

/-- The machine right after reset, with the reference parameters (assumption 2) and no agent's step pending. -/
def State.reset : State := State.resetWith Params.reference

end Sys2Proof.Machine
end

