-- ==== Sys2Proof/Machine/Flags.lean ====
section
/-! DEFINITION. The flags: the encodings of the status and fault codes, the fields of `STATUS` that are views of other
state, the `STATUS` word, and the output pins (10_state.md rules R26, R28, R43, R44, R46). -/

namespace Sys2Proof.Machine

/-- The code stored in `STATUS.FAULT_CODE` (60_exceptions.md rule R200). -/
def FaultCode.code : FaultCode → Nat
  | .none => 0x00
  | .nonfinite => 0x01
  | .dtRange => 0x02
  | .normRange => 0x03
  | .dutyCfg => 0x04
  | .badCmd => 0x05
  | .busy => 0x06
  | .badAccess => 0x07

/-- The encoding of the RC status code in `CH[0]` (10_state.md rule R28). -/
def RcStatus.code : RcStatus → Nat
  | .initial => 0
  | .new => 1
  | .failed => 2
  | .checksumError => 3

/-- `STATUS.BUSY`: 1 exactly when `rc_phase` ≠ Idle (10_state.md rule R44). -/
def State.busy (s : State) : Bool := s.rcPhase != .idle

/-- `STATUS.RX_LEVEL`: min(length of `RXQ`, 255) (10_state.md rule R43). -/
def State.rxLevel (s : State) : Nat := min s.rxq.length 255

/-- `STATUS`, the whole register (10_state.md rule R26); bits 7:5 and 31:28 read 0. `RC_ATTEMPTS` mirrors `rc_attempts`
(rule R44). -/
def State.status (s : State) : Word :=
  BitVec.ofNat 32
    (s.busy.toNat + 2 * s.fault.toNat + 4 * s.halted.toNat + 8 * s.pwmEn.toNat + 16 * s.rxOvr.toNat
      + 2 ^ 8 * s.faultCode.code + 2 ^ 16 * s.rxLevel + 2 ^ 24 * (s.rcAttempts % 16))

/-- `CH[0]`: the RC status code in bits 1:0, the rest 0 (10_state.md rule R28). -/
def State.ch0 (s : State) : Word := BitVec.ofNat 32 s.rcStatus.code

/-- The value of a per-motor array at one motor. -/
def PerMotor.get {α : Type} (p : PerMotor α) : Motor → α
  | .frontLeft => p.frontLeft
  | .frontRight => p.frontRight
  | .rearLeft => p.rearLeft
  | .rearRight => p.rearRight

/-- The same value for every motor. -/
def PerMotor.fill {α : Type} (x : α) : PerMotor α := ⟨x, x, x, x⟩

/-- `PWM_OUT[m]`: high for the first min(`ACTIVE_DUTY[m]`, `PWM_PERIOD_NS`) nanoseconds of a period while
`STATUS.PWM_EN` = 1, else low (43_pwm_system.md rules R187, R188; 10_state.md rule R46). -/
def State.pwmOut (s : State) (m : Motor) : Bool :=
  s.pwmEn && decide (s.pwmPhase < min (s.activeDuty.get m).toNat s.params.pwmPeriodNs)

/-- `legal_duty_cfg()` (42_mixer_duty.md rule R151): `DEADZONE` finite and in [0, 0.5), −0.0 counting as 0.0, and
`DUTY_FLOOR` ≤ `DUTY_CEIL` ≤ 2^24. -/
def legalDutyCfg (z fl ce : Word) : Bool :=
  isFinite z && fle fZero z && flt z fHalf && decide (fl.toNat ≤ ce.toNat) && decide (ce.toNat ≤ 16777216)

/-- The legality of the duty configuration the registers hold (42_mixer_duty.md rule R151). -/
def State.legalDuty (s : State) : Bool := legalDutyCfg s.deadzone s.dutyFloor s.dutyCeil

end Sys2Proof.Machine
end

