-- ==== Sys2Proof/Machine/Operands.lean ====
section
/-! DEFINITION. Operand forms: the per-axis registers a field `AX` selects, the channel value a field `CHN` selects, the
register window by offset with its access rights, and the byte lanes of the bus (10_state.md rule R22, 20_memory.md
rules R60 to R69). -/

namespace Sys2Proof.Machine

/-- The value of a per-axis array at one axis (10_state.md rule R27). -/
def PerAxis.get {α : Type} (p : PerAxis α) : Axis → α
  | .roll => p.roll
  | .pitch => p.pitch
  | .yaw => p.yaw

/-- A per-axis array with the value of one axis replaced. -/
def PerAxis.set {α : Type} (p : PerAxis α) (a : Axis) (x : α) : PerAxis α :=
  match a with
  | .roll => { p with roll := x }
  | .pitch => { p with pitch := x }
  | .yaw => { p with yaw := x }

/-- The same value for every axis. -/
def PerAxis.fill {α : Type} (x : α) : PerAxis α := ⟨x, x, x⟩

/-- `CH[c]` for c = 1..14: the raw value, zero-extended (10_state.md rule R29). -/
def State.channelWord (s : State) (c : Channel) : Word := BitVec.ofNat 32 (s.ch[c].toNat)

/-- The registers of the window, one constructor per row of the register map (10_state.md rule R22). -/
inductive Reg where
  | cmd | status
  | arg (i : Fin 5)
  | res0
  | ch0
  | ch (c : Channel)
  | kp (a : Axis) | ki (a : Axis) | kd (a : Axis)
  | integ (a : Axis) | lastErr (a : Axis) | pidOut (a : Axis)
  | idleThr | govThr | mixThr
  | deadzone | dutyFloor | dutyCeil
  | mraw (m : Motor) | motor (m : Motor)
  deriving DecidableEq, Repr

/-- The access rights of the register map (10_state.md rule R22). -/
inductive Access where
  /-- `RW`: host read and write -/
  | readWrite
  /-- `RO`: host read only -/
  | readOnly
  /-- `WO*`: a write issues a command, a read gives the last word written (10_state.md rule R23) -/
  | issue
  deriving DecidableEq, Repr

/-- The motor number m (10_state.md rule R39). -/
def Motor.number : Motor → Nat
  | .frontLeft => 0
  | .frontRight => 1
  | .rearLeft => 2
  | .rearRight => 3

/-- Column Offset of the register map (10_state.md rule R22). -/
def Reg.offset : Reg → Nat
  | .cmd => 0x000
  | .status => 0x004
  | .arg i => 0x010 + 4 * i.val
  | .res0 => 0x024
  | .ch0 => 0x040
  | .ch c => 0x040 + 4 * c.number
  | .kp a => 0x080 + 4 * a.number
  | .ki a => 0x090 + 4 * a.number
  | .kd a => 0x0A0 + 4 * a.number
  | .integ a => 0x0B0 + 4 * a.number
  | .lastErr a => 0x0C0 + 4 * a.number
  | .pidOut a => 0x0D0 + 4 * a.number
  | .idleThr => 0x0E0
  | .govThr => 0x0E4
  | .mixThr => 0x0E8
  | .deadzone => 0x0F0
  | .dutyFloor => 0x0F4
  | .dutyCeil => 0x0F8
  | .mraw m => 0x100 + 4 * m.number
  | .motor m => 0x110 + 4 * m.number

/-- Column Access of the register map (10_state.md rule R22). -/
def Reg.access : Reg → Access
  | .cmd => .issue
  | .arg _ | .kp _ | .ki _ | .kd _ | .pidOut _ | .idleThr | .govThr | .deadzone | .dutyFloor | .dutyCeil => .readWrite
  | .status | .res0 | .ch0 | .ch _ | .integ _ | .lastErr _ | .mixThr | .mraw _ | .motor _ => .readOnly

/-- Every axis, in order. -/
def Axis.all : List Axis := [.roll, .pitch, .yaw]

/-- Every motor, in order. -/
def Motor.all : List Motor := [.frontLeft, .frontRight, .rearLeft, .rearRight]

/-- Every register of the window, in order of offset. -/
def Reg.all : List Reg :=
  [.cmd, .status] ++ (List.finRange 5).map .arg ++ [.res0, .ch0] ++ (List.finRange 14).map .ch
    ++ Axis.all.map .kp ++ Axis.all.map .ki ++ Axis.all.map .kd
    ++ Axis.all.map .integ ++ Axis.all.map .lastErr ++ Axis.all.map .pidOut
    ++ [.idleThr, .govThr, .mixThr, .deadzone, .dutyFloor, .dutyCeil]
    ++ Motor.all.map .mraw ++ Motor.all.map .motor

/-- The register at a byte offset of the window, or none where the offset is reserved (20_memory.md rule R64). -/
def Reg.ofOffset (off : Nat) : Option Reg := Reg.all.find? fun r => r.offset == off

/-- The operand register `ARGi` (10_state.md rule R24). -/
def State.arg (s : State) (i : Fin 5) : Word :=
  match i with
  | 0 => s.arg0
  | 1 => s.arg1
  | 2 => s.arg2
  | 3 => s.arg3
  | 4 => s.arg4

/-- The 32-bit value a register reads as (20_memory.md rule R62). -/
def State.readReg (s : State) : Reg → Word
  | .cmd => s.cmd
  | .status => s.status
  | .arg i => s.arg i
  | .res0 => s.res0
  | .ch0 => s.ch0
  | .ch c => s.channelWord c
  | .kp a => s.kp.get a
  | .ki a => s.ki.get a
  | .kd a => s.kd.get a
  | .integ a => s.integ.get a
  | .lastErr a => s.lastErr.get a
  | .pidOut a => s.pidOut.get a
  | .idleThr => s.idleThr
  | .govThr => s.govThr
  | .mixThr => s.mixThr
  | .deadzone => s.deadzone
  | .dutyFloor => s.dutyFloor
  | .dutyCeil => s.dutyCeil
  | .mraw m => s.mraw.get m
  | .motor m => s.motor.get m

/-- Store into `ARGi` (10_state.md rule R24). -/
def State.setArg (s : State) (i : Fin 5) (v : Word) : State :=
  match i with
  | 0 => { s with arg0 := v }
  | 1 => { s with arg1 := v }
  | 2 => { s with arg2 := v }
  | 3 => { s with arg3 := v }
  | 4 => { s with arg4 := v }

/-- Store into a `RW` register, with no check on the value (20_memory.md rule R63; 10_state.md rules R24, R31, R33, R35,
R37). `CMD` and the `RO` registers are not stored to this way. -/
def State.writeReg (s : State) (r : Reg) (v : Word) : State :=
  match r with
  | .arg i => s.setArg i v
  | .kp a => { s with kp := s.kp.set a v }
  | .ki a => { s with ki := s.ki.set a v }
  | .kd a => { s with kd := s.kd.set a v }
  | .pidOut a => { s with pidOut := s.pidOut.set a v }
  | .idleThr => { s with idleThr := v }
  | .govThr => { s with govThr := v }
  | .deadzone => { s with deadzone := v }
  | .dutyFloor => { s with dutyFloor := v }
  | .dutyCeil => { s with dutyCeil := v }
  | .cmd | .status | .res0 | .ch0 | .ch _ | .integ _ | .lastErr _ | .mixThr | .mraw _ | .motor _ => s

/-- The value a 32-bit aligned read of an offset gives: the register's value, or 0 at a reserved offset (20_memory.md
rules R62, R64). -/
def State.readOffset (s : State) (off : Nat) : Word :=
  match Reg.ofOffset off with
  | some r => s.readReg r
  | none => 0

/-- The offset a host address selects, or none where it is outside the 512-byte window (20_memory.md rule R60). -/
def windowOffset (p : Params) (addr : Nat) : Option Nat :=
  if p.blockBase ≤ addr ∧ addr < p.blockBase + 0x200 then some (addr - p.blockBase) else none

/-- An access the block admits is 32 bits wide at an offset that is a multiple of 4 (20_memory.md rule R61). -/
def admitted (w : Width) (off : Nat) : Bool := w == .w32 && off % 4 == 0

/-- Byte lane j of a bus word carries bits [8j+7:8j]: the bus is little-endian (20_memory.md rule R69). -/
def byteLane (w : Word) (j : Fin 4) : Byte := BitVec.ofNat 8 (field w (8 * j.val + 7) (8 * j.val))

end Sys2Proof.Machine
end

