-- ==== Sys2Proof/Machine/Ops.lean ====
section
/-! DEFINITION. The named operations that the commands and the agents share: fault entry (60_exceptions.md rule R203) and
the one return from it, reset (70_reset_and_hazards.md rule R230); the receive FIFO; the PWM latch; the completion of
an RC read. -/

namespace Sys2Proof.Machine

/-- What a step answers. -/
abbrev Result := Host.Outcome State Fault Refusal

/-- Fault entry (60_exceptions.md rule R203): record the code, force every `MOTOR` to `DUTY_FLOOR`, release the PWM
outputs, halt, and abort an RC read in progress. `CH[0..14]` and `STATUS.RC_ATTEMPTS` are left as they are. -/
def faultEntry (code : FaultCode) (s : State) : State :=
  { s with
    fault := true
    faultCode := code
    motor := PerMotor.fill s.dutyFloor
    pwmEn := false
    halted := true
    rcPhase := .idle }

/-- `raise Fault(code)` (00_scope.md rule R12): the step ends at once, with no register write of the command, in fault
entry. -/
def raise (code : FaultCode) (s : State) : Result := .next (faultEntry code s)

/-- The external reset input (70_reset_and_hazards.md rule R230), the only way out of `STATUS.HALTED` = 1
(60_exceptions.md rule R204); there is no other return from a fault (rule R207). The parameters and the steps still
pending are not the block's registers and stay. -/
def State.resetBlock (s : State) : State := { State.resetWith s.params with pending := s.pending }

/-- `RxPush(b)` (20_memory.md rule R71): append, or drop the byte and set `STATUS.RX_OVR` when the FIFO is full. -/
def rxPush (b : Byte) (s : State) : State :=
  if s.rxq.length < s.params.rxFifoDepth then { s with rxq := s.rxq ++ [b] } else { s with rxOvr := true }

/-- The latch of a period start (43_pwm_system.md rule R186): `ACTIVE_DUTY[m] <- MOTOR[m]`, with the period beginning
now. -/
def latchDuty (s : State) : State := { s with activeDuty := s.motor, pwmPhase := 0 }

/-- `finish(s)`, the completion of an RC read (40_rc_decoder.md rule R111). `rc_buf` keeps what the read left
there until a later read writes over it: DESIGN CHOICE, since 93_implementation_defined.md U1 leaves it open between
reads (assumption 18). -/
def finishRead (st : RcStatus) (s : State) : State := { s with rcStatus := st, rcPhase := .idle }

/-- The zero-throttle duty in every `MOTOR`, unchecked (42_mixer_duty.md rule R163). -/
def forceFloor (s : State) : State := { s with motor := PerMotor.fill s.dutyFloor }

end Sys2Proof.Machine
end

