-- ==== Sys2Proof/Machine/Mixer.lean ====
section
/-! DEFINITION. The mixer and the duty-cycle shaper (42_mixer_duty.md): DUTY, MIX and FORCE_IDLE. -/

namespace Sys2Proof.Machine

/-- `Shape(t)` for the configuration z, fl, ce (42_mixer_duty.md rule R150); none where its `check_finite` raises
NONFINITE. It is called only with a legal configuration (rule R151) and a finite t. -/
def shape (z fl ce t : Word) : Option Word :=
  let num := fsub t z
  let den := fsub fOne (fmul fTwo z)
  let q := fdiv num den
  if allFinite [num, q] then
    let p := fclamp q fZero fOne
    let flf := u32ToF32 fl.toNat
    let cef := u32ToF32 ce.toNat
    let span := u32ToF32 (ce.toNat - fl.toNat)
    let d := fclamp (fadd flf (fmul span p)) flf cef
    some (f32ToU32Trunc d)
  else none

/-- `Shape(t)` for the configuration the registers hold. -/
def State.shape (s : State) (t : Word) : Option Word := Machine.shape s.deadzone s.dutyFloor s.dutyCeil t

/-- DUTY (42_mixer_duty.md rule R158). -/
def execDuty (s : State) : Result :=
  if s.legalDuty then
    if isFinite s.arg0 then
      match s.shape s.arg0 with
      | some d => .next { s with res0 := d }
      | none => raise .nonfinite s
    else raise .nonfinite s
  else raise .dutyCfg s

/-- The adjusted throttle and its two intermediates (42_mixer_duty.md rule R155). -/
structure ThrottleWork where
  g : Word
  h : Word
  thr : Word
  deriving DecidableEq, Repr

/-- The adjusted throttle for a pilot fraction f (42_mixer_duty.md rule R155). -/
def throttleWork (idle gov f : Word) : ThrottleWork :=
  let g := fsub gov idle
  let h := fmul g f
  { g, h, thr := fadd idle h }

/-- The mixer's values (42_mixer_duty.md rules R156, R160): the two shared sums, the four partial sums and the four raw
commands. -/
structure MixWork where
  a : Word
  b : Word
  aPlusRoll : Word
  aMinusRoll : Word
  bPlusRoll : Word
  bMinusRoll : Word
  raw : PerMotor Word
  deriving DecidableEq, Repr

/-- The raw motor commands (42_mixer_duty.md rule R156). -/
def mixWork (thr roll pitch yaw : Word) : MixWork :=
  let a := fadd thr pitch
  let b := fsub thr pitch
  let aPlusRoll := fadd a roll
  let aMinusRoll := fsub a roll
  let bPlusRoll := fadd b roll
  let bMinusRoll := fsub b roll
  { a, b, aPlusRoll, aMinusRoll, bPlusRoll, bMinusRoll
    raw :=
      { frontLeft := fsub aPlusRoll yaw
        frontRight := fadd aMinusRoll yaw
        rearLeft := fadd bPlusRoll yaw
        rearRight := fsub bMinusRoll yaw } }

/-- The four duties of four raw commands, or none where a `Shape` call raises NONFINITE (42_mixer_duty.md rule R160). -/
def State.shapeAll (s : State) (raw : PerMotor Word) : Option (PerMotor Word) :=
  match s.shape raw.frontLeft, s.shape raw.frontRight, s.shape raw.rearLeft, s.shape raw.rearRight with
  | some fl, some fr, some rl, some rr => some ⟨fl, fr, rl, rr⟩
  | _, _, _, _ => none

/-- MIX (42_mixer_duty.md rule R160). -/
def execMix (s : State) : Result :=
  let f := s.arg0
  let roll := s.pidOut.roll
  let pitch := s.pidOut.pitch
  let yaw := s.pidOut.yaw
  if s.legalDuty then
    if allFinite [f, s.idleThr, s.govThr, roll, pitch, yaw] then
      let t := throttleWork s.idleThr s.govThr f
      let w := mixWork t.thr roll pitch yaw
      if allFinite [t.g, t.h, t.thr, w.a, w.b, w.aPlusRoll, w.aMinusRoll, w.bPlusRoll, w.bMinusRoll,
          w.raw.frontLeft, w.raw.frontRight, w.raw.rearLeft, w.raw.rearRight] then
        match s.shapeAll w.raw with
        | some d => .next { s with mixThr := t.thr, mraw := w.raw, motor := d }
        | none => raise .nonfinite s
      else raise .nonfinite s
    else raise .nonfinite s
  else raise .dutyCfg s

/-- FORCE_IDLE (42_mixer_duty.md rule R163): the duty configuration is not checked. -/
def execForceIdle (s : State) : Result := .next (forceFloor s)

end Sys2Proof.Machine
end

