-- ==== Sys2Proof/Machine/Pid.lean ====
section
/-! DEFINITION. The three-axis PID controller (41_pid.md): PID_UPDATE and PID_RESET. -/

namespace Sys2Proof.Machine

/-- The values one PID step computes (41_pid.md rule R130): the ten named values of its pseudocode. -/
structure PidWork where
  p : Word
  t1 : Word
  t2 : Word
  iRaw : Word
  de : Word
  t3 : Word
  d : Word
  i : Word
  s : Word
  out : Word
  deriving DecidableEq, Repr

/-- The anti-windup clamp of the integral to ±150.0 (41_pid.md rule R130). -/
def antiWindup (iRaw : Word) : Word := fclamp iRaw Config.iLimitNeg Config.iLimit

/-- PID_UPDATE's arithmetic (41_pid.md rule R130), each operation rounded once, in the order the rule writes them. -/
def pidWork (e dt kp ki kd li le : Word) : PidWork :=
  let p := fmul e kp
  let t1 := fmul e ki
  let t2 := fmul t1 dt
  let iRaw := fadd li t2
  let de := fsub e le
  let t3 := fmul kd de
  let d := fdiv t3 dt
  let i := antiWindup iRaw
  let s := fadd p i
  { p, t1, t2, iRaw, de, t3, d, i, s, out := fadd s d }

/-- PID_UPDATE of one axis (41_pid.md rule R130). -/
def execPidUpdate (a : Axis) (s : State) : Result :=
  let e := s.arg0
  let dt := s.arg1
  if allFinite [e, dt, s.kp.get a, s.ki.get a, s.kd.get a] then
    if flt fZero dt then
      let w := pidWork e dt (s.kp.get a) (s.ki.get a) (s.kd.get a) (s.integ.get a) (s.lastErr.get a)
      if allFinite [w.p, w.t1, w.t2, w.iRaw, w.de, w.t3, w.d] && allFinite [w.s, w.out] then
        .next
          { s with
            integ := s.integ.set a w.i
            lastErr := s.lastErr.set a e
            pidOut := s.pidOut.set a w.out
            res0 := w.out }
      else raise .nonfinite s
    else raise .dtRange s
  else raise .nonfinite s

/-- PID_RESET (41_pid.md rule R135): the selected axes' state becomes +0.0. -/
def execPidReset (sel : AxisSel) (s : State) : Result :=
  match sel with
  | .one a => .next { s with integ := s.integ.set a fZero, lastErr := s.lastErr.set a fZero }
  | .all => .next { s with integ := PerAxis.fill fZero, lastErr := PerAxis.fill fZero }

end Sys2Proof.Machine
end

