-- ==== Sys2Proof/Machine/Pwm.lean ====
section
/-! DEFINITION. The system commands NOP, PWM_ENABLE, PWM_RELEASE and SHUTDOWN, and the PWM generator's steps
(43_pwm_system.md). -/

namespace Sys2Proof.Machine

/-- NOP (43_pwm_system.md rule R180): nothing beyond the issue, which stored the word in `CMD`. -/
def execNop (s : State) : Result := .next s

/-- PWM_ENABLE (43_pwm_system.md rule R181): from released, drive the outputs and start a period now; already enabled,
nothing changes. -/
def execPwmEnable (s : State) : Result :=
  if s.pwmEn then .next s else .next (latchDuty { s with pwmEn := true })

/-- PWM_RELEASE (43_pwm_system.md rule R182). -/
def execPwmRelease (s : State) : Result := .next { s with pwmEn := false }

/-- SHUTDOWN (43_pwm_system.md rule R183): the zero-throttle duty, released, halted; `FAULT` and `FAULT_CODE` stay. -/
def execShutdown (s : State) : Result := .next { forceFloor s with pwmEn := false, halted := true }

/-- The untimed period start (43_pwm_system.md rule R189), enabled only while `STATUS.PWM_EN` = 1. -/
def pwmPeriodStart (s : State) : State := if s.pwmEn then latchDuty s else s

/-- `ns` nanoseconds pass at the generator (43_pwm_system.md rules R185 to R188): while enabled the phase advances, and
if a period's end is reached the next one starts, back to back, latching `MOTOR`; while released no time of a period
passes. -/
def pwmElapse (ns : Nat) (s : State) : State :=
  if s.pwmEn then
    if s.pwmPhase + ns < s.params.pwmPeriodNs then { s with pwmPhase := s.pwmPhase + ns }
    else { s with activeDuty := s.motor, pwmPhase := (s.pwmPhase + ns) % s.params.pwmPeriodNs }
  else s

end Sys2Proof.Machine
end

