-- ==== Sys2Proof/Machine/Rc.lean ====
section
/-! DEFINITION. The RC-frame decoder and the channel normaliser (40_rc_decoder.md): RC_READ and the engine's steps, NORM
and RC_NORM. -/

namespace Sys2Proof.Machine

/-- RC_READ at issue (40_rc_decoder.md rule R105); `STATUS.BUSY` and `STATUS.RC_ATTEMPTS` follow. -/
def execRcRead (s : State) : Result :=
  .next { s with rcPhase := .hunt, rcAttempts := 0, rcCount := 0 }

/-- S, the sum of the first 29 bytes of the buffer (40_rc_decoder.md rule R102). -/
def frameSum (buf : Vector Byte 31) : Nat := ((buf.toList.take 29).map BitVec.toNat).sum

/-- RX, the little-endian value of the buffer's last two bytes (40_rc_decoder.md rule R102). -/
def frameChecksum (buf : Vector Byte 31) : Nat := buf[29].toNat + 256 * buf[30].toNat

/-- The frame is valid exactly when `0xFFDF − S = RX` (40_rc_decoder.md rule R102), the difference an exact integer. -/
def frameValid (buf : Vector Byte 31) : Bool :=
  decide ((Config.rcCkBase : Int) - (frameSum buf : Int) = (frameChecksum buf : Int))

/-- The value of channel i in a buffer, `B[2i−1] + 256 × B[2i]` (40_rc_decoder.md rule R101). -/
def frameChannel (buf : Vector Byte 31) (c : Channel) : BitVec 16 :=
  BitVec.ofNat 16
    ((buf[2 * c.number - 1]'(by have := c.isLt; unfold Channel.number; omega)).toNat
      + 256 * (buf[2 * c.number]'(by have := c.isLt; unfold Channel.number; omega)).toNat)

/-- The channel registers after a valid frame: channels 1..`NUM_CHANNELS` from the buffer, the rest as they were
(40_rc_decoder.md rule R110). -/
def channelsFrom (p : Params) (buf : Vector Byte 31) (old : Vector (BitVec 16) 14) : Vector (BitVec 16) 14 :=
  Vector.ofFn fun c : Channel => if Channel.number c ≤ p.numChannels then frameChannel buf c else old[c]

/-- `validate()` (40_rc_decoder.md rule R110): extract the channels and finish New, or finish ChecksumError. -/
def validateFrame (s : State) : State :=
  if frameValid s.rcBuf then finishRead .new { s with ch := channelsFrom s.params s.rcBuf s.ch }
  else finishRead .checksumError s

/-- The hunt step (40_rc_decoder.md rules R107, R108): with a byte in `RXQ` it is popped and compared with the sync
byte; with none it is a timeout. Either way one attempt is used, and the tenth failed attempt ends the read. -/
def huntStep (s : State) : State :=
  match s.rxq with
  | b :: rest =>
    let s1 := { s with rxq := rest, rcAttempts := s.rcAttempts + 1 }
    if b = Config.rcSync then { s1 with rcPhase := .payload, rcCount := 0 }
    else if s1.rcAttempts = Config.rcMaxAttempts then finishRead .failed s1
    else s1
  | [] =>
    let s1 := { s with rcAttempts := s.rcAttempts + 1 }
    if s1.rcAttempts = Config.rcMaxAttempts then finishRead .failed s1 else s1

/-- The payload step (40_rc_decoder.md rule R109): a byte goes into the buffer, the 31st is validated in the same step;
with no byte the read times out and ends Failed. -/
def payloadStep (s : State) : State :=
  match s.rxq with
  | b :: rest =>
    let s1 := { s with rxq := rest, rcBuf := s.rcBuf.setIfInBounds s.rcCount b, rcCount := s.rcCount + 1 }
    if s1.rcCount = 31 then validateFrame s1 else s1
  | [] => finishRead .failed s

/-- One step of the RC engine (40_rc_decoder.md rules R107 to R109); while it is idle none is enabled and nothing
happens. -/
def rcEngineStep (s : State) : State :=
  match s.rcPhase with
  | .idle => s
  | .hunt => huntStep s
  | .payload => payloadStep s

/-- The values NORM computes, in order: n, d, q, s, r0, r (40_rc_decoder.md rule R113). -/
structure NormWork where
  n : Word
  d : Word
  q : Word
  s : Word
  r0 : Word
  r : Word
  deriving DecidableEq, Repr

/-- NORM's arithmetic (40_rc_decoder.md rule R113). -/
def normWork (v inMin inMax outMin outMax : Word) : NormWork :=
  let n := fsub v inMin
  let d := fsub inMax inMin
  let q := fdiv n d
  let s := fsub outMax outMin
  let r0 := fmul q s
  { n, d, q, s, r0, r := fadd outMin r0 }

/-- NORM (40_rc_decoder.md rule R113). -/
def execNorm (s : State) : Result :=
  if allFinite [s.arg0, s.arg1, s.arg2, s.arg3, s.arg4] then
    if feq s.arg2 s.arg1 then raise .normRange s
    else
      let w := normWork s.arg0 s.arg1 s.arg2 s.arg3 s.arg4
      if allFinite [w.n, w.d, w.q, w.s, w.r0, w.r] then .next { s with res0 := w.r } else raise .nonfinite s
  else raise .nonfinite s

/-- The output range of a mapping kind: −100..100 for a default channel, 0..100 for a dial (40_rc_decoder.md rule
R114). -/
def MapKind.range : MapKind → Word × Word
  | .centred => (fNegHundred, fHundred)
  | .dial => (fZero, fHundred)

/-- RC_NORM's result for a raw value and a mapping kind (40_rc_decoder.md rule R114). -/
def rcNormValue (k : MapKind) (raw : Nat) : Word :=
  let v := u32ToF32 raw
  let (lo, hi) := MapKind.range k
  fadd lo (fmul (fdiv (fsub v fThousand) fThousand) (fsub hi lo))

/-- RC_NORM (40_rc_decoder.md rule R114): it has no fault of its own. -/
def execRcNorm (k : MapKind) (c : Channel) (s : State) : Result :=
  .next { s with res0 := rcNormValue k (s.ch[c].toNat) }

end Sys2Proof.Machine
end

