-- ==== Sys2Proof/Machine/Dispatch.lean ====
section
/-! DEFINITION. Which meaning each command has: one arm per constructor of `Instr`. -/

namespace Sys2Proof.Machine

def exec (i : Instr) (s : State) : Host.Outcome State Fault Refusal :=
  match i with
  | .nop => Sys2Proof.Machine.execNop s
  | .rcRead => Sys2Proof.Machine.execRcRead s
  | .norm => Sys2Proof.Machine.execNorm s
  | .rcNorm k c => Sys2Proof.Machine.execRcNorm k c s
  | .pidUpdate a => Sys2Proof.Machine.execPidUpdate a s
  | .pidReset sel => Sys2Proof.Machine.execPidReset sel s
  | .mix => Sys2Proof.Machine.execMix s
  | .duty => Sys2Proof.Machine.execDuty s
  | .forceIdle => Sys2Proof.Machine.execForceIdle s
  | .pwmEnable => Sys2Proof.Machine.execPwmEnable s
  | .pwmRelease => Sys2Proof.Machine.execPwmRelease s
  | .shutdown => Sys2Proof.Machine.execShutdown s

end Sys2Proof.Machine
end

