-- ==== Sys2Proof/Machine/Agents.lean ====
section
/-! DEFINITION. The steps of the agents (00_scope.md rule R3): the host's accesses and the issue of commands
(20_memory.md rules R60 to R68, 30_encoding.md rule R80), the byte source, the RC engine, the PWM generator, and the
reset input. -/

namespace Sys2Proof.Machine

/-- `issue(w)` (30_encoding.md rule R80): `CMD` takes the word, then BUSY is checked, then the word is decoded (unknown
opcode, reserved bits, field values: rule R88), then the command runs. -/
def issue (w : Word) (s : State) : Result :=
  let s1 := { s with cmd := w }
  if s1.busy then raise .busy s1
  else
    match decode s1.params.numChannels w with
    | .error _ => raise .badCmd s1
    | .ok i => exec i s1

/-- A bad access (20_memory.md rule R66): the fault BAD_ACCESS, or nothing while halted (60_exceptions.md rule R205). -/
def badAccess (s : State) : Result := if s.halted then .next s else raise .badAccess s

/-- A host read (20_memory.md rules R60 to R62, R64, R66): an admitted read gives the register's value, a reserved
offset 0, a bad read gives 0 and is a bad access. -/
def hostRead (width : Width) (addr : Nat) (s : State) : Result :=
  match windowOffset s.params addr with
  | none => .refused .outsideWindow
  | some off =>
    if admitted width off then .next { s with readData := some (s.readOffset off) }
    else badAccess { s with readData := some 0 }

/-- A host write (20_memory.md rules R60, R61, R63 to R68): ignored while halted; an admitted write of a `RW` register
stores, of `CMD` issues, and any other write is a bad access. -/
def hostWrite (width : Width) (addr : Nat) (v : Word) (s : State) : Result :=
  match windowOffset s.params addr with
  | none => .refused .outsideWindow
  | some off =>
    if s.halted then .next s
    else if admitted width off then
      match Reg.ofOffset off with
      | none => badAccess s
      | some r =>
        match r.access with
        | .issue => issue v s
        | .readWrite => .next (s.writeReg r v)
        | .readOnly => badAccess s
    else badAccess s

/-- What one event does. An agent's step that its rule does not enable does nothing. -/
def runEvent (e : Event) (s : State) : Result :=
  match e with
  | .hostRead width addr => hostRead width addr s
  | .hostWrite width addr v => hostWrite width addr v s
  | .rxPush b => .next (rxPush b s)
  | .rcStep => .next (rcEngineStep s)
  | .pwmPeriodStart => .next (pwmPeriodStart s)
  | .pwmElapse ns => .next (pwmElapse ns s)
  | .reset => .next s.resetBlock

/-- The next event, or none where nothing is pending, with the state that has taken it off the list. -/
def nextEvent (s : State) : Option (Event × State) :=
  match s.pending with
  | [] => none
  | e :: rest => some (e, { s with pending := rest })

/-- One step of the whole machine: the next pending event happens (20_memory.md rule R75: one atomic step of one agent at
a time); with none pending the block waits (70_reset_and_hazards.md rule R233). -/
def agentStep (s : State) : Result :=
  match nextEvent s with
  | none => .next s
  | some (e, s1) => runEvent e s1

/-- The host's write of a command word to `CMD`, put before every other pending event. -/
def pushCommand (s : State) (w : Word) : State :=
  { s with pending := .hostWrite .w32 (s.params.blockBase + Reg.cmd.offset) w :: s.pending }

end Sys2Proof.Machine
end

