-- ==== Sys2Proof/Machine/Step.lean ====
section
/-! DEFINITION. The step of the machine, and where a command word is placed so that the next step runs it. -/

namespace Sys2Proof.Machine

/-- One step (20_memory.md rule R75). -/
def step (s : State) : Host.Outcome State Fault Refusal := agentStep s

/-- `s` with the command word `w` (its low `nbits` bits, the rest 0) as the host's next access: the block has no program
counter and fetches nothing (10_state.md rule R21); what it runs next is the word the host next writes to `CMD`. -/
def State.withFetchWord (s : State) (nbits w : Nat) : State := pushCommand s (BitVec.ofNat 32 (w % 2 ^ nbits))

end Sys2Proof.Machine
end

