-- ==== Sys2Proof/Safety.lean ====
section
/-! DEFINITION. The terms the claims use: the invariant of the block's state, a good final state, the legal command words
as the opcode map gives them, IEEE rounding as "nearest", and the relations of the noninterference claims. -/

namespace Sys2Proof.Machine

/-- The state properties the spec's rules keep, for every choice of the parameters. -/
structure State.Inv (s : State) : Prop where
  /-- `STATUS.FAULT_CODE` is 0 exactly while `STATUS.FAULT` = 0 (10_state.md rule R26). -/
  code_iff_fault : s.fault = true ↔ s.faultCode ≠ .none
  /-- A faulted block is halted (60_exceptions.md rule R203). -/
  fault_halts : s.fault = true → s.halted = true
  /-- While halted the outputs are released and `rc_phase` is Idle (60_exceptions.md rule R205). -/
  halted_inert : s.halted = true → s.pwmEn = false ∧ s.rcPhase = .idle
  /-- `RXQ` never holds more than `RX_FIFO_DEPTH` bytes (10_state.md rule R41). -/
  fifo_bound : s.rxq.length ≤ s.params.rxFifoDepth
  /-- `rc_attempts` is in 0..10, and below 10 while hunting (10_state.md rule R44, 40_rc_decoder.md rules R107, R108). -/
  attempts_bound : s.rcAttempts ≤ 10 ∧ (s.rcPhase = .hunt → s.rcAttempts < 10)
  /-- `rc_count` is in 0..31, and below 31 in the payload phase (10_state.md rule R44, 40_rc_decoder.md rule R109). -/
  count_bound : s.rcCount ≤ 31 ∧ (s.rcPhase = .payload → s.rcCount < 31)
  /-- `-150.0 ≤ INTEG[a] ≤ 150.0` (10_state.md rule R32). -/
  integ_range : ∀ a, fle Config.iLimitNeg (s.integ.get a) = true ∧ fle (s.integ.get a) Config.iLimit = true
  /-- `LASTERR[a]` is always finite (10_state.md rule R32). -/
  lastErr_finite : ∀ a, isFinite (s.lastErr.get a) = true
  /-- The throttle and the raw commands of the last MIX are finite (42_mixer_duty.md rule R160). -/
  mix_finite : isFinite s.mixThr = true ∧ ∀ m, isFinite (s.mraw.get m) = true
  /-- `CH[i]` for i > `NUM_CHANNELS` keeps its reset value 0 for ever (10_state.md rule R29). -/
  channels_above : ∀ c : Channel, s.params.numChannels < c.number → s.ch[c] = 0
  /-- The period phase lies inside a period (10_state.md rule R45; below the period: assumption 8). -/
  phase_bound : s.pwmPhase < s.params.pwmPeriodNs

/-- `k` steps of the machine, by the host's own runner. -/
def sys2Run (k : Nat) (s : State) : Result := Host.Core.run Sys2Proof.core k s

/-- An access the host makes to the block. -/
def Event.isHostAccess : Event → Bool
  | .hostRead _ _ | .hostWrite _ _ _ => true
  | .rxPush _ | .rcStep | .pwmPeriodStart | .pwmElapse _ | .reset => false

/-- A host access whose address lies outside the window (20_memory.md rule R60). -/
def Event.isOutside (p : Params) : Event → Bool
  | .hostRead _ addr | .hostWrite _ addr _ => (windowOffset p addr).isNone
  | .rxPush _ | .rcStep | .pwmPeriodStart | .pwmElapse _ | .reset => false

/-- The run has ended: the host has performed its last access and `STATUS.BUSY` = 0 (70_reset_and_hazards.md rule
R250). -/
def State.runEnded (s : State) : Bool := !s.pending.any Event.isHostAccess && !s.busy

/-- A good final state (70_reset_and_hazards.md rule R250): the run has ended with `STATUS.FAULT` = 0. The rule says that a
final state is good only if `FAULT` = 0; that this suffices, so that a final state reached by SHUTDOWN (`HALTED` = 1,
`FAULT` = 0) counts as good, is a DESIGN CHOICE (assumption 19). -/
def State.goodFinal (s : State) : Bool := s.runEnded && !s.fault

/-- The words of the opcode map, read off its match and mask columns and the field-value conditions (30_encoding.md
rules R85, R86), with no use of the decoder. -/
def LegalWord (numChannels : Nat) (w : Word) : Prop :=
  w ∈ [0x00000000, 0x00000001, 0x00000002, 0x00000020, 0x00000021, 0x00000022, 0x00000030, 0x00000031, 0x00000032] ∨
  (w &&& 0xFFFFE0FF = 0x00000003 ∧ 1 ≤ w.toNat / 2 ^ 8 % 16 ∧ w.toNat / 2 ^ 8 % 16 ≤ numChannels) ∨
  (w &&& 0xFFFFFCFF = 0x00000010 ∧ w.toNat / 2 ^ 8 % 4 ≠ 3) ∨
  w &&& 0xFFFFFCFF = 0x00000011

/-- The reserved word offsets, as 20_memory.md rule R64 lists them. -/
def ReservedOffset (off : Nat) : Prop :=
  off % 4 = 0 ∧
  (off = 0x008 ∨ off = 0x00C ∨ (0x028 ≤ off ∧ off ≤ 0x03C) ∨ off = 0x07C ∨ off = 0x08C ∨ off = 0x09C ∨ off = 0x0AC ∨
    off = 0x0BC ∨ off = 0x0CC ∨ off = 0x0DC ∨ off = 0x0EC ∨ off = 0x0FC ∨ (0x120 ≤ off ∧ off ≤ 0x1FC))

/-- The values reset gives (70_reset_and_hazards.md rule R230, the Reset column of 10_state.md rule R22), `rc_buf` left
out because rule R232 leaves it unspecified. -/
structure ResetValues (t : State) : Prop where
  status : t.status = 0x00000000
  cmd : t.cmd = 0
  args : t.arg0 = 0 ∧ t.arg1 = 0 ∧ t.arg2 = 0 ∧ t.arg3 = 0 ∧ t.arg4 = 0
  res0 : t.res0 = 0
  rcStatus : t.ch0 = 0
  channels : ∀ c : Channel, t.ch[c] = 0
  gains : ∀ a, t.kp.get a = 0 ∧ t.ki.get a = 0 ∧ t.kd.get a = 0
  pidState : ∀ a, t.integ.get a = 0 ∧ t.lastErr.get a = 0 ∧ t.pidOut.get a = 0
  throttle : t.idleThr = 0 ∧ t.govThr = 0 ∧ t.mixThr = 0
  dutyConfig : t.deadzone = 0x3CF5C28F ∧ t.dutyFloor = 1000000 ∧ t.dutyCeil = 2000000
  motors : ∀ m, t.mraw.get m = 0 ∧ t.motor.get m = 1000000
  fifo : t.rxq = []
  engine : t.rcPhase = .idle ∧ t.rcAttempts = 0 ∧ t.rcCount = 0
  generator : (∀ m, t.activeDuty.get m = 1000000) ∧ t.pwmPhase = 0
  outputs : ∀ m, t.pwmOut m = false

/-- The hidden state that no register of the window shows whole: `RXQ`, the RC engine, the PWM generator (10_state.md
rules R41 to R45). -/
def SameHidden (s t : State) : Prop :=
  t.rxq = s.rxq ∧ t.rcPhase = s.rcPhase ∧ t.rcAttempts = s.rcAttempts ∧ t.rcBuf = s.rcBuf ∧ t.rcCount = s.rcCount ∧
  t.activeDuty = s.activeDuty ∧ t.pwmPhase = s.pwmPhase

/-- `r` is a binary32 value nearest the rational `num / den` (in units of 2^-149), and the one with an even significand
where another value is equally near (00_scope.md rule R11: roundTiesToEven). -/
def IsNearestEven (num : Int) (den : Nat) (r : Word) : Prop :=
  ∀ c : Word, isFinite c = true →
    (exactUnits r * den - num).natAbs ≤ (exactUnits c * den - num).natAbs ∧
    ((exactUnits r * den - num).natAbs = (exactUnits c * den - num).natAbs →
      exactUnits c = exactUnits r ∨ magBits r % 2 = 0)

/-- `r` is the binary32 rounding of `num / den` (in units of 2^-149): nearest, ties to even, where the rounded magnitude
stays below 2^128, and the infinity of the sign of `num` from the midpoint 2^128 − 2^103 on (IEEE 754). -/
def RoundsTo (num : Int) (den : Nat) (r : Word) : Prop :=
  (isFinite r = true ↔ num.natAbs < den * (2 ^ 277 - 2 ^ 252)) ∧
  (isFinite r = true → IsNearestEven num den r) ∧
  (isFinite r = false → isInf r = true ∧ (signBit r = true ↔ num < 0))

/-- The state with other values of the two timing parameters that no rule depends on (70_reset_and_hazards.md rule
R249). -/
def State.withTiming (s : State) (timeout latency : Nat) : State :=
  { s with params := { s.params with rcByteTimeout := timeout, cmdLatency := latency } }

/-- A result with its next state changed. -/
def mapNext (f : State → State) : Result → Result
  | .next s => .next (f s)
  | .fault r => .fault r
  | .refused r => .refused r

/-- Two states that differ at most in bytes of `rc_buf` that the read in progress has not written (10_state.md rule
R44). -/
def SameButUnreadBuf (s t : State) : Prop :=
  { s with rcBuf := t.rcBuf } = t ∧
  (s.rcPhase = .payload → ∀ i : Fin 31, i.val < s.rcCount → s.rcBuf[i] = t.rcBuf[i])

/-- Two results that are alike: next states in relation, or the same stop. -/
def RelatedResults (R : State → State → Prop) : Result → Result → Prop
  | .next s, .next t => R s t
  | .fault a, .fault b => a = b
  | .refused a, .refused b => a = b
  | _, _ => False

/-- A host read the block admits: in the window, 32 bits wide, aligned; of a register or of a reserved offset
(20_memory.md rules R61, R62, R64). -/
def admittedRead (p : Params) (width : Width) (addr : Nat) : Bool :=
  match windowOffset p addr with
  | some off => admitted width off
  | none => false

/-- A host write of a `RW` register that the block admits (20_memory.md rules R61, R63). -/
def admittedStore (p : Params) (width : Width) (addr : Nat) : Bool :=
  match windowOffset p addr with
  | some off => admitted width off && (Reg.ofOffset off).any fun r => r.access == .readWrite
  | none => false

/-- The steps a read in progress may interleave with and go on: every step of the byte source, the engine and the PWM
generator, and what the host may do while `STATUS.BUSY` = 1, admitted reads (its polling) and writes of `RW` registers
(70_reset_and_hazards.md rule R240). Left out are what ends a read early: a `CMD` write, a bad access, reset. -/
def Event.isBackground (p : Params) : Event → Bool
  | .rxPush _ | .rcStep | .pwmPeriodStart | .pwmElapse _ => true
  | .hostRead width addr => admittedRead p width addr
  | .hostWrite width addr _ => admittedStore p width addr
  | .reset => false

/-- The command word the host writes next, if the next event is an admitted write of `CMD`. -/
def State.nextCommand (s : State) : Option Word :=
  match s.pending with
  | .hostWrite .w32 addr w :: _ => if addr = s.params.blockBase then some w else none
  | _ => none

/-- The command the next step issues, if it is a legal word and the block accepts it (30_encoding.md rule R80). -/
def State.nextInstr (s : State) : Option Instr :=
  match s.nextCommand with
  | some w =>
    if s.halted || s.busy then none
    else
      match decode s.params.numChannels w with
      | .ok i => some i
      | .error _ => none
  | none => none

/-- One PID integrator update with a constant increment: the stored integral after PID_UPDATE (41_pid.md rules R130,
R133). -/
def integrate (t2 li : Word) : Word := antiWindup (fadd li t2)

end Sys2Proof.Machine
end

