-- ==== Sys2Proof/Certificates/Slice0/Obligations.lean ====
section
/-! DEFINITION. The statements for the provers, from the numbered rules of the spec. -/

open Sys2Proof Sys2Proof.Machine

/-! ## The command word -/

/-- 30_encoding.md rules R85, R90: words written out from the opcode map and the pseudo-instructions decode to the
commands they stand for. -/
def Obligations.SpecWordsDecode : Prop :=
  decodeTableWord 32 0x00000000 = some .nop ∧ decodeTableWord 32 0x00000001 = some .rcRead ∧
  decodeTableWord 32 0x00000002 = some .norm ∧ decodeTableWord 32 0x00000303 = some (.rcNorm .centred 2) ∧
  decodeTableWord 32 0x00001303 = some (.rcNorm .dial 2) ∧ decodeTableWord 32 0x00001E03 = some (.rcNorm .dial 13) ∧
  decodeTableWord 32 0x00000110 = some (.pidUpdate .pitch) ∧ decodeTableWord 32 0x00000210 = some (.pidUpdate .yaw) ∧
  decodeTableWord 32 0x00000011 = some (.pidReset (.one .roll)) ∧ decodeTableWord 32 0x00000311 = some (.pidReset .all) ∧
  decodeTableWord 32 0x00000020 = some .mix ∧ decodeTableWord 32 0x00000021 = some .duty ∧
  decodeTableWord 32 0x00000022 = some .forceIdle ∧ decodeTableWord 32 0x00000030 = some .pwmEnable ∧
  decodeTableWord 32 0x00000031 = some .pwmRelease ∧ decodeTableWord 32 0x00000032 = some .shutdown

/-- 30_encoding.md rules R81 to R86: the word of every well-formed command decodes to that command, with every field. -/
def Obligations.DecodeOfEncode : Prop :=
  ∀ (n : Nat) (i : Instr), i.wf n = true → decode n (encode i) = .ok i

/-- 30_encoding.md rules R82, R85, R86: a word that decodes is the word of the command it decodes to, bit for bit, and the
command is well-formed; so no two words mean the same command. -/
def Obligations.EncodeOfDecode : Prop :=
  ∀ (n : Nat) (w : Word) (i : Instr), decode n w = .ok i → encode i = w ∧ i.wf n = true

/-- 30_encoding.md rules R80, R87: what a host write of `CMD` does, with legality read off the match and mask columns
of the opcode map and not off the decoder. -/
def Obligations.CommandWriteIssues : Prop :=
  ∀ (s : State) (w : Word) (rest : List Event),
    s.pending = .hostWrite .w32 s.params.blockBase w :: rest →
    (s.halted = true → step s = .next { s with pending := rest }) ∧
    (s.halted = false → s.busy = true →
      step s = .next (faultEntry .busy { s with pending := rest, cmd := w })) ∧
    (s.halted = false → s.busy = false → ¬ LegalWord s.params.numChannels w →
      step s = .next (faultEntry .badCmd { s with pending := rest, cmd := w })) ∧
    (s.halted = false → s.busy = false → LegalWord s.params.numChannels w →
      ∃ i, encode i = w ∧ i.wf s.params.numChannels = true ∧ step s = exec i { s with pending := rest, cmd := w })

/-- 20_memory.md rule R67, 30_encoding.md rule R80: when the host's next access writes to `CMD` a word that decodes to i,
and the block is neither halted nor busy, the step is exec of i on the state that has taken the access off the list and
stored the word in `CMD`. -/
def Obligations.StepRunsDecodedCommand : Prop :=
  ∀ (s : State) (w : Word) (i : Instr) (rest : List Event),
    s.pending = .hostWrite .w32 s.params.blockBase w :: rest → s.halted = false → s.busy = false →
    decode s.params.numChannels w = .ok i →
    step s = exec i { s with pending := rest, cmd := w }

/-! ## Host accesses -/

/-- 10_state.md rule R22: the register map by offset, with the RC status codes of rule R28, the axes of rule R27 and the
motors of rule R39 written out; its column Access, with the `RO` registers as 20_memory.md rule R65 lists them; and the
little-endian byte lanes of every value read (20_memory.md rule R69). -/
def Obligations.RegisterMapByOffset : Prop :=
  (∀ s : State,
    (s.readOffset 0x000 = s.cmd ∧ s.readOffset 0x004 = s.status ∧
      s.readOffset 0x010 = s.arg0 ∧ s.readOffset 0x014 = s.arg1 ∧ s.readOffset 0x018 = s.arg2 ∧
      s.readOffset 0x01C = s.arg3 ∧ s.readOffset 0x020 = s.arg4 ∧ s.readOffset 0x024 = s.res0 ∧
      s.readOffset 0x0E0 = s.idleThr ∧ s.readOffset 0x0E4 = s.govThr ∧ s.readOffset 0x0E8 = s.mixThr ∧
      s.readOffset 0x0F0 = s.deadzone ∧ s.readOffset 0x0F4 = s.dutyFloor ∧ s.readOffset 0x0F8 = s.dutyCeil) ∧
    s.readOffset 0x040 = (if s.rcStatus = .initial then 0 else if s.rcStatus = .new then 1
      else if s.rcStatus = .failed then 2 else 3) ∧
    (∀ c : Channel, (s.readOffset (0x040 + 4 * c.number)).toNat = s.ch[c].toNat) ∧
    ([0x080, 0x084, 0x088].map s.readOffset = [.roll, .pitch, .yaw].map s.kp.get ∧
      [0x090, 0x094, 0x098].map s.readOffset = [.roll, .pitch, .yaw].map s.ki.get ∧
      [0x0A0, 0x0A4, 0x0A8].map s.readOffset = [.roll, .pitch, .yaw].map s.kd.get ∧
      [0x0B0, 0x0B4, 0x0B8].map s.readOffset = [.roll, .pitch, .yaw].map s.integ.get ∧
      [0x0C0, 0x0C4, 0x0C8].map s.readOffset = [.roll, .pitch, .yaw].map s.lastErr.get ∧
      [0x0D0, 0x0D4, 0x0D8].map s.readOffset = [.roll, .pitch, .yaw].map s.pidOut.get) ∧
    ([0x100, 0x104, 0x108, 0x10C].map s.readOffset =
        [s.mraw.frontLeft, s.mraw.frontRight, s.mraw.rearLeft, s.mraw.rearRight] ∧
      [0x110, 0x114, 0x118, 0x11C].map s.readOffset =
        [s.motor.frontLeft, s.motor.frontRight, s.motor.rearLeft, s.motor.rearRight] ∧
      [.frontLeft, .frontRight, .rearLeft, .rearRight].map s.motor.get =
        [s.motor.frontLeft, s.motor.frontRight, s.motor.rearLeft, s.motor.rearRight]) ∧
    (∀ off, (s.readOffset off).toNat =
      ((List.finRange 4).map fun j => (byteLane (s.readOffset off) j).toNat * 2 ^ (8 * j.val)).sum)) ∧
  ∀ r : Reg,
    (r.access = .issue ↔ r.offset = 0x000) ∧
    (r.access = .readOnly ↔
      r.offset = 0x004 ∨ r.offset = 0x024 ∨ (0x040 ≤ r.offset ∧ r.offset ≤ 0x078) ∨
        (0x0B0 ≤ r.offset ∧ r.offset ≤ 0x0C8) ∨ r.offset = 0x0E8 ∨ (0x100 ≤ r.offset ∧ r.offset ≤ 0x11C))

/-- 20_memory.md rule R62: an admitted read, halted or not, returns the current value, the one the register map gives
for the offset, and changes no state. -/
def Obligations.ReadReturnsValueOnly : Prop :=
  ∀ (s : State) (r : Reg) (rest : List Event),
    s.pending = .hostRead .w32 (s.params.blockBase + r.offset) :: rest →
    step s = .next { s with pending := rest, readData := some (s.readReg r) } ∧ s.readReg r = s.readOffset r.offset

/-- 20_memory.md rule R64: the reserved word offsets are the ones listed there, no register's; a 32-bit aligned read of
one returns 0 and does nothing else; a write there while not halted is a bad access. -/
def Obligations.ReservedOffsetAccess : Prop :=
  (∀ off, off < 0x200 → off % 4 = 0 → (ReservedOffset off ↔ ∀ r : Reg, r.offset ≠ off)) ∧
  ∀ (s : State) (off : Nat) (rest : List Event), ReservedOffset off →
    (s.pending = .hostRead .w32 (s.params.blockBase + off) :: rest →
      step s = .next { s with pending := rest, readData := some 0 }) ∧
    (∀ v, s.pending = .hostWrite .w32 (s.params.blockBase + off) v :: rest → s.halted = false →
      step s = .next (faultEntry .badAccess { s with pending := rest }))

/-- 20_memory.md rule R63: a write of a `RW` register stores the value there and has no other effect, and it never
changes what an RC read in progress does. -/
def Obligations.RegisterWriteStores : Prop :=
  ∀ (s : State) (r : Reg) (v : Word) (rest : List Event), r.access = .readWrite → s.halted = false →
    s.pending = .hostWrite .w32 (s.params.blockBase + r.offset) v :: rest →
    ∃ t, step s = .next t ∧ t.pending = rest ∧ t.params = s.params ∧ t.readData = s.readData ∧
      t.readReg r = v ∧ (∀ r', r' ≠ r → t.readReg r' = s.readReg r') ∧ SameHidden s t ∧
      rcEngineStep t = { (rcEngineStep s).writeReg r v with pending := rest }

/-- 20_memory.md rules R61, R65, R66: an access that is not 32 bits wide or not at a multiple of 4, and a write of an
`RO` register or of a reserved offset, is the fault BAD_ACCESS; a bad read returns 0; while halted nothing faults. -/
def Obligations.BadAccessFaults : Prop :=
  ∀ (s : State) (width : Width) (off : Nat) (v : Word) (rest : List Event), off < 0x200 →
    (width ≠ .w32 ∨ off % 4 ≠ 0 →
      (s.pending = .hostRead width (s.params.blockBase + off) :: rest →
        (s.halted = false →
          step s = .next (faultEntry .badAccess { s with pending := rest, readData := some 0 })) ∧
        (s.halted = true → step s = .next { s with pending := rest, readData := some 0 })) ∧
      (s.pending = .hostWrite width (s.params.blockBase + off) v :: rest →
        (s.halted = false → step s = .next (faultEntry .badAccess { s with pending := rest })) ∧
        (s.halted = true → step s = .next { s with pending := rest }))) ∧
    (ReservedOffset off ∨ (∃ r : Reg, r.offset = off ∧ r.access = .readOnly) →
      s.pending = .hostWrite .w32 (s.params.blockBase + off) v :: rest →
      (s.halted = false → step s = .next (faultEntry .badAccess { s with pending := rest })) ∧
      (s.halted = true → step s = .next { s with pending := rest }))

/-- Every step answers a next state, but for a host access outside the window, which is refused by name
(93_implementation_defined.md U17): no command, no fault of the block and no agent stops the model. That the block waits
with nothing pending is the model's form (assumption 4). -/
def Obligations.StepAnswersInsideWindow : Prop :=
  ∀ s : State,
    (∀ e rest, s.pending = e :: rest → e.isOutside s.params = true → step s = .refused .outsideWindow) ∧
    ((∀ e rest, s.pending = e :: rest → e.isOutside s.params = false) → ∃ t, step s = .next t)

/-! ## RC-frame decoder and normaliser -/

/-- 40_rc_decoder.md rule R105: RC_READ at issue starts a hunt: `STATUS.BUSY` = 1, no attempt used, no other effect. -/
def Obligations.RcReadIssue : Prop :=
  encode .rcRead = 0x00000001 ∧
  ∀ s : State, ∃ t, exec .rcRead s = .next t ∧
    t = { s with rcPhase := .hunt, rcAttempts := 0, rcCount := 0 } ∧ t.busy = true

/-- 40_rc_decoder.md rules R107, R108: the hunt step, with a byte and by timeout. A sync byte on any attempt, the tenth
included, starts the payload; a tenth failed attempt finishes Failed. -/
def Obligations.HuntStepEffect : Prop :=
  ∀ (s : State) (rest : List Event), s.pending = .rcStep :: rest → s.rcPhase = .hunt →
    (∀ q, s.rxq = 0x20 :: q →
      step s = .next { s with pending := rest, rxq := q, rcAttempts := s.rcAttempts + 1, rcPhase := .payload,
                              rcCount := 0 }) ∧
    (∀ b q, s.rxq = b :: q → b ≠ 0x20 → s.rcAttempts + 1 ≠ 10 →
      step s = .next { s with pending := rest, rxq := q, rcAttempts := s.rcAttempts + 1 }) ∧
    (∀ b q, s.rxq = b :: q → b ≠ 0x20 → s.rcAttempts + 1 = 10 →
      step s = .next { s with pending := rest, rxq := q, rcAttempts := 10, rcStatus := .failed, rcPhase := .idle }) ∧
    (s.rxq = [] → s.rcAttempts + 1 ≠ 10 →
      step s = .next { s with pending := rest, rcAttempts := s.rcAttempts + 1 }) ∧
    (s.rxq = [] → s.rcAttempts + 1 = 10 →
      step s = .next { s with pending := rest, rcAttempts := 10, rcStatus := .failed, rcPhase := .idle })

/-- 40_rc_decoder.md rules R109, R110, R111: the payload step. A byte is stored and counted, the 31st is validated in
the same step, and a timeout ends the read Failed with the channels unchanged. That `rc_buf` keeps its
bytes when the read ends is the model's choice (assumption 18). -/
def Obligations.PayloadStepEffect : Prop :=
  ∀ (s : State) (rest : List Event), s.pending = .rcStep :: rest → s.rcPhase = .payload →
    (s.rxq = [] → step s = .next { s with pending := rest, rcStatus := .failed, rcPhase := .idle }) ∧
    (∀ b q (h : s.rcCount < 31), s.rxq = b :: q → s.rcCount + 1 ≠ 31 →
      step s = .next { s with pending := rest, rxq := q, rcBuf := s.rcBuf.set s.rcCount b h,
                              rcCount := s.rcCount + 1 }) ∧
    (∀ b q buf, s.rxq = b :: q → s.rcCount = 30 → buf = s.rcBuf.set 30 b →
      (frameValid buf = true →
        step s = .next { s with pending := rest, rxq := q, rcBuf := buf, rcCount := 31,
                                ch := channelsFrom s.params buf s.ch, rcStatus := .new, rcPhase := .idle }) ∧
      (frameValid buf = false →
        step s = .next { s with pending := rest, rxq := q, rcBuf := buf, rcCount := 31,
                                rcStatus := .checksumError, rcPhase := .idle }))

/-- 40_rc_decoder.md rules R102, R103: the checksum rule, its range, the equivalent sum over the sync byte, and that
changing exactly one byte of a valid frame always makes it invalid. -/
def Obligations.ChecksumRule : Prop :=
  ∀ buf : Vector Byte 31, ∃ sum rx : Nat,
    sum = ((List.range 29).map fun i => (buf.toList.getD i 0).toNat).sum ∧
    rx = (buf.toList.getD 29 0).toNat + 256 * (buf.toList.getD 30 0).toNat ∧
    sum ≤ 7395 ∧ 58108 ≤ 0xFFDF - sum ∧ 0xFFDF - sum ≤ 65503 ∧
    (frameValid buf = true ↔ 0xFFDF - sum = rx) ∧
    (frameValid buf = true ↔ 0xFFFF - (0x20 + sum) = rx) ∧
    (rx < 58108 → frameValid buf = false) ∧
    (frameValid buf = true → ∀ (i : Fin 31) (b : Byte), b ≠ buf[i] → frameValid (buf.set i b) = false)

/-- 40_rc_decoder.md rules R101, R110: the channels a valid frame gives: channel i ≤ `NUM_CHANNELS` is
`B[2i−1] + 256 × B[2i]`, the rest keep their value. -/
def Obligations.ChannelExtraction : Prop :=
  ∀ (p : Params) (buf : Vector Byte 31) (old : Vector (BitVec 16) 14) (c : Channel),
    (c.number ≤ p.numChannels →
      ((channelsFrom p buf old)[c]).toNat =
        (buf.toList.getD (2 * c.number - 1) 0).toNat + 256 * (buf.toList.getD (2 * c.number) 0).toNat) ∧
    (p.numChannels < c.number → (channelsFrom p buf old)[c] = old[c])

/-- 40_rc_decoder.md rules R105 to R112: with a frame (the sync byte and 31 bytes) in `RXQ` behind at most nine bytes
that are not the sync byte, RC_READ and the engine steps of those bytes and of the frame take exactly them out of `RXQ`
and end the read: New with the channels extracted when the checksum matches, ChecksumError with the channels unchanged
when it does not; nothing else changes. That `rc_buf` keeps the frame after the read is the model's choice
(assumption 18). -/
def Obligations.FrameIsDecoded : Prop :=
  ∀ (s : State) (skipped : List Byte) (buf : Vector Byte 31) (q : List Byte),
    s.halted = false → s.busy = false → skipped.length ≤ 9 → (∀ b ∈ skipped, b ≠ 0x20) →
    s.rxq = skipped ++ 0x20 :: (buf.toList ++ q) →
    sys2Run (skipped.length + 33)
        { s with pending := .hostWrite .w32 s.params.blockBase 0x00000001 ::
                              List.replicate (skipped.length + 32) .rcStep } =
      .next { s with pending := [], cmd := 0x00000001, rxq := q, rcPhase := .idle, rcAttempts := skipped.length + 1,
                     rcBuf := buf, rcCount := 31,
                     rcStatus := if frameValid buf then .new else .checksumError,
                     ch := if frameValid buf then channelsFrom s.params buf s.ch else s.ch }

/-- 40_rc_decoder.md rule R112: an RC read in progress is over after 41 engine steps at most, however they interleave
with byte pushes, PWM steps, and the accesses the host may make while busy: admitted reads (the polling loop of
70_reset_and_hazards.md rule R250) and writes of `RW` registers (rule R240). -/
def Obligations.RcReadEndsWithin41Steps : Prop :=
  ∀ (s : State) (es : List Event), s.Inv → s.busy = true → (∀ e ∈ es, e.isBackground s.params = true) →
    41 ≤ es.count .rcStep →
    ∃ t, sys2Run es.length { s with pending := es } = .next t ∧ t.busy = false ∧ t.rcStatus ≠ .initial

/-- 10_state.md rule R28: `CH[0]` and the channels change only in an engine step that completes a read (or at reset),
the channels only when it completes New, and `CH[0]` never returns to Initial. -/
def Obligations.ChannelsChangeOnlyOnNew : Prop :=
  ∀ (s t : State) (e : Event) (rest : List Event), s.pending = e :: rest → e ≠ .reset → step s = .next t →
    (t.rcStatus ≠ s.rcStatus ∨ t.ch ≠ s.ch → e = .rcStep ∧ s.busy = true ∧ t.busy = false) ∧
    (t.ch ≠ s.ch → t.rcStatus = .new) ∧
    (t.rcStatus = .initial → s.rcStatus = .initial)

/-- 40_rc_decoder.md rule R113: NORM's result, its faults in their order of priority (60_exceptions.md rule R206), and
that with finite `in_max ≠ in_min` the divisor d is nonzero (gradual underflow, 93_implementation_defined.md G2). -/
def Obligations.NormResult : Prop :=
  encode .norm = 0x00000002 ∧
  ∀ (s : State) (n d q sp r0 r : Word),
    n = fsub s.arg0 s.arg1 → d = fsub s.arg2 s.arg1 → q = fdiv n d → sp = fsub s.arg4 s.arg3 → r0 = fmul q sp →
    r = fadd s.arg3 r0 →
    (allFinite [s.arg0, s.arg1, s.arg2, s.arg3, s.arg4] = true → feq s.arg2 s.arg1 = false →
      allFinite [n, d, q, sp, r0, r] = true → exec .norm s = .next { s with res0 := r }) ∧
    (allFinite [s.arg0, s.arg1, s.arg2, s.arg3, s.arg4] = false →
      exec .norm s = .next (faultEntry .nonfinite s)) ∧
    (allFinite [s.arg0, s.arg1, s.arg2, s.arg3, s.arg4] = true → feq s.arg2 s.arg1 = true →
      exec .norm s = .next (faultEntry .normRange s)) ∧
    (allFinite [s.arg0, s.arg1, s.arg2, s.arg3, s.arg4] = true → feq s.arg2 s.arg1 = false →
      allFinite [n, d, q, sp, r0, r] = false → exec .norm s = .next (faultEntry .nonfinite s)) ∧
    (isFinite s.arg1 = true → isFinite s.arg2 = true → feq s.arg2 s.arg1 = false → isZero d = false)

/-- 40_rc_decoder.md rule R114: RC_NORM's result for both kinds and every channel value; it never faults. -/
def Obligations.RcNormResult : Prop :=
  (∀ (k : MapKind) (c : Channel),
    encode (.rcNorm k c) = BitVec.ofNat 32 (0x00000003 + 2 ^ 8 * c.number + 2 ^ 12 * k.number)) ∧
  ∀ (s : State) (c : Channel) (v r1 r2 : Word), v = u32ToF32 s.ch[c].toNat →
    r1 = fadd 0xC2C80000 (fmul (fdiv (fsub v 0x447A0000) 0x447A0000) (fsub 0x42C80000 0xC2C80000)) →
    r2 = fadd 0x00000000 (fmul (fdiv (fsub v 0x447A0000) 0x447A0000) (fsub 0x42C80000 0x00000000)) →
    exec (.rcNorm .centred c) s = .next { s with res0 := r1 } ∧
    exec (.rcNorm .dial c) s = .next { s with res0 := r2 }

/-- 40_rc_decoder.md rule R114, exceptions: for every channel value 0..65535 and both kinds every intermediate is finite,
and the conversion of the channel value is exact. -/
def Obligations.RcNormIntermediatesFinite : Prop :=
  ∀ (raw : BitVec 16) (lo v a b c : Word), lo = 0xC2C80000 ∨ lo = 0x00000000 →
    v = u32ToF32 raw.toNat → a = fsub v 0x447A0000 → b = fdiv a 0x447A0000 → c = fmul b (fsub 0x42C80000 lo) →
    exactUnits v = raw.toNat * 2 ^ 149 ∧ allFinite [v, a, b, c, fadd lo c] = true

/-- 40_rc_decoder.md rule R115: the source's normalisation tests, and the three grid values of each RC_NORM kind, each
exactly. -/
def Obligations.NormalisationTests : Prop :=
  (normWork 0x44BB8000 0x447A0000 0x44FA0000 0xBF800000 0x3F800000).r = 0x00000000 ∧
  (normWork 0x447A0000 0x447A0000 0x44FA0000 0xBF800000 0x3F800000).r = 0xBF800000 ∧
  (normWork 0x44FA0000 0x447A0000 0x44FA0000 0xBF800000 0x3F800000).r = 0x3F800000 ∧
  rcNormValue .centred 1000 = 0xC2C80000 ∧ rcNormValue .centred 1500 = 0x00000000 ∧
  rcNormValue .centred 2000 = 0x42C80000 ∧ rcNormValue .dial 1000 = 0x00000000 ∧
  rcNormValue .dial 1500 = 0x42480000 ∧ rcNormValue .dial 2000 = 0x42C80000

/-! ## PID controller -/

/-- 41_pid.md rule R130: PID_UPDATE's results, and its faults in their order of priority. -/
def Obligations.PidUpdateResult : Prop :=
  (∀ a : Axis, encode (.pidUpdate a) = BitVec.ofNat 32 (0x00000010 + 2 ^ 8 * a.number)) ∧
  ∀ (s : State) (a : Axis) (p t1 t2 iRaw de t3 d i sp out : Word),
    p = fmul s.arg0 (s.kp.get a) → t1 = fmul s.arg0 (s.ki.get a) → t2 = fmul t1 s.arg1 →
    iRaw = fadd (s.integ.get a) t2 → de = fsub s.arg0 (s.lastErr.get a) → t3 = fmul (s.kd.get a) de →
    d = fdiv t3 s.arg1 → i = fclamp iRaw 0xC3160000 0x43160000 → sp = fadd p i → out = fadd sp d →
    (allFinite [s.arg0, s.arg1, s.kp.get a, s.ki.get a, s.kd.get a] = true → flt 0x00000000 s.arg1 = true →
      allFinite [p, t1, t2, iRaw, de, t3, d] = true → allFinite [sp, out] = true →
      exec (.pidUpdate a) s =
        .next { s with integ := s.integ.set a i, lastErr := s.lastErr.set a s.arg0, pidOut := s.pidOut.set a out,
                       res0 := out }) ∧
    (allFinite [s.arg0, s.arg1, s.kp.get a, s.ki.get a, s.kd.get a] = false →
      exec (.pidUpdate a) s = .next (faultEntry .nonfinite s)) ∧
    (allFinite [s.arg0, s.arg1, s.kp.get a, s.ki.get a, s.kd.get a] = true → flt 0x00000000 s.arg1 = false →
      exec (.pidUpdate a) s = .next (faultEntry .dtRange s)) ∧
    (allFinite [s.arg0, s.arg1, s.kp.get a, s.ki.get a, s.kd.get a] = true → flt 0x00000000 s.arg1 = true →
      allFinite [p, t1, t2, iRaw, de, t3, d, sp, out] = false →
      exec (.pidUpdate a) s = .next (faultEntry .nonfinite s))

/-- 41_pid.md rule R132: a PID_UPDATE of axis a that completes writes only the registers of axis a and `RES0`, and what
it writes depends only on the registers of axis a, `ARG0` and `ARG1`. -/
def Obligations.PidAxisIndependence : Prop :=
  ∀ (s : State) (a : Axis) (t : State), exec (.pidUpdate a) s = .next t → t.fault = false →
    (∃ i e out, t = { s with integ := s.integ.set a i, lastErr := s.lastErr.set a e, pidOut := s.pidOut.set a out,
                             res0 := out }) ∧
    (∀ b, b ≠ a → t.integ.get b = s.integ.get b ∧ t.lastErr.get b = s.lastErr.get b ∧ t.pidOut.get b = s.pidOut.get b) ∧
    ∀ s', s'.arg0 = s.arg0 → s'.arg1 = s.arg1 → s'.kp.get a = s.kp.get a → s'.ki.get a = s.ki.get a →
      s'.kd.get a = s.kd.get a → s'.integ.get a = s.integ.get a → s'.lastErr.get a = s.lastErr.get a →
      ∃ t', exec (.pidUpdate a) s' = .next t' ∧ t'.integ.get a = t.integ.get a ∧
        t'.lastErr.get a = t.lastErr.get a ∧ t'.pidOut.get a = t.pidOut.get a ∧ t'.res0 = t.res0

/-- 41_pid.md rule R131: after a PID_UPDATE that completes the stored integral lies within ±150.0 and `LASTERR[a]` is e
bit for bit; with `ki` = ±0 an integral within the limits keeps its value; with `kd` = ±0, or with e = `LASTERR[a]`, the
derivative adds nothing to P + I. -/
def Obligations.PidCornerCases : Prop :=
  ∀ (s t : State) (a : Axis), exec (.pidUpdate a) s = .next t → t.fault = false →
    (fle 0xC3160000 (t.integ.get a) = true ∧ fle (t.integ.get a) 0x43160000 = true ∧ t.lastErr.get a = s.arg0) ∧
    (isZero (s.ki.get a) = true → fle 0xC3160000 (s.integ.get a) = true → fle (s.integ.get a) 0x43160000 = true →
      feq (t.integ.get a) (s.integ.get a) = true) ∧
    (isZero (s.kd.get a) = true ∨ feq s.arg0 (s.lastErr.get a) = true →
      feq (t.pidOut.get a) (fadd (fmul s.arg0 (s.kp.get a)) (t.integ.get a)) = true)

/-- 41_pid.md rule R133, first half: for a positive increment one update never lowers a finite integral within the limits
and never takes it above 150.0; for a negative increment, symmetrically. -/
def Obligations.IntegralNeverExceeds : Prop :=
  ∀ t2 li : Word, isFinite t2 = true → fle 0xC3160000 li = true → fle li 0x43160000 = true →
    (flt 0x00000000 t2 = true → fle li (integrate t2 li) = true ∧ fle (integrate t2 li) 0x43160000 = true) ∧
    (flt t2 0x00000000 = true → fle (integrate t2 li) li = true ∧ fle 0xC3160000 (integrate t2 li) = true)

/-- 41_pid.md rule R133, second half: a constant increment above 2^-17 (0x37000000) takes the integral to exactly 150.0
after finitely many updates, where it stays; below −2^-17, to −150.0. -/
def Obligations.IntegralSaturates : Prop :=
  ∀ t2 li : Word, isFinite t2 = true → fle 0xC3160000 li = true → fle li 0x43160000 = true →
    (flt 0x37000000 t2 = true → ∃ n, ∀ k, n ≤ k → (integrate t2)^[k] li = 0x43160000) ∧
    (flt t2 0xB7000000 = true → ∃ n, ∀ k, n ≤ k → (integrate t2)^[k] li = 0xC3160000)

/-- 41_pid.md rule R135: PID_RESET stores +0.0 in the integral and the last error of one axis, or of all, and changes
nothing else. -/
def Obligations.PidResetEffect : Prop :=
  (encode (.pidReset .all) = 0x00000311 ∧ ∀ a, encode (.pidReset (.one a)) = BitVec.ofNat 32 (0x11 + 256 * a.number)) ∧
  ∀ s : State,
    (∀ a : Axis, exec (.pidReset (.one a)) s =
      .next { s with integ := s.integ.set a 0x00000000, lastErr := s.lastErr.set a 0x00000000 }) ∧
    exec (.pidReset .all) s =
      .next { s with integ := ⟨0x00000000, 0x00000000, 0x00000000⟩, lastErr := ⟨0x00000000, 0x00000000, 0x00000000⟩ }

/-- 41_pid.md rule R136: after `pid.reset all`, a PID_UPDATE that completes gives I = clamp(0 + e·ki·dt) and D = kd·e/dt,
as the first update after reset does. -/
def Obligations.UpdateAfterPidReset : Prop :=
  ∀ (s t u : State) (a : Axis), exec (.pidReset .all) s = .next t → exec (.pidUpdate a) t = .next u → u.fault = false →
    u.integ.get a = fclamp (fadd 0x00000000 (fmul (fmul s.arg0 (s.ki.get a)) s.arg1)) 0xC3160000 0x43160000 ∧
    u.pidOut.get a =
      fadd (fadd (fmul s.arg0 (s.kp.get a)) (u.integ.get a)) (fdiv (fmul (s.kd.get a) s.arg0) s.arg1)

/-! ## Mixer and duty shaper -/

/-- 42_mixer_duty.md rule R151: a duty configuration is legal exactly when `DEADZONE` is finite with 0 ≤ z < 0.5 (as
exact values, in units of 2^-149, −0.0 counting as 0) and `DUTY_FLOOR` ≤ `DUTY_CEIL` ≤ 2^24; DUTY and MIX raise
DUTY_CFG otherwise, whatever their operands. The reset configuration is legal. -/
def Obligations.DutyConfigurationLegality : Prop :=
  legalDutyCfg 0x3CF5C28F 1000000 2000000 = true ∧
  ∀ s : State,
    (s.legalDuty = true ↔
      isFinite s.deadzone = true ∧ 0 ≤ exactUnits s.deadzone ∧ exactUnits s.deadzone < 2 ^ 148 ∧
        s.dutyFloor.toNat ≤ s.dutyCeil.toNat ∧ s.dutyCeil.toNat ≤ 2 ^ 24) ∧
    (s.legalDuty = false →
      exec .duty s = .next (faultEntry .dutyCfg s) ∧ exec .mix s = .next (faultEntry .dutyCfg s))

/-- 42_mixer_duty.md rules R150, R158: DUTY's result and its faults, with `Shape` written out. -/
def Obligations.DutyResult : Prop :=
  encode .duty = 0x00000021 ∧
  ∀ (s : State) (num den q p flf cef d : Word), s.legalDuty = true →
    num = fsub s.arg0 s.deadzone → den = fsub 0x3F800000 (fmul 0x40000000 s.deadzone) → q = fdiv num den →
    p = fclamp q 0x00000000 0x3F800000 → flf = u32ToF32 s.dutyFloor.toNat → cef = u32ToF32 s.dutyCeil.toNat →
    d = fclamp (fadd flf (fmul (u32ToF32 (s.dutyCeil.toNat - s.dutyFloor.toNat)) p)) flf cef →
    (allFinite [s.arg0, num, q] = true → exec .duty s = .next { s with res0 := f32ToU32Trunc d }) ∧
    (allFinite [s.arg0, num, q] = false → exec .duty s = .next (faultEntry .nonfinite s)) ∧
    (∀ u : State, u.legalDuty = false → exec .duty u = .next (faultEntry .dutyCfg u))

/-- 42_mixer_duty.md rule R152: for a legal configuration every duty `Shape` gives is in
[`DUTY_FLOOR`, `DUTY_CEIL`]. -/
def Obligations.ShapeWithinBounds : Prop :=
  ∀ z fl ce t d : Word, legalDutyCfg z fl ce = true → isFinite t = true → shape z fl ce t = some d →
    fl.toNat ≤ d.toNat ∧ d.toNat ≤ ce.toNat

/-- 42_mixer_duty.md rule R152: for a legal configuration `Shape` is non-decreasing in t. -/
def Obligations.ShapeMonotone : Prop :=
  ∀ z fl ce t u d e : Word, legalDutyCfg z fl ce = true → isFinite t = true → isFinite u = true → fle t u = true →
    shape z fl ce t = some d → shape z fl ce u = some e → d.toNat ≤ e.toNat

/-- 42_mixer_duty.md rule R152: t ≤ z gives exactly `DUTY_FLOOR`, and t ≥ 1.0 exactly `DUTY_CEIL`. -/
def Obligations.ShapeDeadZones : Prop :=
  ∀ z fl ce t d : Word, legalDutyCfg z fl ce = true → isFinite t = true → shape z fl ce t = some d →
    (fle t z = true → d = fl) ∧ (fle 0x3F800000 t = true → d = ce)

/-- 42_mixer_duty.md rules R155, R156, R160: MIX's results, with the throttle formula, the sign table and the order of
the roundings written out, and its NONFINITE faults. -/
def Obligations.MixResult : Prop :=
  encode .mix = 0x00000020 ∧
  ∀ (s : State) (roll pitch yaw g h thr a b ar am br bm mFL mFR mRL mRR : Word), s.legalDuty = true →
    roll = s.pidOut.get .roll → pitch = s.pidOut.get .pitch → yaw = s.pidOut.get .yaw →
    g = fsub s.govThr s.idleThr → h = fmul g s.arg0 → thr = fadd s.idleThr h →
    a = fadd thr pitch → b = fsub thr pitch →
    ar = fadd a roll → am = fsub a roll → br = fadd b roll → bm = fsub b roll →
    mFL = fsub ar yaw → mFR = fadd am yaw → mRL = fadd br yaw → mRR = fsub bm yaw →
    (∀ dFL dFR dRL dRR,
      allFinite [s.arg0, s.idleThr, s.govThr, roll, pitch, yaw] = true →
      allFinite [g, h, thr, a, b, ar, am, br, bm, mFL, mFR, mRL, mRR] = true →
      s.shape mFL = some dFL → s.shape mFR = some dFR → s.shape mRL = some dRL → s.shape mRR = some dRR →
      exec .mix s = .next { s with mixThr := thr, mraw := ⟨mFL, mFR, mRL, mRR⟩, motor := ⟨dFL, dFR, dRL, dRR⟩ }) ∧
    (allFinite [s.arg0, s.idleThr, s.govThr, roll, pitch, yaw] = false ∨
      allFinite [g, h, thr, a, b, ar, am, br, bm, mFL, mFR, mRL, mRR] = false ∨
      s.shape mFL = none ∨ s.shape mFR = none ∨ s.shape mRL = none ∨ s.shape mRR = none →
      exec .mix s = .next (faultEntry .nonfinite s))

/-- 42_mixer_duty.md rule R161: a MIX that completes leaves every `MOTOR` in [`DUTY_FLOOR`, `DUTY_CEIL`], and with all
three corrections zero the four raw commands equal the throttle and the four duties are equal. -/
def Obligations.MixMotorProperties : Prop :=
  ∀ s t : State, exec .mix s = .next t → t.fault = false →
    (∀ m, s.dutyFloor.toNat ≤ (t.motor.get m).toNat ∧ (t.motor.get m).toNat ≤ s.dutyCeil.toNat) ∧
    ((∀ a, isZero (s.pidOut.get a) = true) →
      (∀ m, feq (t.mraw.get m) t.mixThr = true) ∧ ∀ m m', t.motor.get m = t.motor.get m')

/-- 42_mixer_duty.md rule R163: FORCE_IDLE stores `DUTY_FLOOR` in every `MOTOR`, legal configuration or not, and changes
nothing else. -/
def Obligations.ForceIdleEffect : Prop :=
  encode .forceIdle = 0x00000022 ∧
  ∀ s : State, exec .forceIdle s =
    .next { s with motor := ⟨s.dutyFloor, s.dutyFloor, s.dutyFloor, s.dutyFloor⟩ }

/-- 42_mixer_duty.md rule R164: for every legal configuration FORCE_IDLE gives the `MOTOR` values of `Shape(0.0)`, and of
a MIX that shapes four raw commands ≤ z. -/
def Obligations.ForceIdleMatchesShape : Prop :=
  ∀ s u : State, s.legalDuty = true → exec .forceIdle s = .next u →
    (∀ m, s.shape 0x00000000 = some (u.motor.get m)) ∧
    (∀ t, exec .mix s = .next t → t.fault = false → (∀ m, fle (t.mraw.get m) s.deadzone = true) → t.motor = u.motor)

/-! ## PWM generator and system commands -/

/-- 43_pwm_system.md rules R180 to R183: NOP has no effect beyond its issue; PWM_ENABLE from released drives the outputs
and starts a period now, and already enabled changes nothing; PWM_RELEASE clears `STATUS.PWM_EN` alone; SHUTDOWN forces
the zero-throttle duty, releases and halts in one step, `FAULT` and `FAULT_CODE` left. After the last two every output
is low at once. -/
def Obligations.SystemCommandEffects : Prop :=
  (encode .nop = 0x00000000 ∧ encode .pwmEnable = 0x00000030 ∧ encode .pwmRelease = 0x00000031 ∧
    encode .shutdown = 0x00000032) ∧
  ∀ s : State,
    exec .nop s = .next s ∧
    (s.pwmEn = false → exec .pwmEnable s = .next { s with pwmEn := true, activeDuty := s.motor, pwmPhase := 0 }) ∧
    (s.pwmEn = true → exec .pwmEnable s = .next s) ∧
    (∃ t, exec .pwmRelease s = .next t ∧ t = { s with pwmEn := false } ∧ ∀ m, t.pwmOut m = false) ∧
    (∃ t, exec .shutdown s = .next t ∧ (∀ m, t.pwmOut m = false) ∧
      t = { s with motor := ⟨s.dutyFloor, s.dutyFloor, s.dutyFloor, s.dutyFloor⟩, pwmEn := false, halted := true })

/-- 43_pwm_system.md rules R186, R189: a period start, enabled only while `STATUS.PWM_EN` = 1, latches all four
`ACTIVE_DUTY` from `MOTOR` in one step. -/
def Obligations.PeriodStartLatches : Prop :=
  ∀ (s : State) (rest : List Event), s.pending = .pwmPeriodStart :: rest →
    (s.pwmEn = true → step s = .next { s with pending := rest, activeDuty := s.motor, pwmPhase := 0 }) ∧
    (s.pwmEn = false → step s = .next { s with pending := rest })

/-- 43_pwm_system.md rules R185, R187: in a period, ns nanoseconds after its start, `PWM_OUT[m]` is high exactly while
ns is below min(`ACTIVE_DUTY[m]`, `PWM_PERIOD_NS`), where `ACTIVE_DUTY[m]` is the `MOTOR[m]` at the start; and at the
period's end the next one starts (rule R186). That time passes by `pwmElapse` and that the phase is 0, not
`PWM_PERIOD_NS`, at a period's end is the model's encoding of time (assumption 8). -/
def Obligations.PwmWaveform : Prop :=
  ∀ (s : State) (ns : Nat), s.pwmEn = true →
    (ns < s.params.pwmPeriodNs →
      ∃ t, sys2Run 2 { s with pending := [.pwmPeriodStart, .pwmElapse ns] } = .next t ∧
        ∀ m, t.pwmOut m = decide (ns < min (s.motor.get m).toNat s.params.pwmPeriodNs)) ∧
    (s.pwmPhase + ns = s.params.pwmPeriodNs →
      ∃ t, sys2Run 1 { s with pending := [.pwmElapse ns] } = .next t ∧ t.activeDuty = s.motor ∧ t.pwmPhase = 0)

/-- 43_pwm_system.md rule R188: while `STATUS.PWM_EN` = 0 every output is low and no period starts, and every step that
raises a fault or issues SHUTDOWN or PWM_RELEASE takes every output low at once. That elapsed time changes nothing
while released (the phase stands still) is the model's choice (assumption 8). -/
def Obligations.ReleasedOutputsLow : Prop :=
  (∀ (s : State) (m : Motor), s.pwmEn = false → s.pwmOut m = false) ∧
  (∀ (s : State) (rest : List Event) (ns : Nat), s.pwmEn = false →
    (s.pending = .pwmPeriodStart :: rest ∨ s.pending = .pwmElapse ns :: rest) →
    step s = .next { s with pending := rest }) ∧
  (∀ (s t : State) (m : Motor), step s = .next t →
    (s.fault = false ∧ t.fault = true) ∨ s.nextInstr = some .shutdown ∨ s.nextInstr = some .pwmRelease →
    t.pwmOut m = false)

/-- 43_pwm_system.md rule R190: the generator's steps never stop, write only `ACTIVE_DUTY` and the phase, and what they
latch depends on no register but `MOTOR` and `STATUS.PWM_EN`. -/
def Obligations.PwmGeneratorFrame : Prop :=
  ∀ (s : State) (e : Event) (rest : List Event), s.pending = e :: rest →
    (e = .pwmPeriodStart ∨ ∃ ns, e = .pwmElapse ns) →
    ∃ t, step s = .next t ∧
      t = { s with pending := rest, activeDuty := t.activeDuty, pwmPhase := t.pwmPhase } ∧
      ∀ s', s'.pending = s.pending → s'.params = s.params → s'.pwmEn = s.pwmEn → s'.motor = s.motor →
        s'.activeDuty = s.activeDuty → s'.pwmPhase = s.pwmPhase →
        ∃ t', step s' = .next t' ∧ t'.activeDuty = t.activeDuty ∧ t'.pwmPhase = t.pwmPhase

/-! ## The receive FIFO and the status register -/

/-- 20_memory.md rule R71: a push, enabled at any time, appends the byte, or drops it and sets `RX_OVR` when the FIFO
is full. -/
def Obligations.RxPushEffect : Prop :=
  ∀ (s : State) (b : Byte) (rest : List Event), s.pending = .rxPush b :: rest →
    (s.rxq.length < s.params.rxFifoDepth → step s = .next { s with pending := rest, rxq := s.rxq ++ [b] }) ∧
    (s.params.rxFifoDepth ≤ s.rxq.length → step s = .next { s with pending := rest, rxOvr := true })

/-- 10_state.md rules R26, R43, R44, 60_exceptions.md rule R200: the fields of the `STATUS` register, bit by bit,
with the fault codes of rule R200 written out. -/
def Obligations.StatusFields : Prop :=
  ∀ s : State, s.rcAttempts ≤ 10 →
    field s.status 0 0 = (if s.rcPhase = .idle then 0 else 1) ∧ field s.status 1 1 = s.fault.toNat ∧
    field s.status 2 2 = s.halted.toNat ∧ field s.status 3 3 = s.pwmEn.toNat ∧ field s.status 4 4 = s.rxOvr.toNat ∧
    field s.status 7 5 = 0 ∧
    field s.status 15 8 =
      (if s.faultCode = .none then 0x00 else if s.faultCode = .nonfinite then 0x01
        else if s.faultCode = .dtRange then 0x02 else if s.faultCode = .normRange then 0x03
        else if s.faultCode = .dutyCfg then 0x04 else if s.faultCode = .badCmd then 0x05
        else if s.faultCode = .busy then 0x06 else 0x07) ∧
    field s.status 23 16 = min s.rxq.length 255 ∧ field s.status 27 24 = s.rcAttempts ∧ field s.status 31 28 = 0

/-! ## Faults, halting and reset -/

/-- 60_exceptions.md rule R203: fault entry, with the code stored in `STATUS.FAULT_CODE`; `CH[0..14]`, the attempts
and everything else stay. -/
def Obligations.FaultEntryEffect : Prop :=
  ∀ (s : State) (c : FaultCode),
    faultEntry c s =
      { s with fault := true, faultCode := c, motor := ⟨s.dutyFloor, s.dutyFloor, s.dutyFloor, s.dutyFloor⟩,
               pwmEn := false, halted := true, rcPhase := .idle } ∧
    (faultEntry c s).busy = false

/-- 60_exceptions.md rule R202: the state after a step that raises a fault is the state before it, changed only by the
event being taken, by `CMD` <- the word of the command, by the 0 a bad read gives back, and by fault entry. -/
def Obligations.FaultsArePrecise : Prop :=
  ∀ (s t : State) (e : Event) (rest : List Event), s.pending = e :: rest → step s = .next t → s.fault = false →
    t.fault = true →
    ∃ (c : FaultCode) (u : State), c ≠ .none ∧ t = faultEntry c u ∧
      ((∃ w, s.nextCommand = some w ∧ u = { s with pending := rest, cmd := w }) ∨
        (c = .badAccess ∧ (∃ width addr, e = .hostRead width addr) ∧
          u = { s with pending := rest, readData := some 0 }) ∨
        (c = .badAccess ∧ (∃ width addr v, e = .hostWrite width addr v) ∧ u = { s with pending := rest }))

/-- 60_exceptions.md rule R200, column "Raised by": which commands raise which fault once issued; the other commands
raise none. -/
def Obligations.FaultCauses : Prop :=
  ∀ (i : Instr) (s t : State), exec i s = .next t → s.fault = false → t.fault = true →
    (t.faultCode = .nonfinite ∧ (i = .norm ∨ i = .duty ∨ i = .mix ∨ ∃ a, i = .pidUpdate a)) ∨
    (t.faultCode = .dtRange ∧ ∃ a, i = .pidUpdate a) ∨
    (t.faultCode = .normRange ∧ i = .norm) ∨
    (t.faultCode = .dutyCfg ∧ (i = .duty ∨ i = .mix))

/-- 60_exceptions.md rules R204, R205, 20_memory.md rule R68: once halted, nothing but the reset input changes anything
but the receive FIFO and the value the bus gives back for a read, and a host write to any offset, of any width, is
ignored with no fault; halting comes only from a fault or SHUTDOWN. That the period phase stands still while halted is
the model's choice (assumption 8). -/
def Obligations.HaltedIsSticky : Prop :=
  (∀ (s t : State) (e : Event) (rest : List Event), s.Inv → s.pending = e :: rest → e ≠ .reset → step s = .next t →
    (s.halted = true →
      t = { s with pending := rest, readData := t.readData, rxq := t.rxq, rxOvr := t.rxOvr }) ∧
    (s.halted = false → t.halted = true → t.fault = true ∨ s.nextInstr = some .shutdown)) ∧
  (∀ (s : State) (width : Width) (off : Nat) (v : Word) (rest : List Event), off < 0x200 → s.halted = true →
    s.pending = .hostWrite width (s.params.blockBase + off) v :: rest →
    step s = .next { s with pending := rest })

/-- Which steps write which registers (10_state.md rules R23, R24, R25, R31, R32, R39): `CMD`, `RES0`, the PID state and
`MOTOR` change only by the writers those rules name, and a step that is no host write leaves the operand, gain and
configuration registers alone. -/
def Obligations.RegisterWriters : Prop :=
  ∀ (s t : State) (e : Event) (rest : List Event), s.pending = e :: rest → e ≠ .reset → step s = .next t →
    (t.cmd ≠ s.cmd → s.halted = false ∧ s.nextCommand = some t.cmd) ∧
    (t.res0 ≠ s.res0 →
      s.nextInstr = some .norm ∨ (∃ k c, s.nextInstr = some (.rcNorm k c)) ∨ (∃ a, s.nextInstr = some (.pidUpdate a)) ∨
        s.nextInstr = some .duty) ∧
    (t.integ ≠ s.integ ∨ t.lastErr ≠ s.lastErr →
      (∃ a, s.nextInstr = some (.pidUpdate a)) ∨ ∃ sel, s.nextInstr = some (.pidReset sel)) ∧
    (t.mraw ≠ s.mraw ∨ t.mixThr ≠ s.mixThr → s.nextInstr = some .mix) ∧
    (t.motor ≠ s.motor →
      s.nextInstr = some .mix ∨
        (t.motor = ⟨s.dutyFloor, s.dutyFloor, s.dutyFloor, s.dutyFloor⟩ ∧
          (s.nextInstr = some .forceIdle ∨ s.nextInstr = some .shutdown ∨ (t.fault = true ∧ t.halted = true)))) ∧
    ((∀ width addr v, e ≠ .hostWrite width addr v) →
      t.arg0 = s.arg0 ∧ t.arg1 = s.arg1 ∧ t.arg2 = s.arg2 ∧ t.arg3 = s.arg3 ∧ t.arg4 = s.arg4 ∧ t.kp = s.kp ∧
        t.ki = s.ki ∧ t.kd = s.kd ∧ t.pidOut = s.pidOut ∧ t.idleThr = s.idleThr ∧ t.govThr = s.govThr ∧
        t.deadzone = s.deadzone ∧ t.dutyFloor = s.dutyFloor ∧ t.dutyCeil = s.dutyCeil)

/-- 70_reset_and_hazards.md rule R230: from any state the reset input gives every register its reset value, empties
`RXQ`, and puts the RC engine and the PWM generator at rest; the parameters stay (10_state.md rule R47). Nothing else
clears `HALTED`, `FAULT`, `FAULT_CODE` or `RX_OVR`. The state right after reset holds the same values for every choice of the parameters; the reference parameters `State.reset`
itself carries are the model's choice (assumption 2). -/
def Obligations.ResetGivesResetValues : Prop :=
  (∀ (s : State) (rest : List Event), s.pending = .reset :: rest →
    ∃ t, step s = .next t ∧ t.pending = rest ∧ t.params = s.params ∧ ResetValues t) ∧
  (∀ (s t : State) (e : Event) (rest : List Event), s.Inv → s.pending = e :: rest → e ≠ .reset → step s = .next t →
    (s.halted = true → t.halted = true) ∧ (s.fault = true → t.fault = true ∧ t.faultCode = s.faultCode) ∧
    (s.rxOvr = true → t.rxOvr = true)) ∧
  (∀ p : Params, ResetValues (State.resetWith p) ∧ (State.resetWith p).pending = []) ∧
  State.reset = State.resetWith Params.reference ∧ Params.reference.numChannels = 14

/-- The invariant of the block (10_state.md rules R26, R29, R32, R41, R44, R45, 60_exceptions.md rules R203, R205) holds
right after reset, for every choice of the parameters. -/
def Obligations.ResetMeetsTheInvariant : Prop :=
  ∀ p : Params, (State.resetWith p).Inv

/-- Every step of every agent keeps the invariant of the block (10_state.md rules R26, R29, R32, R41, R44, R45,
60_exceptions.md rules R203, R205). -/
def Obligations.EveryStepKeepsTheInvariant : Prop :=
  ∀ s t : State, s.Inv → step s = .next t → t.Inv

/-- 10_state.md rule R47, 70_reset_and_hazards.md rule R249: no step changes a parameter, and the values of
`RC_BYTE_TIMEOUT` and `CMD_LATENCY` influence no step. -/
def Obligations.ParametersFixedAndUntimed : Prop :=
  (∀ s t : State, step s = .next t → t.params = s.params) ∧
  (∀ (s : State) (timeout latency : Nat),
    step (s.withTiming timeout latency) = mapNext (fun t => t.withTiming timeout latency) (step s))

/-- 10_state.md rule R44, 70_reset_and_hazards.md rule R232: bytes of `rc_buf` that the read in progress has not written
are read by no rule: states that differ only there stay so, step by step, and no register of the window tells them
apart. -/
def Obligations.UnwrittenBufferUnobservable : Prop :=
  ∀ s t : State, SameButUnreadBuf s t →
    (∀ off, s.readOffset off = t.readOffset off) ∧ RelatedResults SameButUnreadBuf (step s) (step t)

/-! ## Binary32 arithmetic -/

/-- 00_scope.md rule R11: `fadd` and `fsub` of finite operands round the exact sum or difference once, to nearest, ties to
even; an exact zero is +0.0 unless both addends are negative zeros. -/
def Obligations.AddSubRoundNearestEven : Prop :=
  ∀ a b : Word, isFinite a = true → isFinite b = true →
    RoundsTo (exactUnits a + exactUnits b) 1 (fadd a b) ∧
    (signBit (fadd a b) = true ↔
      exactUnits a + exactUnits b < 0 ∨ (exactUnits a + exactUnits b = 0 ∧ signBit a = true ∧ signBit b = true)) ∧
    RoundsTo (exactUnits a - exactUnits b) 1 (fsub a b) ∧
    (signBit (fsub a b) = true ↔
      exactUnits a - exactUnits b < 0 ∨ (exactUnits a - exactUnits b = 0 ∧ signBit a = true ∧ signBit b = false))

/-- 00_scope.md rule R11: `fmul` of finite operands, and `fdiv` of finite operands with a nonzero divisor, round the exact
product or quotient once, to nearest, ties to even; the sign is the exclusive or of the operands' signs, zero results
included. -/
def Obligations.MulDivRoundNearestEven : Prop :=
  ∀ a b : Word, isFinite a = true → isFinite b = true →
    RoundsTo (exactUnits a * exactUnits b) (2 ^ 149) (fmul a b) ∧
    (signBit (fmul a b) = (signBit a != signBit b)) ∧
    (isZero b = false →
      RoundsTo (exactUnits a * 2 ^ 149 * (exactUnits b).sign) (units b) (fdiv a b) ∧
      (signBit (fdiv a b) = (signBit a != signBit b)))

/-- 00_scope.md rule R11: `u32_to_f32` is exact for n ≤ 2^24 and `f32_to_u32_trunc` is the integer part, so the trunc of
the conversion gives n back. -/
def Obligations.IntegerConversionsExact : Prop :=
  (∀ n : Nat, n ≤ 2 ^ 24 → isFinite (u32ToF32 n) = true ∧ exactUnits (u32ToF32 n) = n * 2 ^ 149 ∧
    (f32ToU32Trunc (u32ToF32 n)).toNat = n) ∧
  (∀ x : Word, isFinite x = true → 0 ≤ exactUnits x → exactUnits x < 2 ^ 32 * 2 ^ 149 →
    ((f32ToU32Trunc x).toNat : Int) * 2 ^ 149 ≤ exactUnits x ∧
      exactUnits x < ((f32ToU32Trunc x).toNat + 1) * 2 ^ 149)

/-- 00_scope.md rule R11: the comparisons of values that are not NaN compare the exact values (so −0.0 == +0.0), and any
comparison with a NaN is false; for finite operands here, in units of 2^-149. -/
def Obligations.ComparisonsAreExact : Prop :=
  (∀ a b : Word, isFinite a = true → isFinite b = true →
    (flt a b = true ↔ exactUnits a < exactUnits b) ∧ (fle a b = true ↔ exactUnits a ≤ exactUnits b) ∧
      (feq a b = true ↔ exactUnits a = exactUnits b)) ∧
  (∀ a b : Word, isNaN a = true ∨ isNaN b = true → flt a b = false ∧ fle a b = false ∧ feq a b = false)
end

