-- ==== Sys2Proof/Laws/Binary32.lean ====
section
/-! SUPPORT. What the binary32 helpers do, said once: the integer rounding, the rounding of a rational to a magnitude
field (exact on representable values, monotone, nearest), and the order of patterns against the exact values. -/

namespace Sys2Proof.Machine

/-! ## Rounding to an integer -/

/-- `rneDiv n d` is within half a unit of `n / d`. -/
theorem rneDiv_half {n d : Nat} (hd : 0 < d) :
    2 * (d * rneDiv n d) ≤ 2 * n + d ∧ 2 * n ≤ 2 * (d * rneDiv n d) + d := by
  have h := Nat.div_add_mod n d
  have hr := Nat.mod_lt n hd
  simp only [rneDiv]
  split
  · constructor <;> omega
  · split
    · rw [Nat.mul_add, Nat.mul_one]
      constructor <;> omega
    · have h2 : 2 * (n % d) = d := by omega
      rcases Nat.mod_two_eq_zero_or_one (n / d) with h0 | h1
      · rw [h0, Nat.add_zero]
        constructor <;> omega
      · rw [h1, Nat.mul_add, Nat.mul_one]
        constructor <;> omega

/-- On a tie the even integer is taken. -/
theorem rneDiv_tie_even {n d : Nat} (hd : 0 < d)
    (h : 2 * (d * rneDiv n d) = 2 * n + d ∨ 2 * n = 2 * (d * rneDiv n d) + d) : rneDiv n d % 2 = 0 := by
  have hdm := Nat.div_add_mod n d
  have hr := Nat.mod_lt n hd
  simp only [rneDiv] at h ⊢
  split at h
  · rename_i h1
    rw [if_pos h1]
    omega
  · rename_i h1
    rw [if_neg h1]
    split at h
    · rename_i h2
      rw [if_pos h2]
      rw [Nat.mul_add, Nat.mul_one] at h
      omega
    · rename_i h2
      rw [if_neg h2]
      omega

/-- Rounding to an integer is monotone in the rational. -/
theorem rneDiv_mono {n d n' d' : Nat} (hd : 0 < d) (hd' : 0 < d') (h : n * d' ≤ n' * d) :
    rneDiv n d ≤ rneDiv n' d' := by
  by_contra hlt
  push Not at hlt
  obtain ⟨h1, -⟩ := rneDiv_half (n := n) hd
  obtain ⟨-, h2⟩ := rneDiv_half (n := n') hd'
  have e1 := rneDiv_tie_even (n := n) hd
  have e2 := rneDiv_tie_even (n := n') hd'
  generalize rneDiv n d = v at *
  generalize rneDiv n' d' = v' at *
  have k1 : 2 * (d * v) * d' ≤ (2 * n + d) * d' := Nat.mul_le_mul_right _ h1
  have k2 : 2 * n' * d ≤ (2 * (d' * v') + d') * d := Nat.mul_le_mul_right _ h2
  have k3 : d * d' * (v' + 1) ≤ d * d' * v := Nat.mul_le_mul_left _ hlt
  have hpos : 0 < d * d' := Nat.mul_pos hd hd'
  have a1 : 2 * (d * d' * v) ≤ 2 * (n * d') + d * d' := by nlinarith
  have a2 : 2 * (n' * d) ≤ 2 * (d * d' * v') + d * d' := by nlinarith
  have a3 : d * d' * v' + d * d' ≤ d * d' * v := by nlinarith
  have hv : v = v' + 1 := by
    have : d * d' * v ≤ d * d' * (v' + 1) := by nlinarith
    exact le_antisymm (Nat.le_of_mul_le_mul_left this hpos) hlt
  have t1 : 2 * (d * v) = 2 * n + d := by
    have : (2 * (d * v)) * d' = (2 * n + d) * d' := by nlinarith
    exact Nat.eq_of_mul_eq_mul_right hd' this
  have t2 : 2 * n' = 2 * (d' * v') + d' := by
    have : (2 * n') * d = (2 * (d' * v') + d') * d := by nlinarith
    exact Nat.eq_of_mul_eq_mul_right hd this
  have p1 := e1 (.inl t1)
  have p2 := e2 (.inr t2)
  omega

/-- An exact multiple rounds to itself. -/
theorem rneDiv_mul {d : Nat} (hd : 0 < d) (v : Nat) : rneDiv (d * v) d = v := by
  simp [rneDiv, Nat.mul_div_cancel_left v hd, hd]

/-- Rounding up to an integer bound stays below it. -/
theorem rneDiv_le {n d v : Nat} (hd : 0 < d) (h : n ≤ d * v) : rneDiv n d ≤ v := by
  have := rneDiv_mono (n' := d * v) (d' := d) hd hd (Nat.mul_le_mul_right _ h)
  rwa [rneDiv_mul hd] at this

theorem le_rneDiv {n d v : Nat} (hd : 0 < d) (h : d * v ≤ n) : v ≤ rneDiv n d := by
  have := rneDiv_mono (n := d * v) (d := d) (n' := n) (d' := d) hd hd (Nat.mul_le_mul_right _ h)
  rwa [rneDiv_mul hd] at this

/-! ## Magnitude fields and their units -/

/-- The units of a magnitude field given by its exponent part and its significand, carry included. -/
theorem unitsOfMag_parts {k v : Nat} (h : k = 0 ∨ 2 ^ 23 ≤ v) (hv : v ≤ 2 ^ 24) :
    unitsOfMag (k * 2 ^ 23 + v) = v * 2 ^ k := by
  unfold unitsOfMag
  by_cases h1 : v < 2 ^ 23
  · have hk : k = 0 := by omega
    subst hk
    rw [Nat.zero_mul, Nat.zero_add, if_pos h1, pow_zero, Nat.mul_one]
  · rw [if_neg (by omega)]
    by_cases h2 : v = 2 ^ 24
    · subst h2
      have e1 : (k * 2 ^ 23 + 2 ^ 24) / 2 ^ 23 = k + 2 := by omega
      have e2 : (k * 2 ^ 23 + 2 ^ 24) % 2 ^ 23 = 0 := by omega
      simp only [e1, e2, show k + 2 - 1 = k + 1 from rfl]
      ring
    · have e1 : (k * 2 ^ 23 + v) / 2 ^ 23 = k + 1 := by omega
      have e2 : (k * 2 ^ 23 + v) % 2 ^ 23 = v - 2 ^ 23 := by omega
      have e3 : 2 ^ 23 + (v - 2 ^ 23) = v := by omega
      simp only [e1, e2, e3, Nat.add_sub_cancel]

/-- Every magnitude field splits into an exponent part and a significand. -/
theorem mag_parts (m : Nat) :
    ∃ k v, m = k * 2 ^ 23 + v ∧ (k = 0 ∨ 2 ^ 23 ≤ v) ∧ v < 2 ^ 24 := by
  by_cases h : m < 2 ^ 23
  · exact ⟨0, m, by omega, .inl rfl, by omega⟩
  · exact ⟨m / 2 ^ 23 - 1, m % 2 ^ 23 + 2 ^ 23, by omega, .inr (by omega), by omega⟩

/-- Consecutive magnitude fields have increasing units. -/
theorem unitsOfMag_strictMono : StrictMono unitsOfMag := by
  refine strictMono_nat_of_lt_succ fun m => ?_
  obtain ⟨k, v, rfl, hk, hv⟩ := mag_parts m
  rw [unitsOfMag_parts hk (by omega), Nat.add_assoc, unitsOfMag_parts (by omega) (by omega)]
  exact Nat.mul_lt_mul_of_pos_right (by omega) (by positivity)

theorem unitsOfMag_zero : unitsOfMag 0 = 0 := rfl

theorem unitsOfMag_inf : unitsOfMag infMag = 2 ^ 277 := by
  show (2 ^ 23 + 0) * 2 ^ 254 = 2 ^ 277
  rw [Nat.add_zero, ← pow_add]

/-! ## Rounding to a magnitude field -/

/-- The exponent and the significand that `roundMag` finds before it limits the field to the infinity: the step is the
spacing of binary32 values at `n / d`, and the significand lies in its 24-bit range (2^24 itself by carry). -/
theorem roundMag_parts {n d : Nat} (hd : 0 < d) :
    ∃ k, roundMag n d = min (k * 2 ^ 23 + rneDiv n (d * 2 ^ k)) infMag ∧
      n < d * 2 ^ k * 2 ^ 24 ∧ (k = 0 ∨ d * 2 ^ k * 2 ^ 23 ≤ n) := by
  refine ⟨Nat.log2 (n / d) - 23, rfl, ?_, ?_⟩
  · have h : n / d < 2 ^ (Nat.log2 (n / d) + 1) := Nat.lt_log2_self
    have h2 : n < 2 ^ (Nat.log2 (n / d) + 1) * d := (Nat.div_lt_iff_lt_mul hd).mp h
    have h3 : 2 ^ (Nat.log2 (n / d) + 1) ≤ 2 ^ (Nat.log2 (n / d) - 23) * 2 ^ 24 := by
      rw [← pow_add]
      exact Nat.pow_le_pow_right (by omega) (by omega)
    calc n < 2 ^ (Nat.log2 (n / d) + 1) * d := h2
      _ ≤ 2 ^ (Nat.log2 (n / d) - 23) * 2 ^ 24 * d := Nat.mul_le_mul_right _ h3
      _ = d * 2 ^ (Nat.log2 (n / d) - 23) * 2 ^ 24 := by ring
  · by_cases h : Nat.log2 (n / d) ≤ 23
    · left
      omega
    · right
      have hne : n / d ≠ 0 := by
        intro h0
        simp [h0] at h
      have h1 : 2 ^ Nat.log2 (n / d) ≤ n / d := Nat.log2_self_le hne
      have h2 : d * 2 ^ Nat.log2 (n / d) ≤ n := by
        calc d * 2 ^ Nat.log2 (n / d) ≤ d * (n / d) := Nat.mul_le_mul_left _ h1
          _ ≤ n := Nat.mul_div_le n d
      rw [Nat.mul_assoc, ← pow_add, Nat.sub_add_cancel (by omega)]
      exact h2

/-- A representable value rounds to itself. -/
theorem roundMag_exact {d m : Nat} (hd : 0 < d) (hm : m ≤ infMag) : roundMag (unitsOfMag m * d) d = m := by
  obtain ⟨k, hr, hlt, hge⟩ := roundMag_parts (n := unitsOfMag m * d) hd
  obtain ⟨k', v, rfl, hk', hv⟩ := mag_parts m
  rw [hr]
  rw [unitsOfMag_parts hk' (by omega)] at *
  have hlt' : v * 2 ^ k' < 2 ^ k * 2 ^ 24 := by
    apply Nat.lt_of_mul_lt_mul_right (a := d)
    calc _ < d * 2 ^ k * 2 ^ 24 := hlt
      _ = 2 ^ k * 2 ^ 24 * d := by ring
  have hge' : k = 0 ∨ 2 ^ k * 2 ^ 23 ≤ v * 2 ^ k' := by
    refine hge.imp id fun h => ?_
    apply Nat.le_of_mul_le_mul_right (c := d) _ hd
    calc 2 ^ k * 2 ^ 23 * d = d * 2 ^ k * 2 ^ 23 := by ring
      _ ≤ _ := h
  have hkk : k = k' := by
    rcases lt_trichotomy k k' with h | h | h
    · exfalso
      have hv23 : 2 ^ 23 ≤ v := by omega
      have h1 : 2 ^ (k + 1) ≤ 2 ^ k' := Nat.pow_le_pow_right (by omega) h
      have h2 : 2 ^ 23 * 2 ^ (k + 1) ≤ v * 2 ^ k' := Nat.mul_le_mul hv23 h1
      rw [pow_succ] at h2
      omega
    · exact h
    · exfalso
      rcases hge' with h0 | hge'
      · omega
      · have h1 : 2 ^ (k' + 1) ≤ 2 ^ k := Nat.pow_le_pow_right (by omega) h
        have h2 : v * 2 ^ k' < 2 ^ 24 * 2 ^ k' := Nat.mul_lt_mul_of_pos_right hv (by positivity)
        rw [pow_succ] at h1
        omega
  subst hkk
  rw [show v * 2 ^ k * d = d * 2 ^ k * v by ring, rneDiv_mul (by positivity)]
  exact min_eq_left hm

/-- Rounding to a magnitude field is monotone in the rational. -/
theorem roundMag_mono {n d n' d' : Nat} (hd : 0 < d) (hd' : 0 < d') (h : n * d' ≤ n' * d) :
    roundMag n d ≤ roundMag n' d' := by
  obtain ⟨k, hr, hlt, hge⟩ := roundMag_parts (n := n) hd
  obtain ⟨k', hr', hlt', hge'⟩ := roundMag_parts (n := n') hd'
  rw [hr, hr']
  refine min_le_min_right _ ?_
  have hp : 0 < d * 2 ^ k := by positivity
  have hp' : 0 < d' * 2 ^ k' := by positivity
  rcases lt_trichotomy k k' with hk | hk | hk
  · have h1 : rneDiv n (d * 2 ^ k) ≤ 2 ^ 24 := rneDiv_le hp hlt.le
    have h2 : 2 ^ 23 ≤ rneDiv n' (d' * 2 ^ k') := le_rneDiv hp' (by omega)
    have h3 : (k + 1) * 2 ^ 23 ≤ k' * 2 ^ 23 := Nat.mul_le_mul_right _ hk
    omega
  · subst hk
    have := rneDiv_mono (n := n) (d := d * 2 ^ k) (n' := n') (d' := d' * 2 ^ k) hp hp' (by
      calc n * (d' * 2 ^ k) = n * d' * 2 ^ k := by ring
        _ ≤ n' * d * 2 ^ k := Nat.mul_le_mul_right _ h
        _ = n' * (d * 2 ^ k) := by ring)
    omega
  · exfalso
    have hge : d * 2 ^ k * 2 ^ 23 ≤ n := by omega
    have h1 : 2 ^ (k' + 1) ≤ 2 ^ k := Nat.pow_le_pow_right (by omega) hk
    have a1 : d * 2 ^ (k' + 1) * 2 ^ 23 ≤ n :=
      le_trans (Nat.mul_le_mul_right _ (Nat.mul_le_mul_left _ h1)) hge
    have a2 : d * 2 ^ (k' + 1) * 2 ^ 23 * d' ≤ n * d' := Nat.mul_le_mul_right _ a1
    have a3 : n' * d < d' * 2 ^ k' * 2 ^ 24 * d := Nat.mul_lt_mul_of_pos_right hlt' hd
    have a4 : d * 2 ^ (k' + 1) * 2 ^ 23 * d' = d' * 2 ^ k' * 2 ^ 24 * d := by
      rw [pow_succ]
      ring
    omega

/-- Comparing a rounded rational with a magnitude field from above. -/
theorem roundMag_le_of_le {n d m : Nat} (hd : 0 < d) (hm : m ≤ infMag) (h : n ≤ unitsOfMag m * d) :
    roundMag n d ≤ m := by
  have := roundMag_mono (n' := unitsOfMag m * d) (d' := d) hd hd (Nat.mul_le_mul_right _ h)
  rwa [roundMag_exact hd hm] at this

/-- Comparing a rounded rational with a magnitude field from below. -/
theorem le_roundMag_of_le {n d m : Nat} (hd : 0 < d) (hm : m ≤ infMag) (h : unitsOfMag m * d ≤ n) :
    m ≤ roundMag n d := by
  have := roundMag_mono (n := unitsOfMag m * d) (d := d) (n' := n) (d' := d) hd hd (Nat.mul_le_mul_right _ h)
  rwa [roundMag_exact hd hm] at this

theorem roundMag_le_inf (n d : Nat) : roundMag n d ≤ infMag := min_le_right _ _

end Sys2Proof.Machine
end

