-- ==== Sys2Proof/Laws/State.lean ====
section
/-! SUPPORT. The small lemmas of the state: what each named update leaves in each field (true by rfl), the per-axis and
per-motor arrays, and the views `busy`, `status`, `pwmOut`. -/

namespace Sys2Proof.Machine

variable (s : State)

/-! `faultEntry` field by field. -/

@[simp] theorem faultEntry_params (c : FaultCode) : (faultEntry c s).params = s.params := rfl
@[simp] theorem faultEntry_pending (c : FaultCode) : (faultEntry c s).pending = s.pending := rfl
@[simp] theorem faultEntry_readData (c : FaultCode) : (faultEntry c s).readData = s.readData := rfl
@[simp] theorem faultEntry_cmd (c : FaultCode) : (faultEntry c s).cmd = s.cmd := rfl
@[simp] theorem faultEntry_arg0 (c : FaultCode) : (faultEntry c s).arg0 = s.arg0 := rfl
@[simp] theorem faultEntry_arg1 (c : FaultCode) : (faultEntry c s).arg1 = s.arg1 := rfl
@[simp] theorem faultEntry_arg2 (c : FaultCode) : (faultEntry c s).arg2 = s.arg2 := rfl
@[simp] theorem faultEntry_arg3 (c : FaultCode) : (faultEntry c s).arg3 = s.arg3 := rfl
@[simp] theorem faultEntry_arg4 (c : FaultCode) : (faultEntry c s).arg4 = s.arg4 := rfl
@[simp] theorem faultEntry_res0 (c : FaultCode) : (faultEntry c s).res0 = s.res0 := rfl
@[simp] theorem faultEntry_fault (c : FaultCode) : (faultEntry c s).fault = true := rfl
@[simp] theorem faultEntry_halted (c : FaultCode) : (faultEntry c s).halted = true := rfl
@[simp] theorem faultEntry_pwmEn (c : FaultCode) : (faultEntry c s).pwmEn = false := rfl
@[simp] theorem faultEntry_rxOvr (c : FaultCode) : (faultEntry c s).rxOvr = s.rxOvr := rfl
@[simp] theorem faultEntry_faultCode (c : FaultCode) : (faultEntry c s).faultCode = c := rfl
@[simp] theorem faultEntry_rcStatus (c : FaultCode) : (faultEntry c s).rcStatus = s.rcStatus := rfl
@[simp] theorem faultEntry_ch (c : FaultCode) : (faultEntry c s).ch = s.ch := rfl
@[simp] theorem faultEntry_kp (c : FaultCode) : (faultEntry c s).kp = s.kp := rfl
@[simp] theorem faultEntry_ki (c : FaultCode) : (faultEntry c s).ki = s.ki := rfl
@[simp] theorem faultEntry_kd (c : FaultCode) : (faultEntry c s).kd = s.kd := rfl
@[simp] theorem faultEntry_integ (c : FaultCode) : (faultEntry c s).integ = s.integ := rfl
@[simp] theorem faultEntry_lastErr (c : FaultCode) : (faultEntry c s).lastErr = s.lastErr := rfl
@[simp] theorem faultEntry_pidOut (c : FaultCode) : (faultEntry c s).pidOut = s.pidOut := rfl
@[simp] theorem faultEntry_idleThr (c : FaultCode) : (faultEntry c s).idleThr = s.idleThr := rfl
@[simp] theorem faultEntry_govThr (c : FaultCode) : (faultEntry c s).govThr = s.govThr := rfl
@[simp] theorem faultEntry_mixThr (c : FaultCode) : (faultEntry c s).mixThr = s.mixThr := rfl
@[simp] theorem faultEntry_deadzone (c : FaultCode) : (faultEntry c s).deadzone = s.deadzone := rfl
@[simp] theorem faultEntry_dutyFloor (c : FaultCode) : (faultEntry c s).dutyFloor = s.dutyFloor := rfl
@[simp] theorem faultEntry_dutyCeil (c : FaultCode) : (faultEntry c s).dutyCeil = s.dutyCeil := rfl
@[simp] theorem faultEntry_mraw (c : FaultCode) : (faultEntry c s).mraw = s.mraw := rfl
@[simp] theorem faultEntry_motor (c : FaultCode) : (faultEntry c s).motor = PerMotor.fill s.dutyFloor := rfl
@[simp] theorem faultEntry_rxq (c : FaultCode) : (faultEntry c s).rxq = s.rxq := rfl
@[simp] theorem faultEntry_rcPhase (c : FaultCode) : (faultEntry c s).rcPhase = .idle := rfl
@[simp] theorem faultEntry_rcAttempts (c : FaultCode) : (faultEntry c s).rcAttempts = s.rcAttempts := rfl
@[simp] theorem faultEntry_rcBuf (c : FaultCode) : (faultEntry c s).rcBuf = s.rcBuf := rfl
@[simp] theorem faultEntry_rcCount (c : FaultCode) : (faultEntry c s).rcCount = s.rcCount := rfl
@[simp] theorem faultEntry_activeDuty (c : FaultCode) : (faultEntry c s).activeDuty = s.activeDuty := rfl
@[simp] theorem faultEntry_pwmPhase (c : FaultCode) : (faultEntry c s).pwmPhase = s.pwmPhase := rfl

/-! `latchDuty` field by field. -/

@[simp] theorem latchDuty_params : (latchDuty s).params = s.params := rfl
@[simp] theorem latchDuty_pending : (latchDuty s).pending = s.pending := rfl
@[simp] theorem latchDuty_readData : (latchDuty s).readData = s.readData := rfl
@[simp] theorem latchDuty_cmd : (latchDuty s).cmd = s.cmd := rfl
@[simp] theorem latchDuty_arg0 : (latchDuty s).arg0 = s.arg0 := rfl
@[simp] theorem latchDuty_arg1 : (latchDuty s).arg1 = s.arg1 := rfl
@[simp] theorem latchDuty_arg2 : (latchDuty s).arg2 = s.arg2 := rfl
@[simp] theorem latchDuty_arg3 : (latchDuty s).arg3 = s.arg3 := rfl
@[simp] theorem latchDuty_arg4 : (latchDuty s).arg4 = s.arg4 := rfl
@[simp] theorem latchDuty_res0 : (latchDuty s).res0 = s.res0 := rfl
@[simp] theorem latchDuty_fault : (latchDuty s).fault = s.fault := rfl
@[simp] theorem latchDuty_halted : (latchDuty s).halted = s.halted := rfl
@[simp] theorem latchDuty_pwmEn : (latchDuty s).pwmEn = s.pwmEn := rfl
@[simp] theorem latchDuty_rxOvr : (latchDuty s).rxOvr = s.rxOvr := rfl
@[simp] theorem latchDuty_faultCode : (latchDuty s).faultCode = s.faultCode := rfl
@[simp] theorem latchDuty_rcStatus : (latchDuty s).rcStatus = s.rcStatus := rfl
@[simp] theorem latchDuty_ch : (latchDuty s).ch = s.ch := rfl
@[simp] theorem latchDuty_kp : (latchDuty s).kp = s.kp := rfl
@[simp] theorem latchDuty_ki : (latchDuty s).ki = s.ki := rfl
@[simp] theorem latchDuty_kd : (latchDuty s).kd = s.kd := rfl
@[simp] theorem latchDuty_integ : (latchDuty s).integ = s.integ := rfl
@[simp] theorem latchDuty_lastErr : (latchDuty s).lastErr = s.lastErr := rfl
@[simp] theorem latchDuty_pidOut : (latchDuty s).pidOut = s.pidOut := rfl
@[simp] theorem latchDuty_idleThr : (latchDuty s).idleThr = s.idleThr := rfl
@[simp] theorem latchDuty_govThr : (latchDuty s).govThr = s.govThr := rfl
@[simp] theorem latchDuty_mixThr : (latchDuty s).mixThr = s.mixThr := rfl
@[simp] theorem latchDuty_deadzone : (latchDuty s).deadzone = s.deadzone := rfl
@[simp] theorem latchDuty_dutyFloor : (latchDuty s).dutyFloor = s.dutyFloor := rfl
@[simp] theorem latchDuty_dutyCeil : (latchDuty s).dutyCeil = s.dutyCeil := rfl
@[simp] theorem latchDuty_mraw : (latchDuty s).mraw = s.mraw := rfl
@[simp] theorem latchDuty_motor : (latchDuty s).motor = s.motor := rfl
@[simp] theorem latchDuty_rxq : (latchDuty s).rxq = s.rxq := rfl
@[simp] theorem latchDuty_rcPhase : (latchDuty s).rcPhase = s.rcPhase := rfl
@[simp] theorem latchDuty_rcAttempts : (latchDuty s).rcAttempts = s.rcAttempts := rfl
@[simp] theorem latchDuty_rcBuf : (latchDuty s).rcBuf = s.rcBuf := rfl
@[simp] theorem latchDuty_rcCount : (latchDuty s).rcCount = s.rcCount := rfl
@[simp] theorem latchDuty_activeDuty : (latchDuty s).activeDuty = s.motor := rfl
@[simp] theorem latchDuty_pwmPhase : (latchDuty s).pwmPhase = 0 := rfl

/-! `finishRead` field by field. -/

@[simp] theorem finishRead_params (st : RcStatus) : (finishRead st s).params = s.params := rfl
@[simp] theorem finishRead_pending (st : RcStatus) : (finishRead st s).pending = s.pending := rfl
@[simp] theorem finishRead_readData (st : RcStatus) : (finishRead st s).readData = s.readData := rfl
@[simp] theorem finishRead_cmd (st : RcStatus) : (finishRead st s).cmd = s.cmd := rfl
@[simp] theorem finishRead_arg0 (st : RcStatus) : (finishRead st s).arg0 = s.arg0 := rfl
@[simp] theorem finishRead_arg1 (st : RcStatus) : (finishRead st s).arg1 = s.arg1 := rfl
@[simp] theorem finishRead_arg2 (st : RcStatus) : (finishRead st s).arg2 = s.arg2 := rfl
@[simp] theorem finishRead_arg3 (st : RcStatus) : (finishRead st s).arg3 = s.arg3 := rfl
@[simp] theorem finishRead_arg4 (st : RcStatus) : (finishRead st s).arg4 = s.arg4 := rfl
@[simp] theorem finishRead_res0 (st : RcStatus) : (finishRead st s).res0 = s.res0 := rfl
@[simp] theorem finishRead_fault (st : RcStatus) : (finishRead st s).fault = s.fault := rfl
@[simp] theorem finishRead_halted (st : RcStatus) : (finishRead st s).halted = s.halted := rfl
@[simp] theorem finishRead_pwmEn (st : RcStatus) : (finishRead st s).pwmEn = s.pwmEn := rfl
@[simp] theorem finishRead_rxOvr (st : RcStatus) : (finishRead st s).rxOvr = s.rxOvr := rfl
@[simp] theorem finishRead_faultCode (st : RcStatus) : (finishRead st s).faultCode = s.faultCode := rfl
@[simp] theorem finishRead_rcStatus (st : RcStatus) : (finishRead st s).rcStatus = st := rfl
@[simp] theorem finishRead_ch (st : RcStatus) : (finishRead st s).ch = s.ch := rfl
@[simp] theorem finishRead_kp (st : RcStatus) : (finishRead st s).kp = s.kp := rfl
@[simp] theorem finishRead_ki (st : RcStatus) : (finishRead st s).ki = s.ki := rfl
@[simp] theorem finishRead_kd (st : RcStatus) : (finishRead st s).kd = s.kd := rfl
@[simp] theorem finishRead_integ (st : RcStatus) : (finishRead st s).integ = s.integ := rfl
@[simp] theorem finishRead_lastErr (st : RcStatus) : (finishRead st s).lastErr = s.lastErr := rfl
@[simp] theorem finishRead_pidOut (st : RcStatus) : (finishRead st s).pidOut = s.pidOut := rfl
@[simp] theorem finishRead_idleThr (st : RcStatus) : (finishRead st s).idleThr = s.idleThr := rfl
@[simp] theorem finishRead_govThr (st : RcStatus) : (finishRead st s).govThr = s.govThr := rfl
@[simp] theorem finishRead_mixThr (st : RcStatus) : (finishRead st s).mixThr = s.mixThr := rfl
@[simp] theorem finishRead_deadzone (st : RcStatus) : (finishRead st s).deadzone = s.deadzone := rfl
@[simp] theorem finishRead_dutyFloor (st : RcStatus) : (finishRead st s).dutyFloor = s.dutyFloor := rfl
@[simp] theorem finishRead_dutyCeil (st : RcStatus) : (finishRead st s).dutyCeil = s.dutyCeil := rfl
@[simp] theorem finishRead_mraw (st : RcStatus) : (finishRead st s).mraw = s.mraw := rfl
@[simp] theorem finishRead_motor (st : RcStatus) : (finishRead st s).motor = s.motor := rfl
@[simp] theorem finishRead_rxq (st : RcStatus) : (finishRead st s).rxq = s.rxq := rfl
@[simp] theorem finishRead_rcPhase (st : RcStatus) : (finishRead st s).rcPhase = .idle := rfl
@[simp] theorem finishRead_rcAttempts (st : RcStatus) : (finishRead st s).rcAttempts = s.rcAttempts := rfl
@[simp] theorem finishRead_rcBuf (st : RcStatus) : (finishRead st s).rcBuf = s.rcBuf := rfl
@[simp] theorem finishRead_rcCount (st : RcStatus) : (finishRead st s).rcCount = s.rcCount := rfl
@[simp] theorem finishRead_activeDuty (st : RcStatus) : (finishRead st s).activeDuty = s.activeDuty := rfl
@[simp] theorem finishRead_pwmPhase (st : RcStatus) : (finishRead st s).pwmPhase = s.pwmPhase := rfl

/-! `forceFloor` field by field. -/

@[simp] theorem forceFloor_params : (forceFloor s).params = s.params := rfl
@[simp] theorem forceFloor_pending : (forceFloor s).pending = s.pending := rfl
@[simp] theorem forceFloor_readData : (forceFloor s).readData = s.readData := rfl
@[simp] theorem forceFloor_cmd : (forceFloor s).cmd = s.cmd := rfl
@[simp] theorem forceFloor_arg0 : (forceFloor s).arg0 = s.arg0 := rfl
@[simp] theorem forceFloor_arg1 : (forceFloor s).arg1 = s.arg1 := rfl
@[simp] theorem forceFloor_arg2 : (forceFloor s).arg2 = s.arg2 := rfl
@[simp] theorem forceFloor_arg3 : (forceFloor s).arg3 = s.arg3 := rfl
@[simp] theorem forceFloor_arg4 : (forceFloor s).arg4 = s.arg4 := rfl
@[simp] theorem forceFloor_res0 : (forceFloor s).res0 = s.res0 := rfl
@[simp] theorem forceFloor_fault : (forceFloor s).fault = s.fault := rfl
@[simp] theorem forceFloor_halted : (forceFloor s).halted = s.halted := rfl
@[simp] theorem forceFloor_pwmEn : (forceFloor s).pwmEn = s.pwmEn := rfl
@[simp] theorem forceFloor_rxOvr : (forceFloor s).rxOvr = s.rxOvr := rfl
@[simp] theorem forceFloor_faultCode : (forceFloor s).faultCode = s.faultCode := rfl
@[simp] theorem forceFloor_rcStatus : (forceFloor s).rcStatus = s.rcStatus := rfl
@[simp] theorem forceFloor_ch : (forceFloor s).ch = s.ch := rfl
@[simp] theorem forceFloor_kp : (forceFloor s).kp = s.kp := rfl
@[simp] theorem forceFloor_ki : (forceFloor s).ki = s.ki := rfl
@[simp] theorem forceFloor_kd : (forceFloor s).kd = s.kd := rfl
@[simp] theorem forceFloor_integ : (forceFloor s).integ = s.integ := rfl
@[simp] theorem forceFloor_lastErr : (forceFloor s).lastErr = s.lastErr := rfl
@[simp] theorem forceFloor_pidOut : (forceFloor s).pidOut = s.pidOut := rfl
@[simp] theorem forceFloor_idleThr : (forceFloor s).idleThr = s.idleThr := rfl
@[simp] theorem forceFloor_govThr : (forceFloor s).govThr = s.govThr := rfl
@[simp] theorem forceFloor_mixThr : (forceFloor s).mixThr = s.mixThr := rfl
@[simp] theorem forceFloor_deadzone : (forceFloor s).deadzone = s.deadzone := rfl
@[simp] theorem forceFloor_dutyFloor : (forceFloor s).dutyFloor = s.dutyFloor := rfl
@[simp] theorem forceFloor_dutyCeil : (forceFloor s).dutyCeil = s.dutyCeil := rfl
@[simp] theorem forceFloor_mraw : (forceFloor s).mraw = s.mraw := rfl
@[simp] theorem forceFloor_motor : (forceFloor s).motor = PerMotor.fill s.dutyFloor := rfl
@[simp] theorem forceFloor_rxq : (forceFloor s).rxq = s.rxq := rfl
@[simp] theorem forceFloor_rcPhase : (forceFloor s).rcPhase = s.rcPhase := rfl
@[simp] theorem forceFloor_rcAttempts : (forceFloor s).rcAttempts = s.rcAttempts := rfl
@[simp] theorem forceFloor_rcBuf : (forceFloor s).rcBuf = s.rcBuf := rfl
@[simp] theorem forceFloor_rcCount : (forceFloor s).rcCount = s.rcCount := rfl
@[simp] theorem forceFloor_activeDuty : (forceFloor s).activeDuty = s.activeDuty := rfl
@[simp] theorem forceFloor_pwmPhase : (forceFloor s).pwmPhase = s.pwmPhase := rfl

/-! Arrays. -/

@[simp] theorem PerAxis.get_set_self {α : Type} (p : PerAxis α) (a : Axis) (x : α) : (p.set a x).get a = x := by
  cases a <;> rfl

theorem PerAxis.get_set_ne {α : Type} (p : PerAxis α) {a b : Axis} (x : α) (h : b ≠ a) :
    (p.set a x).get b = p.get b := by
  cases a <;> cases b <;> first | rfl | exact absurd rfl h

@[simp] theorem PerAxis.get_fill {α : Type} (x : α) (a : Axis) : (PerAxis.fill x).get a = x := by
  cases a <;> rfl

theorem PerAxis.ext_get {α : Type} {p q : PerAxis α} (h : ∀ a, p.get a = q.get a) : p = q := by
  cases p; cases q
  have h0 := h .roll
  have h1 := h .pitch
  have h2 := h .yaw
  simp only [PerAxis.get] at h0 h1 h2
  simp [h0, h1, h2]

@[simp] theorem PerMotor.get_fill {α : Type} (x : α) (m : Motor) : (PerMotor.fill x).get m = x := by
  cases m <;> rfl

theorem PerMotor.ext_get {α : Type} {p q : PerMotor α} (h : ∀ m, p.get m = q.get m) : p = q := by
  cases p; cases q
  have h0 := h .frontLeft
  have h1 := h .frontRight
  have h2 := h .rearLeft
  have h3 := h .rearRight
  simp only [PerMotor.get] at h0 h1 h2 h3
  simp [h0, h1, h2, h3]

/-! Views. -/

/-- `STATUS.BUSY` = 0 exactly when the engine is idle (10_state.md rule R44). -/
theorem State.busy_eq_false_iff : s.busy = false ↔ s.rcPhase = .idle := by
  cases h : s.rcPhase <;> simp [State.busy, h]

@[simp] theorem faultEntry_busy (c : FaultCode) : (faultEntry c s).busy = false := rfl

@[simp] theorem finishRead_busy (st : RcStatus) : (finishRead st s).busy = false := rfl

/-- While released every output is low (43_pwm_system.md rule R188). -/
theorem State.pwmOut_released {s : State} (h : s.pwmEn = false) (m : Motor) : s.pwmOut m = false := by
  simp [State.pwmOut, h]

@[simp] theorem faultEntry_pwmOut (c : FaultCode) (m : Motor) : (faultEntry c s).pwmOut m = false :=
  State.pwmOut_released rfl m

/-- The reset input keeps the parameters and the pending steps (assumption 4). -/
@[simp] theorem resetBlock_params : s.resetBlock.params = s.params := rfl

@[simp] theorem resetBlock_pending : s.resetBlock.pending = s.pending := rfl

/-! Parameters are inside their legal ranges (00_scope.md rule R7). -/

theorem params_numChannels_range (p : Params) : 1 ≤ p.numChannels ∧ p.numChannels ≤ 14 := by
  have := p.channelsPred.isLt
  unfold Params.numChannels
  omega

theorem params_rxFifoDepth_pos (p : Params) : 1 ≤ p.rxFifoDepth := by
  unfold Params.rxFifoDepth
  omega

theorem params_pwmPeriodNs_pos (p : Params) : 1 ≤ p.pwmPeriodNs := by
  unfold Params.pwmPeriodNs
  omega

theorem params_blockBase_aligned (p : Params) : p.blockBase % 512 = 0 := by
  unfold Params.blockBase
  omega

end Sys2Proof.Machine
end

