-- ==== Sys2Proof/Laws/Ops.lean ====
section
/-! SUPPORT. What the shared operations and the agents can do, each said once: the window map, the checks, what a command
that answers next can have done (`exec_cases`), what a host access can have done, and the step as the next event. -/

namespace Sys2Proof.Machine

/-! ## The window -/

theorem windowOffset_base_add {p : Params} {off : Nat} (h : off < 0x200) :
    windowOffset p (p.blockBase + off) = some off := by
  unfold windowOffset
  rw [if_pos (by omega), Nat.add_sub_cancel_left]

theorem windowOffset_some {p : Params} {addr off : Nat} (h : windowOffset p addr = some off) :
    addr = p.blockBase + off ∧ off < 0x200 := by
  unfold windowOffset at h
  split at h
  · cases h
    omega
  · cases h

/-- Every register lies at a word offset inside the window (10_state.md rule R22). -/
theorem Reg.offset_range (r : Reg) : r.offset < 0x200 ∧ r.offset % 4 = 0 := by
  cases r with
  | arg i => have := i.isLt; simp only [Reg.offset]; omega
  | ch c => have := c.isLt; simp only [Reg.offset, Channel.number]; omega
  | kp a | ki a | kd a | integ a | lastErr a | pidOut a => cases a <;> decide
  | mraw m | motor m => cases m <;> decide
  | _ => decide

theorem Reg.mem_all (r : Reg) : r ∈ Reg.all := by
  cases r with
  | arg i => revert i; decide
  | ch c => revert c; decide
  | kp a | ki a | kd a | integ a | lastErr a | pidOut a => cases a <;> decide
  | mraw m | motor m => cases m <;> decide
  | _ => decide

/-- No two registers share an offset. -/
theorem Reg.offset_pairwise : Reg.all.Pairwise fun r r' => r.offset ≠ r'.offset := by decide

/-- Each register is found at its offset (10_state.md rule R22). -/
theorem Reg.ofOffset_offset (r : Reg) : Reg.ofOffset r.offset = some r := by
  have h : ∀ r ∈ Reg.all, Reg.ofOffset r.offset = some r := by decide
  exact h r r.mem_all

theorem Reg.ofOffset_some {off : Nat} {r : Reg} (h : Reg.ofOffset off = some r) : r.offset = off := by
  have := List.find?_some h
  simpa using this

@[simp] theorem State.readOffset_offset (s : State) (r : Reg) : s.readOffset r.offset = s.readReg r := by
  simp [State.readOffset, Reg.ofOffset_offset]

theorem admitted_iff {w : Width} {off : Nat} : admitted w off = true ↔ w = .w32 ∧ off % 4 = 0 := by
  simp [admitted]

/-! ## Finiteness -/

theorem allFinite_cons {x : Word} {xs : List Word} :
    allFinite (x :: xs) = true ↔ isFinite x = true ∧ allFinite xs = true := by
  simp [allFinite]

theorem isNaN_of_isFinite {x : Word} (h : isFinite x = true) : isNaN x = false := by
  simp only [isFinite, isNaN, decide_eq_true_eq, decide_eq_false_iff_not] at *
  omega

theorem isInf_of_isFinite {x : Word} (h : isFinite x = true) : isInf x = false := by
  simp only [isFinite, isInf, decide_eq_true_eq, beq_eq_false_iff_ne] at *
  omega

/-- A finite value clamped to ±150.0 lies in the anti-windup range (41_pid.md rule R131). -/
theorem antiWindup_range {x : Word} (h : isFinite x = true) :
    fle Config.iLimitNeg (antiWindup x) = true ∧ fle (antiWindup x) Config.iLimit = true := by
  have hn := isNaN_of_isFinite h
  have e1 : isNaN Config.iLimitNeg = false := by decide
  have e2 : isNaN Config.iLimit = false := by decide
  unfold antiWindup fclamp
  split
  · exact ⟨by decide, by decide⟩
  · split
    · exact ⟨by decide, by decide⟩
    · rename_i h1 h2
      simp only [flt, fle, hn, e1, e2, Bool.not_false, Bool.true_and, decide_eq_true_eq, not_lt] at *
      exact ⟨h1, h2⟩

/-! ## What a command can do -/

/-- A completed effect of a command: every way `exec` can answer a next state without raising a fault. -/
inductive Completed : Instr → State → State → Prop where
  | nop (s) : Completed .nop s s
  | rcRead (s : State) : Completed .rcRead s { s with rcPhase := .hunt, rcAttempts := 0, rcCount := 0 }
  | norm (s : State) (r : Word) (h : isFinite r = true) : Completed .norm s { s with res0 := r }
  | rcNorm (s : State) (k c) (r : Word) : Completed (.rcNorm k c) s { s with res0 := r }
  | pidUpdate (s : State) (a) (i e out : Word)
      (hi : fle Config.iLimitNeg i = true ∧ fle i Config.iLimit = true) (he : isFinite e = true)
      (ho : isFinite out = true) :
      Completed (.pidUpdate a) s
        { s with integ := s.integ.set a i, lastErr := s.lastErr.set a e, pidOut := s.pidOut.set a out, res0 := out }
  | pidReset (s : State) (a) :
      Completed (.pidReset (.one a)) s { s with integ := s.integ.set a fZero, lastErr := s.lastErr.set a fZero }
  | pidResetAll (s : State) :
      Completed (.pidReset .all) s { s with integ := PerAxis.fill fZero, lastErr := PerAxis.fill fZero }
  | mix (s : State) (thr : Word) (raw d : PerMotor Word) (hl : s.legalDuty = true) (ht : isFinite thr = true)
      (hr : ∀ m, isFinite (raw.get m) = true) (hd : s.shapeAll raw = some d) :
      Completed .mix s { s with mixThr := thr, mraw := raw, motor := d }
  | duty (s : State) (d : Word) (hl : s.legalDuty = true) (hd : s.shape s.arg0 = some d) :
      Completed .duty s { s with res0 := d }
  | forceIdle (s : State) : Completed .forceIdle s (forceFloor s)
  | pwmEnable (s : State) (h : s.pwmEn = false) : Completed .pwmEnable s (latchDuty { s with pwmEn := true })
  | pwmEnabled (s : State) (h : s.pwmEn = true) : Completed .pwmEnable s s
  | pwmRelease (s : State) : Completed .pwmRelease s { s with pwmEn := false }
  | shutdown (s : State) : Completed .shutdown s { forceFloor s with pwmEn := false, halted := true }

/-- Which fault a command can raise once issued (60_exceptions.md rule R200, column "Raised by"). -/
inductive Raises : Instr → FaultCode → Prop where
  | normNonfinite : Raises .norm .nonfinite
  | normRange : Raises .norm .normRange
  | pidNonfinite (a) : Raises (.pidUpdate a) .nonfinite
  | pidDt (a) : Raises (.pidUpdate a) .dtRange
  | dutyCfg : Raises .duty .dutyCfg
  | dutyNonfinite : Raises .duty .nonfinite
  | mixCfg : Raises .mix .dutyCfg
  | mixNonfinite : Raises .mix .nonfinite

/-- What a command can do: complete, or raise one of its faults and change nothing else (60_exceptions.md rule R202). -/
theorem exec_cases (i : Instr) (s : State) :
    (∃ t, exec i s = .next t ∧ Completed i s t) ∨ (∃ c, Raises i c ∧ exec i s = .next (faultEntry c s)) := by
  cases i with
  | nop => exact .inl ⟨_, rfl, .nop s⟩
  | rcRead => exact .inl ⟨_, rfl, .rcRead s⟩
  | norm =>
    simp only [exec, execNorm, raise]
    split
    · split
      · exact .inr ⟨_, .normRange, rfl⟩
      · split
        · rename_i h
          simp only [allFinite_cons] at h
          exact .inl ⟨_, rfl, .norm s _ h.2.2.2.2.2.1⟩
        · exact .inr ⟨_, .normNonfinite, rfl⟩
    · exact .inr ⟨_, .normNonfinite, rfl⟩
  | rcNorm k c => exact .inl ⟨_, rfl, .rcNorm s k c _⟩
  | pidUpdate a =>
    simp only [exec, execPidUpdate, raise]
    split
    · rename_i h0
      split
      · split
        · rename_i h
          simp only [Bool.and_eq_true, allFinite_cons] at h h0
          exact .inl ⟨_, rfl, .pidUpdate s a _ _ _ (antiWindup_range h.1.2.2.2.1) h0.1 h.2.2.1⟩
        · exact .inr ⟨_, .pidNonfinite a, rfl⟩
      · exact .inr ⟨_, .pidDt a, rfl⟩
    · exact .inr ⟨_, .pidNonfinite a, rfl⟩
  | pidReset sel =>
    cases sel with
    | one a => exact .inl ⟨_, rfl, .pidReset s a⟩
    | all => exact .inl ⟨_, rfl, .pidResetAll s⟩
  | mix =>
    simp only [exec, execMix, raise]
    split
    · rename_i hl
      split
      · split
        · rename_i h
          simp only [allFinite_cons] at h
          split
          · rename_i d hd
            refine .inl ⟨_, rfl, .mix s _ _ d hl h.2.2.1 (fun m => ?_) hd⟩
            cases m
            · exact h.2.2.2.2.2.2.2.2.2.1
            · exact h.2.2.2.2.2.2.2.2.2.2.1
            · exact h.2.2.2.2.2.2.2.2.2.2.2.1
            · exact h.2.2.2.2.2.2.2.2.2.2.2.2.1
          · exact .inr ⟨_, .mixNonfinite, rfl⟩
        · exact .inr ⟨_, .mixNonfinite, rfl⟩
      · exact .inr ⟨_, .mixNonfinite, rfl⟩
    · exact .inr ⟨_, .mixCfg, rfl⟩
  | duty =>
    simp only [exec, execDuty, raise]
    split
    · rename_i hl
      split
      · split
        · rename_i d hd
          exact .inl ⟨_, rfl, .duty s d hl hd⟩
        · exact .inr ⟨_, .dutyNonfinite, rfl⟩
      · exact .inr ⟨_, .dutyNonfinite, rfl⟩
    · exact .inr ⟨_, .dutyCfg, rfl⟩
  | forceIdle => exact .inl ⟨_, rfl, .forceIdle s⟩
  | pwmEnable =>
    cases h : s.pwmEn with
    | false => exact .inl ⟨_, by simp [exec, execPwmEnable, h], .pwmEnable s h⟩
    | true => exact .inl ⟨_, by simp [exec, execPwmEnable, h], .pwmEnabled s h⟩
  | pwmRelease => exact .inl ⟨_, rfl, .pwmRelease s⟩
  | shutdown => exact .inl ⟨_, rfl, .shutdown s⟩

/-- The inversion of `exec`: if it answers `t`, then `t` completes the command or is a fault entry of one of its
faults. -/
theorem exec_next_cases {i : Instr} {s t : State} (h : exec i s = .next t) :
    Completed i s t ∨ ∃ c, Raises i c ∧ t = faultEntry c s := by
  rcases exec_cases i s with ⟨u, hu, hc⟩ | ⟨c, hc, hu⟩
  · rw [hu] at h
    cases h
    exact .inl hc
  · rw [hu] at h
    cases h
    exact .inr ⟨c, hc, rfl⟩

/-- No command raises the code NONE. -/
theorem Raises.ne_none {i : Instr} {c : FaultCode} (h : Raises i c) : c ≠ .none := by
  cases h <;> decide

/-! ## What a host access can do -/

/-- What the issue of a word can do (30_encoding.md rule R80). -/
theorem issue_cases (w : Word) (s : State) :
    (s.busy = true ∧ issue w s = .next (faultEntry .busy { s with cmd := w })) ∨
    (s.busy = false ∧ (∃ r, decode s.params.numChannels w = .error r) ∧
      issue w s = .next (faultEntry .badCmd { s with cmd := w })) ∨
    (s.busy = false ∧ ∃ i, decode s.params.numChannels w = .ok i ∧ issue w s = exec i { s with cmd := w }) := by
  have hb : ({ s with cmd := w } : State).busy = s.busy := rfl
  simp only [issue, raise, hb]
  cases h : s.busy with
  | true => exact .inl ⟨rfl, rfl⟩
  | false =>
    right
    simp only [Bool.false_eq_true, if_false]
    cases hd : decode s.params.numChannels w with
    | error r => exact .inl ⟨trivial, ⟨r, rfl⟩, rfl⟩
    | ok i => exact .inr ⟨trivial, i, rfl, rfl⟩

/-- What a host write inside the window can do (20_memory.md rules R63 to R68). -/
theorem hostWrite_cases {width : Width} {addr off : Nat} (v : Word) {s : State}
    (h : windowOffset s.params addr = some off) :
    (s.halted = true ∧ hostWrite width addr v s = .next s) ∨
    (s.halted = false ∧ hostWrite width addr v s = .next (faultEntry .badAccess s)) ∨
    (s.halted = false ∧ width = .w32 ∧ off = 0 ∧ hostWrite width addr v s = issue v s) ∨
    (s.halted = false ∧ width = .w32 ∧ ∃ r, r.offset = off ∧ r.access = .readWrite ∧
      hostWrite width addr v s = .next (s.writeReg r v)) := by
  simp only [hostWrite, h, badAccess, raise]
  cases hh : s.halted with
  | true => exact .inl ⟨rfl, rfl⟩
  | false =>
    right
    simp only [Bool.false_eq_true, if_false]
    split
    · rename_i ha
      obtain ⟨rfl, -⟩ := admitted_iff.mp ha
      split
      · exact .inl ⟨trivial, rfl⟩
      · rename_i r hr
        have hoff := Reg.ofOffset_some hr
        split
        · rename_i hacc
          refine .inr (.inl ⟨trivial, rfl, ?_, rfl⟩)
          rw [← hoff]
          cases r <;> first | rfl | cases hacc
        · rename_i hacc
          exact .inr (.inr ⟨trivial, rfl, r, hoff, hacc, rfl⟩)
        · exact .inl ⟨trivial, rfl⟩
    · exact .inl ⟨trivial, rfl⟩

/-- What a host read inside the window can do (20_memory.md rules R62, R64, R66). -/
theorem hostRead_cases {width : Width} {addr off : Nat} {s : State} (h : windowOffset s.params addr = some off) :
    (width = .w32 ∧ off % 4 = 0 ∧ hostRead width addr s = .next { s with readData := some (s.readOffset off) }) ∨
    ((width ≠ .w32 ∨ off % 4 ≠ 0) ∧ s.halted = true ∧
      hostRead width addr s = .next { s with readData := some 0 }) ∨
    ((width ≠ .w32 ∨ off % 4 ≠ 0) ∧ s.halted = false ∧
      hostRead width addr s = .next (faultEntry .badAccess { s with readData := some 0 })) := by
  simp only [hostRead, h, badAccess, raise]
  split
  · rename_i ha
    obtain ⟨hw, ho⟩ := admitted_iff.mp ha
    exact .inl ⟨hw, ho, rfl⟩
  · rename_i ha
    have hb : width ≠ .w32 ∨ off % 4 ≠ 0 := by
      by_contra hc
      push Not at hc
      exact ha (admitted_iff.mpr hc)
    right
    cases hh : s.halted with
    | true => exact .inl ⟨hb, rfl, rfl⟩
    | false => exact .inr ⟨hb, rfl, rfl⟩

/-! ## The step -/

/-- A step is what the next pending event does (20_memory.md rule R75). -/
theorem step_of_pending {s : State} {e : Event} {rest : List Event} (h : s.pending = e :: rest) :
    step s = runEvent e { s with pending := rest } := by
  simp [step, agentStep, nextEvent, h]

/-- With nothing pending the block waits (70_reset_and_hazards.md rule R233). -/
theorem step_of_no_event {s : State} (h : s.pending = []) : step s = .next s := by
  simp [step, agentStep, nextEvent, h]

/-! ## The RC engine -/

/-- A register write never changes what the RC engine does (20_memory.md rule R63). -/
theorem State.writeReg_engine (s : State) (r : Reg) (v : Word) :
    (s.writeReg r v).rcPhase = s.rcPhase ∧ (s.writeReg r v).rcAttempts = s.rcAttempts ∧
    (s.writeReg r v).rcCount = s.rcCount ∧ (s.writeReg r v).rcBuf = s.rcBuf ∧ (s.writeReg r v).rxq = s.rxq := by
  cases r with
  | arg i => fin_cases i <;> exact ⟨rfl, rfl, rfl, rfl, rfl⟩
  | _ => exact ⟨rfl, rfl, rfl, rfl, rfl⟩

/-- The bound on the engine steps a read still needs (40_rc_decoder.md rule R112). -/
def rcBudget (s : State) : Nat :=
  match s.rcPhase with
  | .idle => 0
  | .hunt => (10 - s.rcAttempts) + 31
  | .payload => 31 - s.rcCount

end Sys2Proof.Machine
end

