-- ==== Sys2Proof/Laws/PerInstr.lean ====
section
/-! SUPPORT. One law per constructor of `Instr`: the word of a command lies in its own row of the opcode map, and its
fields stay below the row's reserved bits. -/

namespace Sys2Proof.Laws.TableRow

/-- The word of `i` selects the row of its opcode by the columns match and mask of 30_encoding.md rule R85, and its
operand bits fit below the reserved field of the row's format (rule R82). -/
def Statement (i : Instr) : Prop :=
  encode i &&& i.op.mask = i.op.matchWord ∧ i.op.code < 256 ∧ 256 * i.operandBits < 2 ^ i.op.format.reservedFrom

theorem nop : Statement .nop := by unfold Statement; decide

theorem rcRead : Statement .rcRead := by unfold Statement; decide

theorem norm : Statement .norm := by unfold Statement; decide

theorem rcNorm (k : MapKind) (c : Channel) : Statement (.rcNorm k c) := by
  cases k <;> revert c <;> unfold Statement <;> decide

theorem pidUpdate (a : Axis) : Statement (.pidUpdate a) := by cases a <;> unfold Statement <;> decide

theorem pidReset (sel : AxisSel) : Statement (.pidReset sel) := by
  cases sel with
  | one a => cases a <;> unfold Statement <;> decide
  | all => unfold Statement; decide

theorem mix : Statement .mix := by unfold Statement; decide

theorem duty : Statement .duty := by unfold Statement; decide

theorem forceIdle : Statement .forceIdle := by unfold Statement; decide

theorem pwmEnable : Statement .pwmEnable := by unfold Statement; decide

theorem pwmRelease : Statement .pwmRelease := by unfold Statement; decide

theorem shutdown : Statement .shutdown := by unfold Statement; decide

end Sys2Proof.Laws.TableRow
end

