-- ==== Sys2Proof/Laws/Step.lean ====
section
/-! SUPPORT. Everything one step can do, said once: the inductive `Stepped` lists the cases, `step_stepped` is the
inversion of the step, from which invariants and frames are derived. -/

namespace Sys2Proof.Machine

/-- What a step whose event has been taken off the list can have made of the state: `s` is the state before the step,
`u` the same state without the event, `t` the state after. -/
inductive Stepped (s u : State) : Event → State → Prop where
  /-- an admitted read -/
  | read (addr : Nat) (v : Word) : Stepped s u (.hostRead .w32 addr) { u with readData := some v }
  /-- a bad read while halted -/
  | readHalted (width addr) (h : s.halted = true) : Stepped s u (.hostRead width addr) { u with readData := some 0 }
  /-- a bad read -/
  | readFault (width addr) (h : s.halted = false) :
      Stepped s u (.hostRead width addr) (faultEntry .badAccess { u with readData := some 0 })
  /-- any write while halted -/
  | writeHalted (width addr v) (h : s.halted = true) : Stepped s u (.hostWrite width addr v) u
  /-- a bad write -/
  | writeFault (width addr v) (h : s.halted = false) :
      Stepped s u (.hostWrite width addr v) (faultEntry .badAccess u)
  /-- a write of a `RW` register -/
  | writeReg (addr v) (r : Reg) (h : s.halted = false) (hr : r.access = .readWrite) :
      Stepped s u (.hostWrite .w32 addr v) (u.writeReg r v)
  /-- a command word while an RC read is in progress -/
  | busy (addr w) (h : s.halted = false) (hb : s.busy = true) (hc : s.nextCommand = some w) :
      Stepped s u (.hostWrite .w32 addr w) (faultEntry .busy { u with cmd := w })
  /-- an illegal command word -/
  | illegal (addr w) (h : s.halted = false) (hb : s.busy = false) (hc : s.nextCommand = some w) :
      Stepped s u (.hostWrite .w32 addr w) (faultEntry .badCmd { u with cmd := w })
  /-- a command -/
  | command (addr w) (i : Instr) (t : State) (h : s.halted = false) (hb : s.busy = false)
      (hc : s.nextCommand = some w) (hi : s.nextInstr = some i) (ht : exec i { u with cmd := w } = .next t) :
      Stepped s u (.hostWrite .w32 addr w) t
  /-- a byte push -/
  | push (b) : Stepped s u (.rxPush b) (rxPush b u)
  /-- a step of the RC engine -/
  | engine : Stepped s u .rcStep (rcEngineStep u)
  /-- an untimed period start -/
  | period : Stepped s u .pwmPeriodStart (Machine.pwmPeriodStart u)
  /-- time passing at the generator -/
  | elapse (ns) : Stepped s u (.pwmElapse ns) (Machine.pwmElapse ns u)
  /-- the reset input -/
  | reset : Stepped s u .reset u.resetBlock

theorem State.nextCommand_of_pending {s : State} {addr : Nat} {w : Word} {rest : List Event}
    (h : s.pending = .hostWrite .w32 addr w :: rest) (ha : addr = s.params.blockBase) :
    s.nextCommand = some w := by
  simp [State.nextCommand, h, ha]

theorem State.nextInstr_of_nextCommand {s : State} {w : Word} {i : Instr} (hc : s.nextCommand = some w)
    (hh : s.halted = false) (hb : s.busy = false) (hd : decode s.params.numChannels w = .ok i) :
    s.nextInstr = some i := by
  simp [State.nextInstr, hc, hh, hb, hd]

/-- The inversion of the step: if it answers `t` then one of the cases of `Stepped` holds. -/
theorem step_stepped {s t : State} {e : Event} {rest : List Event} (hp : s.pending = e :: rest)
    (h : step s = .next t) : Stepped s { s with pending := rest } e t := by
  rw [step_of_pending hp] at h
  cases e with
  | hostRead width addr =>
    simp only [runEvent] at h
    cases ho : windowOffset s.params addr with
    | none => simp [hostRead, ho] at h
    | some off =>
      rcases hostRead_cases (width := width) (s := { s with pending := rest }) ho with ⟨rfl, -, e⟩ | ⟨-, hh, e⟩ | ⟨-, hh, e⟩
      · rw [e] at h
        cases h
        exact .read addr _
      · rw [e] at h
        cases h
        exact .readHalted width addr hh
      · rw [e] at h
        cases h
        exact .readFault width addr hh
  | hostWrite width addr v =>
    simp only [runEvent] at h
    cases ho : windowOffset s.params addr with
    | none => simp [hostWrite, ho] at h
    | some off =>
      rcases hostWrite_cases (width := width) v (s := { s with pending := rest }) ho with
        ⟨hh, e⟩ | ⟨hh, e⟩ | ⟨hh, rfl, rfl, e⟩ | ⟨hh, rfl, r, -, hr, e⟩
      · rw [e] at h
        cases h
        exact .writeHalted width addr v hh
      · rw [e] at h
        cases h
        exact .writeFault width addr v hh
      · have hc : s.nextCommand = some v := State.nextCommand_of_pending hp (windowOffset_some ho).1
        rcases issue_cases v { s with pending := rest } with ⟨hb, e'⟩ | ⟨hb, -, e'⟩ | ⟨hb, i, hd, e'⟩
        · rw [e, e'] at h
          cases h
          exact .busy addr v hh hb hc
        · rw [e, e'] at h
          cases h
          exact .illegal addr v hh hb hc
        · rw [e, e'] at h
          exact .command addr v i t hh hb hc (State.nextInstr_of_nextCommand hc hh hb hd) h
      · rw [e] at h
        cases h
        exact .writeReg addr v r hh hr
  | rxPush b =>
    cases h
    exact .push b
  | rcStep =>
    cases h
    exact .engine
  | pwmPeriodStart =>
    cases h
    exact .period
  | pwmElapse ns =>
    cases h
    exact .elapse ns
  | reset =>
    cases h
    exact .reset

/-! ## What the engine and the FIFO leave alone -/

/-- Every way a hunt step can end (40_rc_decoder.md rules R107, R108). -/
theorem huntStep_cases (s : State) :
    (∃ q, s.rxq = Config.rcSync :: q ∧ huntStep s =
      { s with rxq := q, rcAttempts := s.rcAttempts + 1, rcPhase := .payload, rcCount := 0 }) ∨
    (∃ q, (q <:+ s.rxq) ∧ s.rcAttempts + 1 ≠ Config.rcMaxAttempts ∧
      huntStep s = { s with rxq := q, rcAttempts := s.rcAttempts + 1 }) ∨
    (∃ q, (q <:+ s.rxq) ∧ s.rcAttempts + 1 = Config.rcMaxAttempts ∧
      huntStep s = finishRead .failed { s with rxq := q, rcAttempts := s.rcAttempts + 1 }) := by
  simp only [huntStep]
  split
  · rename_i b q hq
    split
    · rename_i hb
      exact .inl ⟨q, by rw [← hb]; exact hq, rfl⟩
    · right
      have hs : q <:+ s.rxq := ⟨[b], by rw [hq]; rfl⟩
      split
      · rename_i ha
        exact .inr ⟨q, hs, ha, rfl⟩
      · rename_i ha
        exact .inl ⟨q, hs, ha, rfl⟩
  · rename_i hq
    right
    have hs : s.rxq <:+ s.rxq := List.suffix_refl _
    split
    · rename_i ha
      exact .inr ⟨s.rxq, hs, ha, rfl⟩
    · rename_i ha
      exact .inl ⟨s.rxq, hs, ha, rfl⟩

/-- Every way a payload step can end (40_rc_decoder.md rule R109). -/
theorem payloadStep_cases (s : State) :
    (s.rxq = [] ∧ payloadStep s = finishRead .failed s) ∨
    (∃ b q, s.rxq = b :: q ∧ s.rcCount + 1 ≠ 31 ∧ payloadStep s =
      { s with rxq := q, rcBuf := s.rcBuf.setIfInBounds s.rcCount b, rcCount := s.rcCount + 1 }) ∨
    (∃ b q, s.rxq = b :: q ∧ s.rcCount + 1 = 31 ∧ payloadStep s =
      validateFrame
        { s with rxq := q, rcBuf := s.rcBuf.setIfInBounds s.rcCount b, rcCount := s.rcCount + 1 }) := by
  simp only [payloadStep]
  split
  · rename_i b q hq
    right
    split
    · rename_i hc
      exact .inr ⟨b, q, hq, hc, rfl⟩
    · rename_i hc
      exact .inl ⟨b, q, hq, hc, rfl⟩
  · rename_i hq
    exact .inl ⟨hq, rfl⟩

/-- The engine's step by phase (40_rc_decoder.md rules R107 to R109). -/
theorem rcEngineStep_cases (s : State) :
    (s.rcPhase = .idle ∧ rcEngineStep s = s) ∨ (s.rcPhase = .hunt ∧ rcEngineStep s = huntStep s) ∨
    (s.rcPhase = .payload ∧ rcEngineStep s = payloadStep s) := by
  rcases h : s.rcPhase <;> simp [rcEngineStep, h]

/-- The two ends of a validation (40_rc_decoder.md rule R110). -/
theorem validateFrame_cases (s : State) :
    (frameValid s.rcBuf = true ∧
      validateFrame s = finishRead .new { s with ch := channelsFrom s.params s.rcBuf s.ch }) ∨
    (frameValid s.rcBuf = false ∧ validateFrame s = finishRead .checksumError s) := by
  unfold validateFrame
  cases h : frameValid s.rcBuf with
  | true => exact .inl ⟨rfl, rfl⟩
  | false => exact .inr ⟨rfl, rfl⟩

/-! ## Runs, and the steps a read in progress may interleave with -/

/-- A run of no step. -/
theorem sys2Run_zero (s : State) : sys2Run 0 s = .next s := rfl

/-- A run whose first step answers a next state goes on from that state. -/
theorem sys2Run_succ {s t : State} (k : Nat) (h : step s = .next t) : sys2Run (k + 1) s = sys2Run k t := by
  have hs : Sys2Proof.core.step s = .next t := h
  simp only [sys2Run, Host.Core.run]
  rw [hs]

/-- An admitted read gives back a value and does nothing else (20_memory.md rules R62, R64). -/
theorem hostRead_admitted {width : Width} {addr : Nat} {s : State} (h : admittedRead s.params width addr = true) :
    ∃ v, hostRead width addr s = .next { s with readData := some v } := by
  unfold admittedRead at h
  cases hw : windowOffset s.params addr with
  | none => simp [hw] at h
  | some off =>
    rw [hw] at h
    exact ⟨s.readOffset off, by simp [hostRead, hw, show admitted width off = true from h]⟩

/-- An admitted write of a `RW` register, while not halted, stores (20_memory.md rule R63). -/
theorem hostWrite_admitted {width : Width} {addr : Nat} (v : Word) {s : State} (hh : s.halted = false)
    (h : admittedStore s.params width addr = true) :
    ∃ r : Reg, r.access = .readWrite ∧ hostWrite width addr v s = .next (s.writeReg r v) := by
  unfold admittedStore at h
  cases hw : windowOffset s.params addr with
  | none => simp [hw] at h
  | some off =>
    simp only [hw, Bool.and_eq_true] at h
    obtain ⟨ha, hr⟩ := h
    cases hro : Reg.ofOffset off with
    | none => simp [hro] at hr
    | some r =>
      have hacc : r.access = .readWrite := by simpa [hro] using hr
      exact ⟨r, hacc, by simp [hostWrite, hw, hh, ha, hro, hacc]⟩

/-- What a background step of a block that is not halted does: an engine step moves the engine; any other leaves the
engine and the RC status as they are. Either way the block is still not halted and keeps its parameters. -/
theorem background_step {s : State} {e : Event} {rest : List Event} (hp : s.pending = e :: rest)
    (hh : s.halted = false) (hb : e.isBackground s.params = true) :
    ∃ t, step s = .next t ∧ t.pending = rest ∧ t.params = s.params ∧ t.halted = false ∧
      ((e = .rcStep ∧ t = rcEngineStep { s with pending := rest }) ∨
        (e ≠ .rcStep ∧ t.rcPhase = s.rcPhase ∧ t.rcAttempts = s.rcAttempts ∧ t.rcCount = s.rcCount ∧
          t.rcStatus = s.rcStatus)) := by
  rw [step_of_pending hp]
  cases e with
  | reset => cases hb
  | rcStep =>
    refine ⟨_, rfl, ?_, ?_, ?_, .inl ⟨rfl, rfl⟩⟩ <;>
      rcases rcEngineStep_cases { s with pending := rest } with ⟨_, h⟩ | ⟨_, h⟩ | ⟨_, h⟩ <;> rw [h]
    all_goals first
      | rcases huntStep_cases { s with pending := rest } with ⟨q, _, h⟩ | ⟨q, _, _, h⟩ | ⟨q, _, _, h⟩ <;> rw [h] <;>
          first | rfl | exact hh
      | rcases payloadStep_cases { s with pending := rest } with ⟨_, h⟩ | ⟨b, q, _, _, h⟩ | ⟨b, q, _, _, h⟩ <;> rw [h] <;>
          first
            | rfl
            | exact hh
            | (simp only [validateFrame]; split <;> first | rfl | exact hh)
      | rfl
      | exact hh
  | rxPush b =>
    refine ⟨_, rfl, ?_⟩
    simp only [rxPush]
    split <;> exact ⟨rfl, rfl, hh, .inr ⟨by simp, rfl, rfl, rfl, rfl⟩⟩
  | pwmPeriodStart =>
    refine ⟨_, rfl, ?_⟩
    simp only [pwmPeriodStart]
    split <;> exact ⟨rfl, rfl, hh, .inr ⟨by simp, rfl, rfl, rfl, rfl⟩⟩
  | pwmElapse ns =>
    refine ⟨_, rfl, ?_⟩
    simp only [pwmElapse]
    split <;> (try split) <;> exact ⟨rfl, rfl, hh, .inr ⟨by simp, rfl, rfl, rfl, rfl⟩⟩
  | hostRead width addr =>
    obtain ⟨v, h⟩ := hostRead_admitted (s := { s with pending := rest }) hb
    exact ⟨_, h, rfl, rfl, hh, .inr ⟨by simp, rfl, rfl, rfl, rfl⟩⟩
  | hostWrite width addr v =>
    obtain ⟨r, hr, h⟩ := hostWrite_admitted v (s := { s with pending := rest }) hh hb
    refine ⟨_, h, ?_⟩
    cases r with
    | arg i => fin_cases i <;> exact ⟨rfl, rfl, hh, .inr ⟨by simp, rfl, rfl, rfl, rfl⟩⟩
    | _ => exact ⟨rfl, rfl, hh, .inr ⟨by simp, rfl, rfl, rfl, rfl⟩⟩

end Sys2Proof.Machine
end

