-- ==== Sys2Proof/Tests/Slice0.lean ====
section
/-! SUPPORT. Tests: decoding of words written out from the spec's encodings, ill-formed terms, one step of each command
against the vectors of 95_test_vectors.md, and for each statement with hypotheses a witness that meets them. -/

namespace Sys2Proof.Tests

open Sys2Proof Sys2Proof.Machine

/-! ## Helpers -/

/-- The registers at the given offsets after a step, or none where the step answers no next state. -/
def regsAfter (r : Result) (offs : List Nat) : Option (List Word) :=
  match r with
  | .next t => some (offs.map t.readOffset)
  | .fault _ | .refused _ => none

/-- Whether a step answers a next state that passes a check. -/
def nextIs (r : Result) (f : State → Bool) : Bool :=
  match r with
  | .next t => f t
  | .fault _ | .refused _ => false

/-- One step that issues a command word. -/
def run (w : Nat) (s : State) : Result := step (s.withFetchWord 32 w)

/-- The state with one event pending. -/
def facing (s : State) (e : Event) : State := { s with pending := [e] }

/-- The reset state of a block with six channels. -/
def sixChannels : State := State.resetWith { Params.reference with channelsPred := 5 }

/-- The reset state while an RC read hunts. -/
def hunting : State := { State.reset with rcPhase := .hunt }

/-- The reset state after SHUTDOWN. -/
def halted : State := { State.reset with halted := true }

/-- The buffer of the spec's frame A (95_test_vectors.md, "RC frames used below"), sync byte left out. -/
def frameA : Vector Byte 31 :=
  #v[0x40, 0xDC, 0x05, 0xDC, 0x05, 0xE8, 0x03, 0xDC, 0x05, 0xE8, 0x03, 0xD0, 0x07, 0xDC, 0x05, 0xDC, 0x05, 0xDC, 0x05,
    0xDC, 0x05, 0xDC, 0x05, 0xDC, 0x05, 0xDC, 0x05, 0xDC, 0x05, 0x47, 0xF3]

/-- The state of vector PID-1: gains 0.5, 2.0, 0.25 on axis 0, e = 4.0, dt = 0.25. -/
def pidOne : State :=
  { State.reset with
    arg0 := 0x40800000, arg1 := 0x3E800000, kp := ⟨0x3F000000, 0, 0⟩, ki := ⟨0x40000000, 0, 0⟩, kd := ⟨0x3E800000, 0, 0⟩ }

/-- The state of vector MIX-1. -/
def mixOne : State :=
  { State.reset with
    arg0 := 0x3F000000, idleThr := 0x3E000000, govThr := 0x3F600000, pidOut := ⟨0xBD000000, 0x3D800000, 0x3C800000⟩ }

/-- The state of vector NORM-1 with another value v. -/
def normOf (v inMin inMax : Word) : State :=
  { State.reset with arg0 := v, arg1 := inMin, arg2 := inMax, arg3 := 0xBF800000, arg4 := 0x3F800000 }

/-- The invariant of Safety.lean as a check that runs. -/
def invCheck (s : State) : Bool :=
  decide (s.fault = true ↔ s.faultCode ≠ .none) && decide (s.fault = true → s.halted = true) &&
  decide (s.halted = true → s.pwmEn = false ∧ s.rcPhase = .idle) && decide (s.rxq.length ≤ s.params.rxFifoDepth) &&
  decide (s.rcAttempts ≤ 10 ∧ (s.rcPhase = .hunt → s.rcAttempts < 10)) &&
  decide (s.rcCount ≤ 31 ∧ (s.rcPhase = .payload → s.rcCount < 31)) &&
  Axis.all.all (fun a => fle Config.iLimitNeg (s.integ.get a) && fle (s.integ.get a) Config.iLimit
    && isFinite (s.lastErr.get a)) &&
  isFinite s.mixThr && Motor.all.all (fun m => isFinite (s.mraw.get m)) &&
  decide (∀ c : Channel, s.params.numChannels < c.number → s.ch[c] = 0) && decide (s.pwmPhase < s.params.pwmPeriodNs)

/-- The check implies the invariant. -/
theorem inv_of_invCheck {s : State} (h : invCheck s = true) : s.Inv := by
  simp only [invCheck, Bool.and_eq_true, decide_eq_true_eq, Axis.all, Motor.all, List.all_cons, List.all_nil,
    Bool.and_true] at h
  obtain ⟨⟨⟨⟨⟨⟨⟨⟨⟨⟨h1, h2⟩, h3⟩, h4⟩, h5⟩, h6⟩, h7⟩, h8⟩, h9⟩, h10⟩, h11⟩ := h
  refine ⟨h1, h2, h3, h4, h5, h6, ?_, ?_, ⟨h8, ?_⟩, h10, h11⟩
  · intro a; cases a
    · exact h7.1.1
    · exact h7.2.1.1
    · exact h7.2.2.1
  · intro a; cases a
    · exact h7.1.2
    · exact h7.2.1.2
    · exact h7.2.2.2
  · intro m; cases m
    · exact h9.1
    · exact h9.2.1
    · exact h9.2.2.1
    · exact h9.2.2.2

/-! ## Decoding (30_encoding.md rules R82, R85, R90; 95_test_vectors.md ENC-1 to ENC-13) -/

theorem test_decode_nop : decodeTableWord 32 0b00000000000000000000000000000000 = some .nop := by decide
theorem test_decode_rcRead : decodeTableWord 32 0b00000000000000000000000000000001 = some .rcRead := by decide
theorem test_decode_norm : decodeTableWord 32 0b00000000000000000000000000000010 = some .norm := by decide
/-- Bits 31:13 reserved, 12 K = 1, 11:8 CHN = 1110 (14), 7:0 OP = 0x03 (ENC-7). -/
theorem test_decode_rcNorm_dial_14 :
    decodeTableWord 32 0b00000000000000000001111000000011 = some (.rcNorm .dial 13) := by decide
/-- K = 0, CHN = 0011 (RCN-1). -/
theorem test_decode_rcNorm_default_3 :
    decodeTableWord 32 0b00000000000000000000001100000011 = some (.rcNorm .centred 2) := by decide
/-- Bits 9:8 AX = 01, 7:0 OP = 0x10 (ENC-1). -/
theorem test_decode_pidUpdate_pitch :
    decodeTableWord 32 0b00000000000000000000000100010000 = some (.pidUpdate .pitch) := by decide
/-- Bits 9:8 AX = 11, 7:0 OP = 0x11 (ENC-2). -/
theorem test_decode_pidReset_all :
    decodeTableWord 32 0b00000000000000000000001100010001 = some (.pidReset .all) := by decide
theorem test_decode_pidReset_yaw :
    decodeTableWord 32 0b00000000000000000000001000010001 = some (.pidReset (.one .yaw)) := by decide
theorem test_decode_mix : decodeTableWord 32 0b00000000000000000000000000100000 = some .mix := by decide
theorem test_decode_duty : decodeTableWord 32 0b00000000000000000000000000100001 = some .duty := by decide
theorem test_decode_forceIdle : decodeTableWord 32 0b00000000000000000000000000100010 = some .forceIdle := by decide
theorem test_decode_pwmEnable : decodeTableWord 32 0b00000000000000000000000000110000 = some .pwmEnable := by decide
theorem test_decode_pwmRelease : decodeTableWord 32 0b00000000000000000000000000110001 = some .pwmRelease := by decide
theorem test_decode_shutdown : decodeTableWord 32 0b00000000000000000000000000110010 = some .shutdown := by decide

/-- ENC-3 to ENC-6, ENC-8 to ENC-13: each illegal word, with the first check that fails. -/
theorem test_decode_rejects :
    decode 14 0x00000310 = .error .fieldValue ∧ decode 14 0x00000410 = .error .reservedBits ∧
    decode 14 0x00000003 = .error .fieldValue ∧ decode 14 0x00000F03 = .error .fieldValue ∧
    decode 6 0x00000703 = .error .fieldValue ∧ decode 14 0x00002003 = .error .reservedBits ∧
    decode 14 0x00000040 = .error .unknownOpcode ∧ decode 14 0x80000000 = .error .reservedBits ∧
    decode 14 0x00000121 = .error .reservedBits ∧ decode 14 0x00000004 = .error .unknownOpcode ∧
    decode 14 0x000000FF = .error .unknownOpcode := ⟨rfl, rfl, rfl, rfl, rfl, rfl, rfl, rfl, rfl, rfl, rfl⟩

/-- The one ill-formed kind of term: a channel above `NUM_CHANNELS` is refused, one at it is not. -/
theorem test_wf_refuses_channel :
    Instr.wf 6 (.rcNorm .centred 6) = false ∧ Instr.wf 6 (.rcNorm .centred 5) = true := by decide

/-! ## One step of each command (95_test_vectors.md L2) -/

/-- SYS-1: nothing changes but `CMD`. -/
theorem test_nop : run 0 { State.reset with cmd := 0x22 } = .next State.reset := rfl
/-- R105: BUSY is bit 0 of `STATUS`. -/
theorem test_rcRead_issue :
    regsAfter (run 1 { State.reset with rcAttempts := 7 }) [0x000, 0x004, 0x040] = some [1, 0x00000001, 0] := by decide
/-- RC-13 with k = 3: a NOP while busy is the BUSY fault, whatever the word. -/
theorem test_rcRead_abort :
    regsAfter (run 0 { hunting with rcAttempts := 3 }) [0x000, 0x004, 0x040] = some [0, 0x03000606, 0] := by decide
/-- NORM-2. -/
theorem test_norm_2 : regsAfter (run 2 (normOf 0x447A0000 0x447A0000 0x44FA0000)) [0x024] = some [0xBF800000] := by decide
/-- NORM-9: +0.0 == −0.0 is NORM_RANGE. -/
theorem test_norm_9 :
    regsAfter (run 2 (normOf 0x44BB8000 0x00000000 0x80000000)) [0x004, 0x024] = some [0x00000306, 0] := by decide
/-- RCN-6, both kinds, on channel 3. -/
theorem test_rcNorm_default :
    regsAfter (run 0x303 { State.reset with ch := State.reset.ch.set 2 1234 }) [0x024] = some [0xC254CCCD] := by decide
theorem test_rcNorm_dial :
    regsAfter (run 0x1303 { State.reset with ch := State.reset.ch.set 2 1234 }) [0x024] = some [0x41BB3333] := by decide
/-- PID-1: `PID_OUT[0]`, `RES0`, `INTEG[0]`, `LASTERR[0]`. -/
theorem test_pidUpdate_1 :
    regsAfter (run 0x10 pidOne) [0x0D0, 0x024, 0x0B0, 0x0C0] =
      some [0x41000000, 0x41000000, 0x40000000, 0x40800000] := by decide
/-- PID-8d: operands are checked before dt. -/
theorem test_pidUpdate_8d :
    regsAfter (run 0x10 { State.reset with arg0 := 0x7FC00000 }) [0x004, 0x0C0] = some [0x00000106, 0] := by decide
/-- PRS-2: axis 0 zeroed, axis 1 and `PID_OUT` kept. -/
theorem test_pidReset_roll :
    regsAfter (run 0x11 { State.reset with integ := ⟨0xBF800000, 0x3F800000, 0⟩, lastErr := ⟨0x40000000, 0x3F000000, 0⟩,
                                           pidOut := ⟨0x40000000, 0x3F000000, 0⟩ })
      [0x0B0, 0x0B4, 0x0C0, 0x0C4, 0x0D0] = some [0, 0x3F800000, 0, 0x3F000000, 0x40000000] := by decide
/-- PRS-1: all axes. -/
theorem test_pidReset_all :
    regsAfter (run 0x311 { State.reset with integ := ⟨0x40400000, 0, 0xBF800000⟩, lastErr := ⟨0x40000000, 0, 0x40800000⟩ })
      [0x0B0, 0x0B8, 0x0C0, 0x0C8] = some [0, 0, 0, 0] := by decide
/-- MIX-1: `MIX_THR`, `MRAW[0..3]`, `MOTOR[0..3]`. -/
theorem test_mix_1 :
    regsAfter (run 0x20 mixOne) [0x0E8, 0x100, 0x104, 0x108, 0x10C, 0x110, 0x114, 0x118, 0x11C] =
      some [0x3F000000, 0x3F040000, 0x3F1C0000, 0x3ED80000, 0x3EE80000, 1516622, 1616356, 1416888, 1450133] := by decide
/-- MIX-F2: an infinite `PID_OUT[2]` is NONFINITE and nothing of MIX is written. -/
theorem test_mix_F2 :
    regsAfter (run 0x20 { mixOne with pidOut := ⟨0, 0, 0x7F800000⟩ }) [0x004, 0x0E8, 0x110] =
      some [0x00000106, 0, 1000000] := by decide
/-- DUTY-5a. -/
theorem test_duty_5a : regsAfter (run 0x21 { State.reset with arg0 := 0x3E800000 }) [0x024] = some [1234042] := by decide
/-- DUTY-F7: the configuration is checked before the operand. -/
theorem test_duty_F7 :
    regsAfter (run 0x21 { State.reset with arg0 := 0x7FC00000, deadzone := 0x3F000000 }) [0x004] =
      some [0x00000406] := by decide
/-- FI-2: no check of the configuration. -/
theorem test_forceIdle_2 :
    regsAfter (run 0x22 { State.reset with dutyFloor := 2500000 }) [0x004, 0x110, 0x11C] = some [0, 2500000, 2500000] := by
  decide
/-- PWM-1: `STATUS` bit 3, and the pins rise. -/
theorem test_pwmEnable_1 :
    nextIs (run 0x30 State.reset) (fun t => t.status == 0x00000008 && t.pwmOut .rearLeft) = true := by decide
/-- PWM-3: enabled already, the period goes on. -/
theorem test_pwmEnable_3 :
    nextIs (run 0x30 { State.reset with pwmEn := true, pwmPhase := 5, motor := ⟨7, 7, 7, 7⟩ })
      (fun t => t.pwmPhase == 5 && t.activeDuty == ⟨1000000, 1000000, 1000000, 1000000⟩) = true := by decide
/-- PWM-4. -/
theorem test_pwmRelease_4 :
    nextIs (run 0x31 { State.reset with pwmEn := true }) (fun t => t.status == 0 && !t.pwmOut .frontLeft) = true := by
  decide
/-- SYS-2. -/
theorem test_shutdown_2 :
    regsAfter (run 0x32 { State.reset with pwmEn := true, motor := ⟨1516622, 1616356, 1416888, 1450133⟩ })
      [0x004, 0x110, 0x11C] = some [0x00000004, 1000000, 1000000] := by decide
/-- SYS-3: a command while halted is ignored, `CMD` included. -/
theorem test_halted_ignores : regsAfter (run 0x30 { halted with cmd := 0x32 }) [0x000, 0x004] = some [0x32, 4] := by decide

/-! ## Accesses, bytes and frames (95_test_vectors.md MEM-1 to MEM-7, RC-1, RC-2, RC-14) -/

/-- MEM-1 and MEM-2. -/
theorem test_mem_reserved :
    nextIs (step (facing State.reset (.hostRead .w32 0x008))) (fun t => t.readData == some 0 && !t.fault) = true ∧
    regsAfter (step (facing State.reset (.hostWrite .w32 0x008 5))) [0x004] = some [0x00000706] := by decide
/-- PID-8a: code 2, DT_RANGE. -/
theorem test_code_dtRange : regsAfter (run 0x10 { State.reset with arg0 := 0x3F800000 }) [0x004] = some [0x00000206] := by
  decide
/-- ENC-10: code 5, BAD_CMD, and `CMD` holds the word. -/
theorem test_code_badCmd : regsAfter (run 0x40 State.reset) [0x000, 0x004] = some [0x40, 0x00000506] := by decide
/-- The offsets of `MRAW[1]`, `MOTOR[2]` and `MOTOR[3]`, and the code Failed in `CH[0]`. -/
theorem test_register_offsets :
    [0x104, 0x118, 0x11C, 0x040].map
        { State.reset with mraw := ⟨1, 2, 3, 4⟩, motor := ⟨5, 6, 7, 8⟩, rcStatus := .failed }.readOffset =
      [2, 7, 8, 2] := by decide
/-- MEM-4 and MEM-5. -/
theorem test_mem_bad_reads :
    nextIs (step (facing State.reset (.hostRead .w8 0x004)))
      (fun t => t.readData == some 0 && t.status == 0x00000706) = true ∧
    nextIs (step (facing State.reset (.hostRead .w32 0x006)))
      (fun t => t.readData == some 0 && t.status == 0x00000706) = true := by decide
/-- MEM-6: lane 0 carries 0x00, lane 3 carries 0x3F. -/
theorem test_mem_lanes :
    regsAfter (step (facing State.reset (.hostWrite .w32 0x080 0x3F000000))) [0x080] = some [0x3F000000] ∧
    byteLane 0x3F000000 0 = 0x00 ∧ byteLane 0x3F000000 3 = 0x3F := by decide
/-- RC-14 with `RX_FIFO_DEPTH` = 1: the second byte is dropped. -/
theorem test_rxPush_overflow :
    nextIs (step { (State.resetWith { Params.reference with fifoPred := 0 }) with rxq := [0x55], pending := [.rxPush 0xAA] })
      (fun t => t.rxq == [0x55] && t.status == 0x00010010) = true := by decide
/-- RC-1 and RC-2, the validating step: frame A is New with its channels, frame A' is ChecksumError. -/
theorem test_frame_A :
    nextIs (step { State.reset with rcPhase := .payload, rcCount := 30, rcAttempts := 1, rcBuf := frameA.set 30 0,
                                    rxq := [0xF3], pending := [.rcStep] })
      (fun t => t.ch == #v[1500, 1500, 1000, 1500, 1000, 2000, 1500, 1500, 1500, 1500, 1500, 1500, 1500, 1500] &&
        t.readOffset 0x040 == 1 && t.status == 0x01000000) = true := by decide
theorem test_frame_A_flipped :
    nextIs (step { State.reset with rcPhase := .payload, rcCount := 30, rcAttempts := 1,
                                    rcBuf := (frameA.set 1 0xDD).set 30 0, rxq := [0xF3], pending := [.rcStep] })
      (fun t => t.ch == Vector.replicate 14 0 && t.readOffset 0x040 == 3) = true := by decide

/-! ## Binary32 (95_test_vectors.md NORM-6, DUTY den, PID-6; IEEE 754 corner values) -/

theorem test_fdiv_third : fdiv 0x3F800000 0x40400000 = 0x3EAAAAAB := by decide
theorem test_fsub_den : fsub 0x3F800000 (fmul 0x40000000 0x3CF5C28F) = 0x3F70A3D7 := by decide
theorem test_fadd_overflow : fadd 0x7F7FFFFF 0x7F7FFFFF = 0x7F800000 := by decide
theorem test_fmul_subnormal : fmul 0x00800000 0x3F000000 = 0x00400000 := by decide

/-! ## Witnesses: for each statement with hypotheses, states and operands that meet them, clause by clause -/

/-- The last channel a six-channel block has, 6. -/
theorem witness_DecodeOfEncode : (Instr.rcNorm .dial 5).wf 6 = true ∧ (Instr.rcNorm .dial 13).wf 14 = true := by decide

theorem witness_EncodeOfDecode :
    decode 6 0x00001603 = .ok (.rcNorm .dial 5) ∧ decode 14 0x00000311 = .ok (.pidReset .all) := ⟨rfl, rfl⟩

/-- The host's write of a word to `CMD` pending. -/
def commanding (s : State) (w : Word) : State := facing s (.hostWrite .w32 s.params.blockBase w)

theorem witness_CommandWriteIssues :
    ((commanding halted 0x30).pending = [.hostWrite .w32 halted.params.blockBase 0x30] ∧ halted.halted = true) ∧
    (hunting.halted = false ∧ hunting.busy = true) ∧
    (sixChannels.halted = false ∧ sixChannels.busy = false ∧ ¬ LegalWord sixChannels.params.numChannels 0x703) ∧
    LegalWord sixChannels.params.numChannels 0x603 := by
  unfold LegalWord; decide

theorem witness_StepRunsDecodedCommand :
    (commanding State.reset 0x20).pending = [.hostWrite .w32 (commanding State.reset 0x20).params.blockBase 0x20] ∧
    (commanding State.reset 0x20).halted = false ∧ (commanding State.reset 0x20).busy = false ∧
    decode (commanding State.reset 0x20).params.numChannels 0x20 = .ok .mix := ⟨rfl, rfl, rfl, rfl⟩

theorem witness_ReadReturnsValueOnly :
    (facing State.reset (.hostRead .w32 0x11C)).pending =
      [.hostRead .w32 (State.reset.params.blockBase + (Reg.motor .rearRight).offset)] := rfl

theorem witness_ReservedOffsetAccess :
    (ReservedOffset 0x008 ∧ ReservedOffset 0x1FC) ∧
    (facing halted (.hostRead .w32 0x008)).pending = [.hostRead .w32 (halted.params.blockBase + 0x008)] ∧
    (facing State.reset (.hostWrite .w32 0x1FC 7)).pending = [.hostWrite .w32 (State.reset.params.blockBase + 0x1FC) 7] ∧
    (facing State.reset (.hostWrite .w32 0x1FC 7)).halted = false := by
  unfold ReservedOffset; decide

theorem witness_RegisterWriteStores :
    (Reg.dutyCeil.access = .readWrite ∧ (Reg.arg 0).access = .readWrite) ∧
    (facing hunting (.hostWrite .w32 0x0F8 9)).halted = false ∧
    (facing hunting (.hostWrite .w32 0x0F8 9)).pending =
      [.hostWrite .w32 (hunting.params.blockBase + Reg.dutyCeil.offset) 9] := by decide

theorem witness_BadAccessFaults :
    ((facing State.reset (.hostRead .w8 0x004)).pending = [.hostRead .w8 (State.reset.params.blockBase + 0x004)] ∧
      State.reset.halted = false) ∧
    ((facing halted (.hostWrite .w32 0x1FF 1)).pending = [.hostWrite .w32 (halted.params.blockBase + 0x1FF) 1] ∧
      0x1FF % 4 ≠ 0 ∧ halted.halted = true) ∧
    ((Reg.motor .frontLeft).offset = 0x110 ∧ (Reg.motor .frontLeft).access = .readOnly) ∧ ReservedOffset 0x120 := by
  unfold ReservedOffset; decide

theorem witness_StepAnswersInsideWindow :
    Event.isOutside State.reset.params (.hostRead .w32 0x200) = true ∧
    Event.isOutside State.reset.params (.hostRead .w32 0x1FF) = false := by decide

theorem witness_HuntStepEffect :
    (facing hunting .rcStep).pending = [.rcStep] ∧ (facing hunting .rcStep).rcPhase = .hunt ∧
    { hunting with rxq := [0x20] }.rxq = 0x20 :: [] ∧
    ((0x55 : Byte) ≠ 0x20 ∧ { hunting with rcAttempts := 8 }.rcAttempts + 1 ≠ 10) ∧
    { hunting with rcAttempts := 9 }.rcAttempts + 1 = 10 ∧ hunting.rxq = [] := by decide

theorem witness_PayloadStepEffect :
    let s : State := facing { State.reset with rcPhase := .payload, rcCount := 29, rxq := [0x47, 0xF3] } .rcStep
    (s.pending = [.rcStep] ∧ s.rcPhase = .payload ∧ s.rcCount < 31 ∧ s.rxq = 0x47 :: [0xF3] ∧ s.rcCount + 1 ≠ 31) ∧
    { s with rxq := [] }.rxq = [] ∧ { s with rcCount := 30 }.rcCount = 30 ∧
    frameValid ((frameA.set 30 0).set 30 0xF3) = true ∧ frameValid ((frameA.set 30 0).set 30 0xF2) = false := by decide

theorem witness_ChecksumRule :
    frameValid frameA = true ∧ (0x41 : Byte) ≠ frameA[0] ∧ (0xF2 : Byte) ≠ frameA[30] ∧
    (frameA.set 30 0xE2)[29].toNat + 256 * (frameA.set 30 0xE2)[30].toNat < 58108 := by decide

theorem witness_ChannelExtraction :
    Channel.number 5 ≤ sixChannels.params.numChannels ∧ sixChannels.params.numChannels < Channel.number 6 := by decide

/-- Nine bytes before the sync byte, and none. -/
theorem witness_FrameIsDecoded :
    let s : State := { State.reset with rxq := List.replicate 9 0x55 ++ 0x20 :: (frameA.toList ++ [0x20]) }
    s.halted = false ∧ s.busy = false ∧ (List.replicate 9 (0x55 : Byte)).length ≤ 9 ∧
    (∀ b ∈ List.replicate 9 (0x55 : Byte), b ≠ 0x20) ∧ (∀ b ∈ ([] : List Byte), b ≠ 0x20) ∧
    s.rxq = List.replicate 9 0x55 ++ 0x20 :: (frameA.toList ++ [0x20]) := by decide

/-- The events of a read with a byte pushed, the host polling `STATUS` and writing `ARG0`, and the PWM generator. -/
def interleaved : List Event :=
  [.rxPush 0x20, .hostRead .w32 0x004, .hostWrite .w32 0x010 5, .pwmPeriodStart, .pwmElapse 9]
    ++ List.replicate 41 .rcStep

theorem witness_RcReadEndsWithin41Steps :
    hunting.Inv ∧ hunting.busy = true ∧ (∀ e ∈ interleaved, e.isBackground hunting.params = true) ∧
    41 ≤ interleaved.count .rcStep :=
  ⟨inv_of_invCheck (by decide), by decide, by decide, by decide⟩

/-- What ends a read early is no background step: a `CMD` write, a bad access, reset. -/
theorem test_isBackground_excludes :
    [Event.hostWrite .w32 0x000 1, .hostWrite .w32 0x004 1, .hostRead .w8 0x004, .hostRead .w32 0x200, .reset].all
      (fun e => !e.isBackground State.reset.params) = true := by decide

theorem witness_ChannelsChangeOnlyOnNew :
    let s : State := facing { hunting with rcAttempts := 9 } .rcStep
    s.pending = [.rcStep] ∧ nextIs (step s) (fun t => t.rcStatus == .failed) = true := by decide

theorem witness_ChannelsChangeOnlyOnNew_new :
    let s : State := { State.reset with rcPhase := .payload, rcCount := 30, rcBuf := frameA.set 30 0, rxq := [0xF3],
                                        pending := [.rcStep] }
    nextIs (step s) (fun t => t.ch != s.ch) = true := by decide

theorem witness_NormResult :
    let ok (s : State) := allFinite [s.arg0, s.arg1, s.arg2, s.arg3, s.arg4]
    let work (s : State) := normWork s.arg0 s.arg1 s.arg2 s.arg3 s.arg4
    let outs (w : NormWork) := allFinite [w.n, w.d, w.q, w.s, w.r0, w.r]
    (ok (normOf 0x44BB8000 0x447A0000 0x44FA0000) = true ∧ feq 0x44FA0000 0x447A0000 = false ∧
      outs (work (normOf 0x44BB8000 0x447A0000 0x44FA0000)) = true) ∧
    ok (normOf 0x7FC00000 0x447A0000 0x447A0000) = false ∧
    (ok (normOf 0x44BB8000 0x00000000 0x80000000) = true ∧ feq 0x80000000 0x00000000 = true) ∧
    (ok (normOf 0x7F7FFFFF 0xFF7FFFFF 0x7F7FFFFF) = true ∧ feq 0x7F7FFFFF 0xFF7FFFFF = false ∧
      isFinite (work (normOf 0x7F7FFFFF 0xFF7FFFFF 0x7F7FFFFF)).d = false) ∧
    (isFinite 0x00000001 = true ∧ isFinite 0x00000000 = true ∧ feq 0x00000001 0x00000000 = false) := by decide

theorem witness_RcNormResult :
    ∃ (s : State) (c : Channel) (v r1 r2 : Word), v = u32ToF32 s.ch[c].toNat ∧
      r1 = fadd 0xC2C80000 (fmul (fdiv (fsub v 0x447A0000) 0x447A0000) (fsub 0x42C80000 0xC2C80000)) ∧
      r2 = fadd 0x00000000 (fmul (fdiv (fsub v 0x447A0000) 0x447A0000) (fsub 0x42C80000 0x00000000)) :=
  ⟨{ State.reset with ch := State.reset.ch.set 13 65535 }, 13, _, _, _, rfl, rfl, rfl⟩

theorem witness_RcNormIntermediatesFinite :
    ∃ (raw : BitVec 16) (lo v a b c : Word), (lo = 0xC2C80000 ∨ lo = 0x00000000) ∧ v = u32ToF32 raw.toNat ∧
      a = fsub v 0x447A0000 ∧ b = fdiv a 0x447A0000 ∧ c = fmul b (fsub 0x42C80000 lo) :=
  ⟨0xFFFF, 0, _, _, _, _, .inr rfl, rfl, rfl, rfl, rfl⟩

/-- The operand check of PID_UPDATE on axis 0. -/
def pidOperands (s : State) : Bool := allFinite [s.arg0, s.arg1, s.kp.roll, s.ki.roll, s.kd.roll]

/-- The arithmetic of PID_UPDATE on axis 0. -/
def pidValues (s : State) : PidWork :=
  pidWork s.arg0 s.arg1 s.kp.roll s.ki.roll s.kd.roll s.integ.roll s.lastErr.roll

/-- PID-1; PID-8e; PID-8a and PID-8c; PID-8f. -/
theorem witness_PidUpdateResult :
    (pidOperands pidOne = true ∧ flt 0x00000000 pidOne.arg1 = true ∧
      allFinite [(pidValues pidOne).p, (pidValues pidOne).t1, (pidValues pidOne).t2, (pidValues pidOne).iRaw,
        (pidValues pidOne).de, (pidValues pidOne).t3, (pidValues pidOne).d] = true ∧
      allFinite [(pidValues pidOne).s, (pidValues pidOne).out] = true) ∧
    pidOperands { pidOne with kp := ⟨0x7F800000, 0, 0⟩ } = false ∧
    (pidOperands { pidOne with arg1 := 0 } = true ∧ flt 0x00000000 0x00000000 = false ∧
      flt 0x00000000 0xBE800000 = false) ∧
    (pidOperands { pidOne with arg0 := 0x7149F2CA, kp := ⟨0x7149F2CA, 0, 0⟩ } = true ∧
      isFinite (pidValues { pidOne with arg0 := 0x7149F2CA, kp := ⟨0x7149F2CA, 0, 0⟩ }).p = false) := by decide

theorem witness_PidAxisIndependence :
    nextIs (exec (.pidUpdate .roll) pidOne) (fun t => !t.fault && t.pidOut.roll == 0x41000000) = true ∧
    { pidOne with kp := ⟨pidOne.kp.roll, 0x3F800000, 0⟩ }.kp.get .roll = pidOne.kp.get .roll := by decide

/-- With `ki` = `kd` = −0.0 and with e = `LASTERR`, at the integral's upper limit. -/
theorem witness_PidCornerCases :
    let s : State := { pidOne with ki := ⟨0x80000000, 0, 0⟩, kd := ⟨0x80000000, 0, 0⟩, integ := ⟨0x43160000, 0, 0⟩ }
    nextIs (exec (.pidUpdate .roll) s) (fun t => !t.fault) = true ∧ isZero (s.ki.get .roll) = true ∧
    fle 0xC3160000 (s.integ.get .roll) = true ∧ fle (s.integ.get .roll) 0x43160000 = true ∧
    isZero (s.kd.get .roll) = true ∧ feq 0x40800000 { pidOne with lastErr := ⟨0x40800000, 0, 0⟩ }.lastErr.roll = true := by
  decide

/-- At both limits, with the smallest increments of each sign. -/
theorem witness_IntegralNeverExceeds :
    isFinite 0x00000001 = true ∧ fle 0xC3160000 0x43160000 = true ∧ fle 0x43160000 0x43160000 = true ∧
    flt 0x00000000 0x00000001 = true ∧ fle 0xC3160000 0xC3160000 = true ∧ flt 0x80000001 0x00000000 = true := by decide

/-- The increments next to ±2^-17, from the far limit. -/
theorem witness_IntegralSaturates :
    isFinite 0x37000001 = true ∧ fle 0xC3160000 0xC3160000 = true ∧ fle 0xC3160000 0x43160000 = true ∧
    flt 0x37000000 0x37000001 = true ∧ flt 0xB7000001 0xB7000000 = true := by decide

theorem witness_UpdateAfterPidReset :
    nextIs (exec (.pidReset .all) { pidOne with integ := ⟨0x40400000, 0, 0⟩, lastErr := ⟨0x40000000, 0, 0⟩ })
      (fun t => nextIs (exec (.pidUpdate .roll) t) fun u => !u.fault && u.integ.roll == 0x40000000) = true := by decide

/-- DUTY-F1, and 2^24 + 1 as the ceiling (DUTY-F5). -/
theorem witness_DutyConfigurationLegality :
    { State.reset with deadzone := 0x3F000000 }.legalDuty = false ∧
    { State.reset with dutyCeil := 16777217 }.legalDuty = false ∧
    { State.reset with deadzone := 0x80000000, dutyFloor := 16777216, dutyCeil := 16777216 }.legalDuty = true := by decide

/-- The largest legal dead zone overflows the quotient; t = 0.5 does not. -/
theorem witness_DutyResult :
    (legalDutyCfg 0x3CF5C28F 1000000 2000000 = true ∧
      allFinite [0x3F000000, fsub 0x3F000000 0x3CF5C28F,
        fdiv (fsub 0x3F000000 0x3CF5C28F) (fsub 0x3F800000 (fmul 0x40000000 0x3CF5C28F))] = true) ∧
    (legalDutyCfg 0x3EFFFFFF 1000000 2000000 = true ∧
      isFinite (fdiv (fsub 0x7F7FFFFF 0x3EFFFFFF) (fsub 0x3F800000 (fmul 0x40000000 0x3EFFFFFF))) = false) ∧
    { State.reset with deadzone := 0x3F000000 }.legalDuty = false := by decide

theorem witness_ShapeWithinBounds :
    legalDutyCfg 0x00000000 0 16777216 = true ∧ isFinite 0x3F000000 = true ∧
    shape 0x00000000 0 16777216 0x3F000000 = some 8388608 := by decide

theorem witness_ShapeMonotone :
    legalDutyCfg 0x3CF5C28F 1000000 2000000 = true ∧ fle 0x3E800000 0x3F400000 = true ∧
    shape 0x3CF5C28F 1000000 2000000 0x3E800000 = some 1234042 ∧
    shape 0x3CF5C28F 1000000 2000000 0x3F400000 = some 1765957 := by decide

/-- t = z, and t = 1.0. -/
theorem witness_ShapeDeadZones :
    (fle 0x3CF5C28F 0x3CF5C28F = true ∧ shape 0x3CF5C28F 1000000 2000000 0x3CF5C28F = some 1000000) ∧
    (fle 0x3F800000 0x3F800000 = true ∧ shape 0x3CF5C28F 1000000 2000000 0x3F800000 = some 2000000) := by decide

/-- MIX-1 completes; an infinite operand, an overflowing sum and an overflowing quotient of `Shape`. -/
theorem witness_MixResult :
    (mixOne.legalDuty = true ∧ nextIs (exec .mix mixOne) (fun t => !t.fault) = true) ∧
    isFinite { mixOne with pidOut := ⟨0, 0, 0x7F800000⟩ }.pidOut.yaw = false ∧
    isFinite (mixWork 0x7F61B1E6 0 0x7F61B1E6 0).a = false ∧
    { mixOne with deadzone := 0x3EFFFFFF }.legalDuty = true ∧ shape 0x3EFFFFFF 1000000 2000000 0x7F61B1E6 = none := by
  decide

theorem witness_MixMotorProperties :
    nextIs (exec .mix { mixOne with pidOut := ⟨0, 0x80000000, 0⟩ }) (fun t => !t.fault) = true ∧
    isZero 0x80000000 = true := by decide

/-- A MIX with no throttle and no correction: four raw commands of +0.0, at or below the dead zone. -/
theorem witness_ForceIdleMatchesShape :
    State.reset.legalDuty = true ∧ nextIs (exec .forceIdle State.reset) (fun _ => true) = true ∧
    nextIs (exec .mix State.reset)
      (fun t => !t.fault && Motor.all.all fun m => fle (t.mraw.get m) State.reset.deadzone) = true := by decide

theorem witness_SystemCommandEffects :
    State.reset.pwmEn = false ∧ { State.reset with pwmEn := true }.pwmEn = true := by decide

theorem witness_PeriodStartLatches :
    (facing { State.reset with pwmEn := true } .pwmPeriodStart).pending = [.pwmPeriodStart] ∧
    (facing { State.reset with pwmEn := true } .pwmPeriodStart).pwmEn = true ∧
    (facing State.reset .pwmPeriodStart).pwmEn = false := by decide

theorem witness_PwmWaveform :
    let s : State := { State.reset with pwmEn := true, pwmPhase := 16777216 }
    s.pwmEn = true ∧ 16777216 < s.params.pwmPeriodNs ∧ s.pwmPhase + 1 = s.params.pwmPeriodNs := by decide

theorem witness_ReleasedOutputsLow :
    State.reset.pwmEn = false ∧ (facing State.reset (.pwmElapse 5)).pending = [.pwmElapse 5] ∧
    ((facing State.reset (.hostRead .w8 0)).fault = false ∧
      nextIs (step (facing State.reset (.hostRead .w8 0))) (fun t => t.fault) = true) ∧
    (commanding State.reset 0x32).nextInstr = some .shutdown ∧
    (commanding State.reset 0x31).nextInstr = some .pwmRelease := by decide

theorem witness_PwmGeneratorFrame :
    (facing { State.reset with pwmEn := true } (.pwmElapse 16777217)).pending = [.pwmElapse 16777217] ∧
    { State.reset with pwmEn := true, cmd := 5 }.motor = State.reset.motor := by decide

theorem witness_RxPushEffect :
    let full : State := { State.reset with rxq := List.replicate 64 0 }
    (facing State.reset (.rxPush 0x20)).rxq.length < State.reset.params.rxFifoDepth ∧
    full.params.rxFifoDepth ≤ full.rxq.length := by decide

theorem witness_StatusFields :
    State.reset.rcAttempts ≤ 10 ∧ { State.reset with rcAttempts := 10 }.rcAttempts ≤ 10 := by decide

/-- A command that faults, a bad read and a bad write. -/
theorem witness_FaultsArePrecise :
    let faults (s : State) := !s.fault && nextIs (step s) (fun t => t.fault)
    faults (commanding State.reset 0x10) = true ∧ faults (facing State.reset (.hostRead .w64 0x004)) = true ∧
    faults (facing State.reset (.hostWrite .w32 0x004 0)) = true := by decide

theorem witness_FaultCauses :
    let code (r : Result) (c : FaultCode) := nextIs r (fun t => t.fault && t.faultCode == c)
    State.reset.fault = false ∧ code (exec (.pidUpdate .yaw) State.reset) .dtRange = true ∧
    code (exec .norm State.reset) .normRange = true ∧
    code (exec .duty { State.reset with arg0 := 0x7F800000 }) .nonfinite = true ∧
    code (exec .mix { State.reset with dutyFloor := 2000001 }) .dutyCfg = true := by decide

theorem witness_HaltedIsSticky :
    (invCheck (facing halted (.rxPush 7)) = true ∧ halted.halted = true) ∧
    (invCheck (commanding State.reset 0x32) = true ∧
      nextIs (step (commanding State.reset 0x32)) (fun t => t.halted && !t.fault) = true) ∧
    (facing halted (.hostWrite .w64 0x1FF 7)).pending = [.hostWrite .w64 (halted.params.blockBase + 0x1FF) 7] := by decide

/-- One step for each clause: a stored word, a result, a PID state, raw commands and duties, and a step that is no host
write. -/
theorem witness_RegisterWriters :
    let after (s : State) (w : Word) (f : State → Bool) := nextIs (step (commanding s w)) f
    after State.reset 0x31 (fun t => t.cmd != 0) = true ∧ after pidOne 0x10 (fun t => t.res0 != 0) = true ∧
    after pidOne 0x10 (fun t => t.integ != pidOne.integ && t.lastErr != pidOne.lastErr) = true ∧
    after mixOne 0x20 (fun t => t.mraw != mixOne.mraw && t.mixThr != 0 && t.motor != mixOne.motor) = true ∧
    after { State.reset with dutyFloor := 5 } 0x22 (fun t => t.motor != State.reset.motor) = true ∧
    nextIs (step (facing hunting .rcStep)) (fun _ => true) = true := by decide

theorem witness_ResetGivesResetValues :
    (facing halted .reset).pending = [.reset] ∧ invCheck (facing { halted with rxOvr := true } .rcStep) = true ∧
    nextIs (step (facing { halted with rxOvr := true } .rcStep)) (fun t => t.halted && t.rxOvr) = true := by decide

theorem witness_EveryStepKeepsTheInvariant :
    (facing hunting .rcStep).Inv ∧ nextIs (step (facing hunting .rcStep)) (fun t => t.rcAttempts == 1) = true :=
  ⟨inv_of_invCheck (by decide), by decide⟩

theorem witness_ParametersFixedAndUntimed : nextIs (step (facing hunting .rcStep)) (fun _ => true) = true := by decide

/-- One byte of the payload written, the next different: the written byte agrees. -/
theorem witness_UnwrittenBufferUnobservable :
    let s : State := { State.reset with rcPhase := .payload, rcCount := 1, rcBuf := frameA }
    let t : State := { s with rcBuf := frameA.set 1 0xDD }
    SameButUnreadBuf s t ∧ s ≠ t := by
  unfold SameButUnreadBuf; decide

/-- Subnormals, the largest finite value, and a negative zero; a nonzero divisor. -/
theorem witness_AddSubRoundNearestEven : isFinite 0x00000001 = true ∧ isFinite 0x7F7FFFFF = true := by decide

theorem witness_MulDivRoundNearestEven :
    isFinite 0x80000000 = true ∧ isFinite 0x00000001 = true ∧ isZero 0x00000001 = false := by decide

theorem witness_IntegerConversionsExact :
    isFinite 0x4F7FFFFF = true ∧ 0 ≤ exactUnits 0x4F7FFFFF ∧ exactUnits 0x4F7FFFFF < 2 ^ 32 * 2 ^ 149 := by decide

theorem witness_ComparisonsAreExact :
    isFinite 0x80000000 = true ∧ isFinite 0x00000000 = true ∧ isNaN 0x7F800001 = true ∧ isNaN 0x7F800000 = false := by
  decide

end Sys2Proof.Tests
end

section
/-! Binary32 arithmetic and its exact values: the fields of a packed pattern, the rounding of a magnitude as nearest
value and at the overflow midpoint, and from them the statements about rounding, conversions and comparisons. -/

namespace Sys2Proof.Machine

/-! ## Signed magnitudes -/

/-- The integer of a sign and a magnitude, the form of `exactUnits` and `orderKey`. -/
def withSign (neg : Bool) (n : Nat) : Int := if neg then -(n : Int) else n

theorem exactUnits_eq_withSign (x : Word) : exactUnits x = withSign (signBit x) (units x) := rfl

theorem orderKey_eq_withSign (x : Word) : orderKey x = withSign (signBit x) (magBits x) := rfl

@[simp] theorem withSign_zero (neg : Bool) : withSign neg 0 = 0 := by cases neg <;> rfl

@[simp] theorem natAbs_withSign (neg : Bool) (n : Nat) : (withSign neg n).natAbs = n := by
  cases neg <;> simp [withSign]

theorem withSign_natAbs (v : Int) : withSign (decide (v < 0)) v.natAbs = v := by
  rcases lt_or_ge v 0 with h | h
  · simp [withSign, h, abs_of_neg]
  · simp [withSign, h, not_lt.mpr h]

theorem withSign_not (neg : Bool) (n : Nat) : withSign (!neg) n = -withSign neg n := by
  cases neg <;> simp [withSign]

theorem withSign_mul (s t : Bool) (m n : Nat) : withSign s m * withSign t n = withSign (s != t) (m * n) := by
  cases s <;> cases t <;> simp [withSign]

theorem withSign_mul_natCast (s : Bool) (m n : Nat) : withSign s m * (n : Int) = withSign s (m * n) := by
  simpa only [withSign, Bool.false_eq_true, if_false, Bool.bne_false] using withSign_mul s false m n

theorem sign_withSign (neg : Bool) {n : Nat} (hn : 0 < n) : (withSign neg n).sign = withSign neg 1 := by
  cases neg
  · exact Int.sign_eq_one_of_pos (by simpa [withSign] using hn)
  · exact Int.sign_eq_neg_one_of_neg (by simpa [withSign] using hn)

theorem withSign_neg_iff (neg : Bool) {n : Nat} (hn : 0 < n) : withSign neg n < 0 ↔ neg = true := by
  unfold withSign
  cases neg <;> simp
  omega

/-- The distance of two magnitudes is at most the distance of signed values that have them. -/
theorem natAbs_sub_le_withSign (s t : Bool) (m n : Nat) :
    ((m : Int) - n).natAbs ≤ (withSign s m - withSign t n).natAbs := by
  unfold withSign
  split <;> split <;> omega

theorem natAbs_withSign_sub (s : Bool) (m n : Nat) :
    (withSign s m - withSign s n).natAbs = ((m : Int) - n).natAbs := by
  unfold withSign
  split <;> omega

/-- A magnitude `m` no farther from `n` than zero is, and as near to `n` under any signs, has the sign of `n` or
is 0. -/
theorem withSign_eq_of_natAbs_sub_eq (s t : Bool) {m n : Nat} (hzero : ((m : Int) - n).natAbs ≤ n)
    (heq : ((m : Int) - n).natAbs = (withSign s m - withSign t n).natAbs) : withSign s m = withSign t m := by
  rcases eq_or_ne s t with rfl | hne
  · rfl
  · have hm : m = 0 := by
      obtain rfl : t = !s := Bool.eq_not.mpr hne.symm
      rw [withSign_not] at heq
      unfold withSign at heq
      split at heq <;> omega
    simp [hm]

/-- Signs keep the order that a strictly increasing scale with `f 0 = 0` gives to magnitudes. -/
theorem withSign_map_lt_iff {f : Nat → Nat} (hf : StrictMono f) (h0 : f 0 = 0) (s t : Bool) (m n : Nat) :
    withSign s (f m) < withSign t (f n) ↔ withSign s m < withSign t n := by
  have hmn := hf.lt_iff_lt (a := m) (b := n)
  have hnm := hf.lt_iff_lt (a := n) (b := m)
  have hm := hf.lt_iff_lt (a := 0) (b := m)
  have hn := hf.lt_iff_lt (a := 0) (b := n)
  unfold withSign
  split <;> split <;> omega

/-! ## The fields of a pattern -/

theorem magBits_lt (x : Word) : magBits x < 2 ^ 31 := Nat.mod_lt _ (by decide)

theorem toNat_pack {neg : Bool} {m : Nat} (hm : m < 2 ^ 31) :
    (pack neg m).toNat = if neg then 2 ^ 31 + m else m := by
  rw [pack, BitVec.toNat_ofNat, Nat.mod_eq_of_lt]
  split <;> omega

theorem magBits_pack {neg : Bool} {m : Nat} (hm : m < 2 ^ 31) : magBits (pack neg m) = m := by
  rw [magBits, toNat_pack hm]
  split <;> omega

theorem signBit_pack {neg : Bool} {m : Nat} (hm : m < 2 ^ 31) : signBit (pack neg m) = neg := by
  rw [signBit, toNat_pack hm]
  cases neg <;> simp
  omega

theorem isFinite_iff {x : Word} : isFinite x = true ↔ magBits x < infMag := by simp [isFinite]

theorem isNaN_eq_false_of_isFinite {x : Word} (h : isFinite x = true) : isNaN x = false := by
  have := isFinite_iff.mp h
  simp [isNaN]
  omega

theorem isInf_eq_false_of_isFinite {x : Word} (h : isFinite x = true) : isInf x = false := by
  have := isFinite_iff.mp h
  simp [isInf]
  omega

theorem roundMag_lt (n d : Nat) : roundMag n d < 2 ^ 31 := lt_of_le_of_lt (roundMag_le_inf n d) (by decide)

@[simp] theorem magBits_fneg (x : Word) : magBits (fneg x) = magBits x := magBits_pack (magBits_lt x)

@[simp] theorem signBit_fneg (x : Word) : signBit (fneg x) = !signBit x := signBit_pack (magBits_lt x)

@[simp] theorem isFinite_fneg (x : Word) : isFinite (fneg x) = isFinite x := by simp [isFinite]

@[simp] theorem exactUnits_fneg (x : Word) : exactUnits (fneg x) = -exactUnits x := by
  simp [exactUnits_eq_withSign, units, withSign_not]

theorem units_pos_of_isZero_eq_false {x : Word} (h : isZero x = false) : 0 < units x := by
  have h0 : 0 < magBits x := by
    simp [isZero] at h
    omega
  exact unitsOfMag_strictMono h0

/-! ## `roundMag` takes the nearest value, and the infinity from the midpoint on -/

/-- The value above the significand `v` is at least one step of `2 ^ k` away. -/
theorem le_unitsOfMag_of_lt {k v m : Nat} (hk : k = 0 ∨ 2 ^ 23 ≤ v) (hv : v ≤ 2 ^ 24) (h : k * 2 ^ 23 + v < m) :
    (v + 1) * 2 ^ k ≤ unitsOfMag m := by
  have hm : unitsOfMag (k * 2 ^ 23 + v + 1) ≤ unitsOfMag m := unitsOfMag_strictMono.monotone h
  refine le_trans ?_ hm
  rcases Nat.lt_or_eq_of_le hv with hlt | rfl
  · rw [Nat.add_assoc, unitsOfMag_parts (by omega) (by omega)]
  · rw [show k * 2 ^ 23 + 2 ^ 24 + 1 = (k + 1) * 2 ^ 23 + (2 ^ 23 + 1) by ring, unitsOfMag_parts (by omega) (by omega),
      pow_succ]
    omega

/-- The value below the significand `v` is at least one step of `2 ^ k` away, except at the least significand of an
exponent, where the step below is half as large. -/
theorem unitsOfMag_le_of_lt {k v m : Nat} (hk : k = 0 ∨ 2 ^ 23 < v) (hv : v ≤ 2 ^ 24) (h : m < k * 2 ^ 23 + v) :
    unitsOfMag m + 2 ^ k ≤ v * 2 ^ k := by
  obtain ⟨w, rfl⟩ : ∃ w, v = w + 1 := ⟨v - 1, by omega⟩
  have hm : unitsOfMag m ≤ unitsOfMag (k * 2 ^ 23 + w) := unitsOfMag_strictMono.monotone (by omega)
  rw [unitsOfMag_parts (by omega) (by omega)] at hm
  rw [Nat.succ_mul]
  omega

/-- A finite rounding has a step `p` around it: the rounded value lies within half a step, an exact half goes to an even
field, and every other value is a step away or on the far side. -/
theorem roundMag_step {n d : Nat} (hd : 0 < d) (hfin : roundMag n d < infMag) :
    ∃ p, 2 * (unitsOfMag (roundMag n d) * d) ≤ 2 * n + p ∧ 2 * n ≤ 2 * (unitsOfMag (roundMag n d) * d) + p ∧
      (2 * (unitsOfMag (roundMag n d) * d) = 2 * n + p ∨ 2 * n = 2 * (unitsOfMag (roundMag n d) * d) + p →
        roundMag n d % 2 = 0) ∧
      (∀ m, roundMag n d < m → unitsOfMag (roundMag n d) * d + p ≤ unitsOfMag m * d) ∧
      (∀ m, m < roundMag n d → unitsOfMag m * d + p ≤ unitsOfMag (roundMag n d) * d ∨
        (unitsOfMag m * d < unitsOfMag (roundMag n d) * d ∧ unitsOfMag (roundMag n d) * d ≤ n)) := by
  obtain ⟨k, hr, hlt, hge⟩ := roundMag_parts (n := n) hd
  have hp : 0 < d * 2 ^ k := by positivity
  have hhalf := rneDiv_half (n := n) hp
  have heven := rneDiv_tie_even (n := n) hp
  have hq24 : rneDiv n (d * 2 ^ k) ≤ 2 ^ 24 := rneDiv_le hp hlt.le
  have hq23 : k = 0 ∨ 2 ^ 23 ≤ rneDiv n (d * 2 ^ k) := hge.imp id (le_rneDiv hp)
  rw [hr] at hfin
  rw [hr, min_eq_left (by omega)]
  clear hr hfin
  generalize rneDiv n (d * 2 ^ k) = q at *
  rw [unitsOfMag_parts hq23 hq24]
  have hx : q * 2 ^ k * d = d * 2 ^ k * q := by ring
  refine ⟨d * 2 ^ k, by omega, by omega, fun htie => ?_, fun m hm => ?_, fun m hm => ?_⟩
  · have := heven (by omega)
    omega
  · calc q * 2 ^ k * d + d * 2 ^ k = (q + 1) * 2 ^ k * d := by ring
      _ ≤ unitsOfMag m * d := Nat.mul_le_mul_right _ (le_unitsOfMag_of_lt hq23 hq24 hm)
  · by_cases hlow : k = 0 ∨ 2 ^ 23 < q
    · left
      calc unitsOfMag m * d + d * 2 ^ k = (unitsOfMag m + 2 ^ k) * d := by ring
        _ ≤ q * 2 ^ k * d := Nat.mul_le_mul_right _ (unitsOfMag_le_of_lt hlow hq24 hm)
    · right
      obtain rfl : q = 2 ^ 23 := by omega
      have hum := unitsOfMag_strictMono hm
      rw [unitsOfMag_parts hq23 hq24] at hum
      exact ⟨Nat.mul_lt_mul_of_pos_right hum hd, by omega⟩

/-- No magnitude is nearer to `n / d` than its finite rounding, and one equally near is the rounding itself or leaves it
the even field. -/
theorem roundMag_nearest {n d : Nat} (hd : 0 < d) (hfin : roundMag n d < infMag) (m : Nat) :
    (((unitsOfMag (roundMag n d) * d : Nat) : Int) - n).natAbs ≤ (((unitsOfMag m * d : Nat) : Int) - n).natAbs ∧
    ((((unitsOfMag (roundMag n d) * d : Nat) : Int) - n).natAbs = (((unitsOfMag m * d : Nat) : Int) - n).natAbs →
      m = roundMag n d ∨ roundMag n d % 2 = 0) := by
  obtain ⟨p, hle, hge, htie, habove, hbelow⟩ := roundMag_step hd hfin
  rcases lt_trichotomy m (roundMag n d) with hm | rfl | hm
  · have := hbelow m hm
    omega
  · exact ⟨le_rfl, fun _ => .inl rfl⟩
  · have := habove m hm
    omega

/-- The midpoint of the largest finite value and 2^128 is a tie, and the even field is the infinity. -/
theorem roundMag_overflowMidpoint : roundMag ((2 ^ 25 - 1) * 2 ^ 252) 1 = infMag := by decide

theorem roundMag_lt_infMag_of_lt {n d : Nat} (hd : 0 < d) (h : n < d * ((2 ^ 25 - 1) * 2 ^ 252)) :
    roundMag n d < infMag := by
  obtain ⟨k, hr, hlt, hge⟩ := roundMag_parts (n := n) hd
  have hp : 0 < d * 2 ^ k := by positivity
  have hq24 : rneDiv n (d * 2 ^ k) ≤ 2 ^ 24 := rneDiv_le hp hlt.le
  have hinf : infMag = 253 * 2 ^ 23 + 2 ^ 24 := rfl
  rw [hr]
  rcases lt_trichotomy k 253 with hk | rfl | hk
  · omega
  · have hq : rneDiv n (d * 2 ^ 253) ≠ 2 ^ 24 := by
      intro hq
      have hhalf := (rneDiv_half (n := n) hp).1
      rw [hq] at hhalf
      omega
    omega
  · exfalso
    have hk' : d * 2 ^ 254 ≤ d * 2 ^ k := Nat.mul_le_mul_left _ (Nat.pow_le_pow_right (by decide) hk)
    omega

/-- The rounding is finite exactly below the midpoint 2^128 - 2^103 of the largest finite value and 2^128. -/
theorem roundMag_lt_infMag_iff {n d : Nat} (hd : 0 < d) :
    roundMag n d < infMag ↔ n < d * (2 ^ 277 - 2 ^ 252) := by
  have hmid : 2 ^ 277 - 2 ^ 252 = (2 ^ 25 - 1) * 2 ^ 252 := by
    rw [show 277 = 25 + 252 from rfl, pow_add, Nat.sub_mul, Nat.one_mul]
  rw [hmid]
  refine ⟨fun hfin => ?_, roundMag_lt_infMag_of_lt hd⟩
  by_contra hge
  have hmono := roundMag_mono (n := (2 ^ 25 - 1) * 2 ^ 252) (d := 1) (n' := n) one_pos hd (by
    rw [Nat.mul_one, Nat.mul_comm]
    exact not_lt.mp hge)
  rw [roundMag_overflowMidpoint] at hmono
  omega

/-! ## The packed rounding is the binary32 rounding -/

theorem isFinite_pack_roundMag (neg : Bool) (n d : Nat) :
    isFinite (pack neg (roundMag n d)) = true ↔ roundMag n d < infMag := by
  rw [isFinite_iff, magBits_pack (roundMag_lt n d)]

theorem exactUnits_pack_roundMag (neg : Bool) (n d : Nat) :
    exactUnits (pack neg (roundMag n d)) = withSign neg (unitsOfMag (roundMag n d)) := by
  rw [exactUnits_eq_withSign, units, magBits_pack (roundMag_lt n d), signBit_pack (roundMag_lt n d)]

theorem isNearestEven_pack_roundMag (neg : Bool) {n d : Nat} (hd : 0 < d) (hfin : roundMag n d < infMag) :
    IsNearestEven (withSign neg n) d (pack neg (roundMag n d)) := by
  intro c _
  obtain ⟨hle, htie⟩ := roundMag_nearest hd hfin (magBits c)
  have hc := natAbs_sub_le_withSign (signBit c) neg (units c * d) n
  rw [exactUnits_pack_roundMag, magBits_pack (roundMag_lt n d), exactUnits_eq_withSign c, withSign_mul_natCast,
    withSign_mul_natCast, natAbs_withSign_sub]
  refine ⟨le_trans hle hc, fun heq => ?_⟩
  rcases htie (le_antisymm hle (heq ▸ hc)) with hm | heven
  · left
    have hunits : units c = unitsOfMag (roundMag n d) := by rw [units, hm]
    have hzero := (roundMag_nearest hd hfin 0).1
    simp only [unitsOfMag_zero, Nat.zero_mul] at hzero
    rw [hunits] at heq ⊢
    have hcancel := withSign_eq_of_natAbs_sub_eq (signBit c) neg (by omega) heq
    rw [← withSign_mul_natCast, ← withSign_mul_natCast] at hcancel
    exact mul_right_cancel₀ (by omega) hcancel
  · exact .inr heven

/-- The sign with the rounded magnitude is the rounding of the signed rational. -/
theorem roundsTo_pack_roundMag (neg : Bool) (n : Nat) {d : Nat} (hd : 0 < d) :
    RoundsTo (withSign neg n) d (pack neg (roundMag n d)) := by
  refine ⟨?_, fun hfin => ?_, fun hinf => ?_⟩
  · rw [isFinite_pack_roundMag, natAbs_withSign]
    exact roundMag_lt_infMag_iff hd
  · exact isNearestEven_pack_roundMag neg hd ((isFinite_pack_roundMag neg n d).mp hfin)
  · have hge : ¬ roundMag n d < infMag := by
      rw [← isFinite_pack_roundMag neg, hinf]
      decide
    have hm : roundMag n d = infMag := le_antisymm (roundMag_le_inf n d) (not_lt.mp hge)
    have hn : 0 < n := by
      by_contra h0
      have hle : roundMag n d ≤ 0 := roundMag_le_of_le hd (Nat.zero_le _) (by omega)
      exact hge (lt_of_le_of_lt hle (by decide))
    rw [signBit_pack (roundMag_lt n d), withSign_neg_iff neg hn, isInf, magBits_pack (roundMag_lt n d), hm]
    simp

/-! ## The operations on finite operands -/

theorem addCore_of_isFinite (op : FloatOp) {a b : Word} (ha : isFinite a = true) (hb : isFinite b = true) :
    addCore op a b =
      if exactUnits a + exactUnits b = 0 then pack (signBit a && signBit b) 0
      else pack (decide (exactUnits a + exactUnits b < 0)) (roundMag (exactUnits a + exactUnits b).natAbs 1) := by
  simp [addCore, isInf_eq_false_of_isFinite ha, isInf_eq_false_of_isFinite hb]

theorem fadd_of_isFinite {a b : Word} (ha : isFinite a = true) (hb : isFinite b = true) :
    fadd a b = addCore .add a b := by
  simp [fadd, isNaN_eq_false_of_isFinite ha, isNaN_eq_false_of_isFinite hb]

theorem fsub_of_isFinite {a b : Word} (ha : isFinite a = true) (hb : isFinite b = true) :
    fsub a b = addCore .sub a (fneg b) := by
  simp [fsub, isNaN_eq_false_of_isFinite ha, isNaN_eq_false_of_isFinite hb]

theorem fmul_of_isFinite {a b : Word} (ha : isFinite a = true) (hb : isFinite b = true) :
    fmul a b = pack (signBit a != signBit b) (roundMag (units a * units b) (2 ^ 149)) := by
  simp [fmul, isNaN_eq_false_of_isFinite ha, isNaN_eq_false_of_isFinite hb, isInf_eq_false_of_isFinite ha,
    isInf_eq_false_of_isFinite hb]

theorem fdiv_of_isFinite {a b : Word} (ha : isFinite a = true) (hb : isFinite b = true) (hz : isZero b = false) :
    fdiv a b = pack (signBit a != signBit b) (roundMag (units a * 2 ^ 149) (units b)) := by
  simp [fdiv, isNaN_eq_false_of_isFinite ha, isNaN_eq_false_of_isFinite hb, isInf_eq_false_of_isFinite ha,
    isInf_eq_false_of_isFinite hb, hz]

theorem roundMag_zero_one : roundMag 0 1 = 0 := by decide

theorem roundsTo_addCore (op : FloatOp) {a b : Word} (ha : isFinite a = true) (hb : isFinite b = true) :
    RoundsTo (exactUnits a + exactUnits b) 1 (addCore op a b) := by
  rw [addCore_of_isFinite op ha hb]
  split
  case isTrue h =>
    have hround := roundsTo_pack_roundMag (signBit a && signBit b) 0 one_pos
    rwa [roundMag_zero_one, withSign_zero, ← h] at hround
  case isFalse h =>
    have hround := roundsTo_pack_roundMag (decide (exactUnits a + exactUnits b < 0))
      (exactUnits a + exactUnits b).natAbs one_pos
    rwa [withSign_natAbs] at hround

theorem signBit_addCore_iff (op : FloatOp) {a b : Word} (ha : isFinite a = true) (hb : isFinite b = true) :
    signBit (addCore op a b) = true ↔
      exactUnits a + exactUnits b < 0 ∨ (exactUnits a + exactUnits b = 0 ∧ signBit a = true ∧ signBit b = true) := by
  rw [addCore_of_isFinite op ha hb]
  split
  case isTrue h => rw [signBit_pack (by decide)]; simp [h]
  case isFalse h => rw [signBit_pack (roundMag_lt _ _)]; simp [h]

/-- Settles O57: both are `addCore`, which rounds the exact sum once. -/
theorem addSubRoundNearestEven : Obligations.AddSubRoundNearestEven := by
  unfold Obligations.AddSubRoundNearestEven
  intro a b ha hb
  have hnb : isFinite (fneg b) = true := by rwa [isFinite_fneg]
  have hround := roundsTo_addCore .sub ha hnb
  have hsign := signBit_addCore_iff .sub ha hnb
  rw [exactUnits_fneg, ← sub_eq_add_neg] at hround hsign
  rw [signBit_fneg, Bool.not_eq_true'] at hsign
  rw [fadd_of_isFinite ha hb, fsub_of_isFinite ha hb]
  exact ⟨roundsTo_addCore .add ha hb, signBit_addCore_iff .add ha hb, hround, hsign⟩

theorem roundsTo_fmul {a b : Word} (ha : isFinite a = true) (hb : isFinite b = true) :
    RoundsTo (exactUnits a * exactUnits b) (2 ^ 149) (fmul a b) := by
  rw [fmul_of_isFinite ha hb, exactUnits_eq_withSign a, exactUnits_eq_withSign b, withSign_mul]
  exact roundsTo_pack_roundMag _ _ (by positivity)

theorem roundsTo_fdiv {a b : Word} (ha : isFinite a = true) (hb : isFinite b = true) (hz : isZero b = false) :
    RoundsTo (exactUnits a * 2 ^ 149 * (exactUnits b).sign) (units b) (fdiv a b) := by
  have hpos := units_pos_of_isZero_eq_false hz
  have hnum : exactUnits a * 2 ^ 149 * (exactUnits b).sign =
      withSign (signBit a != signBit b) (units a * 2 ^ 149) := by
    rw [exactUnits_eq_withSign a, exactUnits_eq_withSign b, sign_withSign _ hpos,
      show (2 : Int) ^ 149 = ((2 ^ 149 : Nat) : Int) by norm_num, withSign_mul_natCast, withSign_mul, Nat.mul_one]
  rw [hnum, fdiv_of_isFinite ha hb hz]
  exact roundsTo_pack_roundMag _ _ hpos

/-- Settles O58: the numerator carries the exclusive or of the signs, and the packed rounding keeps that sign. -/
theorem mulDivRoundNearestEven : Obligations.MulDivRoundNearestEven := by
  unfold Obligations.MulDivRoundNearestEven
  intro a b ha hb
  refine ⟨roundsTo_fmul ha hb, ?_, fun hz => ⟨roundsTo_fdiv ha hb hz, ?_⟩⟩
  · rw [fmul_of_isFinite ha hb, signBit_pack (roundMag_lt _ _)]
  · rw [fdiv_of_isFinite ha hb hz, signBit_pack (roundMag_lt _ _)]

/-! ## Conversions -/

theorem exists_shift_to_significand {n : Nat} (hpos : 0 < n) (hn : n ≤ 2 ^ 24) :
    ∃ j ≤ 23, 2 ^ 23 ≤ n * 2 ^ j ∧ n * 2 ^ j ≤ 2 ^ 24 := by
  rcases Nat.lt_or_eq_of_le hn with hlt | rfl
  · have hlog : Nat.log2 n < 24 := (Nat.log2_lt hpos.ne').mpr hlt
    refine ⟨23 - Nat.log2 n, by omega, ?_, ?_⟩
    · calc 2 ^ 23 = 2 ^ Nat.log2 n * 2 ^ (23 - Nat.log2 n) := by rw [← pow_add, Nat.add_sub_cancel' (by omega)]
        _ ≤ n * 2 ^ (23 - Nat.log2 n) := Nat.mul_le_mul_right _ (Nat.log2_self_le hpos.ne')
    · calc n * 2 ^ (23 - Nat.log2 n) ≤ 2 ^ (Nat.log2 n + 1) * 2 ^ (23 - Nat.log2 n) :=
          Nat.mul_le_mul_right _ Nat.lt_log2_self.le
        _ = 2 ^ 24 := by rw [← pow_add, show Nat.log2 n + 1 + (23 - Nat.log2 n) = 24 by omega]
  · exact ⟨0, by decide, by decide, by decide⟩

/-- Every integer up to 2^24 has a finite magnitude field. -/
theorem exists_mag_of_le {n : Nat} (hn : n ≤ 2 ^ 24) : ∃ m, m < infMag ∧ unitsOfMag m = n * 2 ^ 149 := by
  rcases Nat.eq_zero_or_pos n with rfl | hpos
  · exact ⟨0, by decide, by rw [unitsOfMag_zero, Nat.zero_mul]⟩
  · obtain ⟨j, hj, hlow, hhigh⟩ := exists_shift_to_significand hpos hn
    refine ⟨(149 - j) * 2 ^ 23 + n * 2 ^ j, ?_, ?_⟩
    · have hinf : infMag = 253 * 2 ^ 23 + 2 ^ 24 := rfl
      omega
    · rw [unitsOfMag_parts (.inr hlow) hhigh, Nat.mul_assoc, ← pow_add, Nat.add_sub_cancel' (by omega)]

theorem toNat_f32ToU32Trunc {x : Word} (h : units x < 2 ^ 32 * 2 ^ 149) :
    (f32ToU32Trunc x).toNat = units x / 2 ^ 149 := by
  rw [f32ToU32Trunc, BitVec.toNat_ofNat, Nat.mod_eq_of_lt]
  omega

theorem u32ToF32_exact {n : Nat} (hn : n ≤ 2 ^ 24) :
    isFinite (u32ToF32 n) = true ∧ signBit (u32ToF32 n) = false ∧ units (u32ToF32 n) = n * 2 ^ 149 := by
  obtain ⟨m, hm, hu⟩ := exists_mag_of_le hn
  have hround : roundMag (n * 2 ^ 149) 1 = m := by
    rw [← hu, ← Nat.mul_one (unitsOfMag m), roundMag_exact one_pos hm.le]
  have hlt : m < 2 ^ 31 := lt_trans hm (by decide)
  rw [isFinite_iff, units, u32ToF32, hround, magBits_pack hlt, signBit_pack hlt]
  exact ⟨hm, rfl, hu⟩

theorem exactUnits_of_nonneg {x : Word} (h : 0 ≤ exactUnits x) : exactUnits x = units x := by
  have := natAbs_withSign (signBit x) (units x)
  rw [← exactUnits_eq_withSign] at this
  omega

/-- Settles O59: an integer up to 2^24 is representable, so its rounding is exact; truncation is the integer
quotient. -/
theorem integerConversionsExact : Obligations.IntegerConversionsExact := by
  unfold Obligations.IntegerConversionsExact
  refine ⟨fun n hn => ?_, fun x _ hx hlt => ?_⟩
  · obtain ⟨hfin, hsign, hunits⟩ := u32ToF32_exact hn
    refine ⟨hfin, ?_, ?_⟩
    · rw [exactUnits, hsign, hunits]
      push_cast
      rfl
    · rw [toNat_f32ToU32Trunc (by omega), hunits, Nat.mul_div_cancel _ (by positivity)]
  · rw [exactUnits_of_nonneg hx] at hlt ⊢
    rw [toNat_f32ToU32Trunc (by omega)]
    constructor <;> omega

/-! ## Comparisons -/

theorem exactUnits_lt_iff (a b : Word) : exactUnits a < exactUnits b ↔ orderKey a < orderKey b :=
  withSign_map_lt_iff unitsOfMag_strictMono unitsOfMag_zero _ _ _ _

/-- Settles O60: the exact values are ordered as the signed magnitude fields, which the comparisons compare. -/
theorem comparisonsAreExact : Obligations.ComparisonsAreExact := by
  unfold Obligations.ComparisonsAreExact
  refine ⟨fun a b ha hb => ?_, fun a b hnan => ?_⟩
  · have hna := isNaN_eq_false_of_isFinite ha
    have hnb := isNaN_eq_false_of_isFinite hb
    have hab := exactUnits_lt_iff a b
    have hba := exactUnits_lt_iff b a
    simp only [flt, fle, feq, hna, hnb, Bool.not_false, Bool.true_and, decide_eq_true_eq]
    omega
  · rcases hnan with h | h <;> simp [flt, fle, feq, h]

end Sys2Proof.Machine
end

section
/-! Frames: which registers and hidden fields each kind of step may change, said once. A frame is an equation that
gives every other field its old value. -/

namespace Sys2Proof.Machine

/-! ## The frames of the agents and of a register write -/

/-- `t` is `s` but for `RXQ`, `RX_OVR`, the generator's own state and the value the bus gave back. -/
def OnlyQueueAndGenerator (s t : State) : Prop :=
  t = { s with
    readData := t.readData, rxq := t.rxq, rxOvr := t.rxOvr, activeDuty := t.activeDuty, pwmPhase := t.pwmPhase }

/-- `t` is `s` but for `RXQ`, the RC engine's own state and `CH[0..14]`. -/
def OnlyEngineAndChannels (s t : State) : Prop :=
  t = { s with
    rxq := t.rxq, rcPhase := t.rcPhase, rcAttempts := t.rcAttempts, rcBuf := t.rcBuf, rcCount := t.rcCount,
    rcStatus := t.rcStatus, ch := t.ch }

/-- `t` is `s` but for the registers of access `RW` (10_state.md rule R22). -/
def OnlyReadWriteRegs (s t : State) : Prop :=
  t = { s with
    arg0 := t.arg0, arg1 := t.arg1, arg2 := t.arg2, arg3 := t.arg3, arg4 := t.arg4, kp := t.kp, ki := t.ki, kd := t.kd,
    pidOut := t.pidOut, idleThr := t.idleThr, govThr := t.govThr, deadzone := t.deadzone, dutyFloor := t.dutyFloor,
    dutyCeil := t.dutyCeil }

theorem rxPush_frame (b : Byte) (s : State) : OnlyQueueAndGenerator s (rxPush b s) := by
  unfold OnlyQueueAndGenerator rxPush
  split <;> rfl

theorem pwmPeriodStart_frame (s : State) : OnlyQueueAndGenerator s (pwmPeriodStart s) := by
  unfold OnlyQueueAndGenerator pwmPeriodStart
  split <;> rfl

theorem pwmElapse_frame (ns : Nat) (s : State) : OnlyQueueAndGenerator s (pwmElapse ns s) := by
  unfold OnlyQueueAndGenerator pwmElapse
  split
  · split <;> rfl
  · rfl

theorem writeReg_frame (s : State) (r : Reg) (v : Word) : OnlyReadWriteRegs s (s.writeReg r v) := by
  cases r with
  | arg i => fin_cases i <;> rfl
  | _ => rfl

theorem huntStep_frame (s : State) : OnlyEngineAndChannels s (huntStep s) := by
  rcases huntStep_cases s with ⟨q, -, h⟩ | ⟨q, -, -, h⟩ | ⟨q, -, -, h⟩ <;> rw [h] <;> rfl

theorem validateFrame_frame (s : State) : OnlyEngineAndChannels s (validateFrame s) := by
  rcases validateFrame_cases s with ⟨-, h⟩ | ⟨-, h⟩ <;> rw [h] <;> rfl

theorem payloadStep_frame (s : State) : OnlyEngineAndChannels s (payloadStep s) := by
  rcases payloadStep_cases s with ⟨-, h⟩ | ⟨b, q, -, -, h⟩ | ⟨b, q, -, -, h⟩ <;> rw [h]
  · rfl
  · rfl
  · exact validateFrame_frame _

theorem rcEngineStep_frame (s : State) : OnlyEngineAndChannels s (rcEngineStep s) := by
  rcases rcEngineStep_cases s with ⟨-, h⟩ | ⟨-, h⟩ | ⟨-, h⟩ <;> rw [h]
  · rfl
  · exact huntStep_frame s
  · exact payloadStep_frame s

/-! ## The steps by their frame -/

/-- The steps but reset, sorted by what they may change: `s` is the state before the step, `u` the same state without
the event `e`, `t` the state after. It says less than `Stepped`, in fewer cases. -/
inductive FramedStep (s u : State) (e : Event) (t : State) : Prop where
  /-- a read that is no fault, a write while halted, a push, a step of the generator -/
  | passive (h : OnlyQueueAndGenerator u t)
  /-- a step of the RC engine -/
  | engine (he : e = .rcStep) (ht : t = rcEngineStep u)
  /-- a write of a `RW` register -/
  | store (he : ∃ width addr v, e = .hostWrite width addr v) (h : OnlyReadWriteRegs u t)
  /-- a bad access, a refused command word, or a command that faults -/
  | fault (c : FaultCode) (w : Word) (rd : Option Word)
      (hw : w = u.cmd ∨ s.halted = false ∧ s.nextCommand = some w)
      (ht : t = faultEntry c { u with cmd := w, readData := rd })
  /-- a command that completes -/
  | command (w : Word) (i : Instr) (he : ∃ width addr v, e = .hostWrite width addr v) (hh : s.halted = false)
      (hw : s.nextCommand = some w) (hi : s.nextInstr = some i) (h : Completed i { u with cmd := w } t)

theorem Stepped.framed {s u t : State} {e : Event} (h : Stepped s u e t) (he : e ≠ .reset) : FramedStep s u e t := by
  cases h with
  | read | readHalted | writeHalted => exact .passive rfl
  | readFault => exact .fault .badAccess u.cmd (some 0) (.inl rfl) rfl
  | writeFault => exact .fault .badAccess u.cmd u.readData (.inl rfl) rfl
  | writeReg addr v r => exact .store ⟨_, _, _, rfl⟩ (writeReg_frame u r v)
  | busy addr w hh hb hc => exact .fault .busy w u.readData (.inr ⟨hh, hc⟩) rfl
  | illegal addr w hh hb hc => exact .fault .badCmd w u.readData (.inr ⟨hh, hc⟩) rfl
  | command addr w i t hh hb hc hi ht =>
    rcases exec_next_cases ht with hd | ⟨c, -, rfl⟩
    · exact .command w i ⟨_, _, _, rfl⟩ hh hc hi hd
    · exact .fault c w u.readData (.inr ⟨hh, hc⟩) rfl
  | push b => exact .passive (rxPush_frame b u)
  | engine => exact .engine rfl rfl
  | period => exact .passive (pwmPeriodStart_frame u)
  | elapse ns => exact .passive (pwmElapse_frame ns u)
  | reset => exact absurd rfl he

theorem step_framed {s t : State} {e : Event} {rest : List Event} (hp : s.pending = e :: rest) (he : e ≠ .reset)
    (h : step s = .next t) : FramedStep s { s with pending := rest } e t :=
  (step_stepped hp h).framed he

end Sys2Proof.Machine
end

section
/-! The invariant of the block: every operation of the model keeps `State.Inv`, and so does every step. -/

namespace Sys2Proof.Machine

/-! ## What the clauses say of the values written -/

theorem PerAxis.forall_get_set {α : Type} {P : α → Prop} {p : PerAxis α} {a : Axis} {x : α} (hp : ∀ b, P (p.get b))
    (hx : P x) (b : Axis) : P ((p.set a x).get b) := by
  rcases eq_or_ne b a with rfl | hne
  · rwa [PerAxis.get_set_self]
  · rw [PerAxis.get_set_ne p x hne]
    exact hp b

theorem fZero_in_integ_range : fle Config.iLimitNeg fZero = true ∧ fle fZero Config.iLimit = true := by decide

theorem isFinite_fZero : isFinite fZero = true := by decide

/-- A valid frame leaves the channels above `NUM_CHANNELS` as they were (40_rc_decoder.md rule R110). -/
theorem channelsFrom_above {p : Params} {buf : Vector Byte 31} {old : Vector (BitVec 16) 14} {c : Channel}
    (hc : p.numChannels < c.number) : (channelsFrom p buf old)[c] = old[c] := by
  simp [channelsFrom, not_le.mpr hc]

/-! ## The operations -/

namespace State.Inv

variable {s : State} (h : s.Inv)
include h

theorem setPending (es : List Event) : State.Inv { s with pending := es } := { h with }

theorem setReadData (rd : Option Word) : State.Inv { s with readData := rd } := { h with }

theorem setCmd (w : Word) : State.Inv { s with cmd := w } := { h with }

theorem faultEntry {c : FaultCode} (hc : c ≠ .none) : (faultEntry c s).Inv :=
  { h with
    code_iff_fault := iff_of_true rfl hc
    fault_halts := fun _ => rfl
    halted_inert := fun _ => ⟨rfl, rfl⟩
    attempts_bound := ⟨h.attempts_bound.1, nofun⟩
    count_bound := ⟨h.count_bound.1, nofun⟩ }

theorem of_onlyReadWriteRegs {t : State} (ht : OnlyReadWriteRegs s t) : t.Inv := by
  rw [ht]
  exact { h with }

theorem latchDuty : (latchDuty s).Inv := { h with phase_bound := params_pwmPeriodNs_pos s.params }

theorem setPidState (a : Axis) {i e : Word} (hi : fle Config.iLimitNeg i = true ∧ fle i Config.iLimit = true)
    (he : isFinite e = true) : State.Inv { s with integ := s.integ.set a i, lastErr := s.lastErr.set a e } :=
  { h with
    integ_range :=
      PerAxis.forall_get_set (P := fun i => fle Config.iLimitNeg i = true ∧ fle i Config.iLimit = true) h.integ_range hi
    lastErr_finite := PerAxis.forall_get_set (P := fun e => isFinite e = true) h.lastErr_finite he }

theorem forceFloor : (forceFloor s).Inv := { h with }

theorem rxPush (b : Byte) : (rxPush b s).Inv := by
  unfold Machine.rxPush
  split
  case isTrue hlt =>
    have hlen : (s.rxq ++ [b]).length ≤ s.params.rxFifoDepth := by simpa using hlt
    exact { h with fifo_bound := hlen }
  case isFalse => exact { h with }

theorem pwmPeriodStart : (pwmPeriodStart s).Inv := by
  unfold Machine.pwmPeriodStart
  split
  · exact h.latchDuty
  · exact h

theorem pwmElapse (ns : Nat) : (pwmElapse ns s).Inv := by
  unfold Machine.pwmElapse
  split
  · split
    case isTrue hlt => exact { h with phase_bound := hlt }
    case isFalse => exact { h with phase_bound := Nat.mod_lt _ (params_pwmPeriodNs_pos s.params) }
  · exact h

/-! ## The RC engine -/

/-- The clauses that an engine step can touch: a busy engine stays out of a halted block, and each counter keeps its
bound in the phase the step ends in. -/
theorem of_onlyEngineAndChannels {t : State} (ht : OnlyEngineAndChannels s t)
    (hbusy : t.rcPhase ≠ .idle → s.rcPhase ≠ .idle)
    (hq : t.rxq <:+ s.rxq) (ha : t.rcAttempts ≤ 10 ∧ (t.rcPhase = .hunt → t.rcAttempts < 10))
    (hc : t.rcCount ≤ 31 ∧ (t.rcPhase = .payload → t.rcCount < 31))
    (hch : ∀ c : Channel, s.params.numChannels < c.number → t.ch[c] = 0) : t.Inv := by
  rw [ht]
  exact
    { h with
      halted_inert := fun hh => ⟨(h.halted_inert hh).1, not_not.mp fun hne => hbusy hne (h.halted_inert hh).2⟩
      fifo_bound := hq.length_le.trans h.fifo_bound
      attempts_bound := ha
      count_bound := hc
      channels_above := hch }

theorem huntStep (hp : s.rcPhase = .hunt) : (huntStep s).Inv := by
  have hlt : s.rcAttempts < 10 := h.attempts_bound.2 hp
  have hbusy : s.rcPhase ≠ .idle := by simp [hp]
  rcases huntStep_cases s with ⟨q, hq, he⟩ | ⟨q, hq, hne, he⟩ | ⟨q, hq, -, he⟩ <;> rw [he]
  · have hsuffix : q <:+ s.rxq := hq ▸ List.suffix_cons _ _
    exact h.of_onlyEngineAndChannels rfl (fun _ => hbusy) hsuffix ⟨hlt, nofun⟩ ⟨by simp, by simp⟩ h.channels_above
  · exact h.of_onlyEngineAndChannels rfl (fun _ => hbusy) hq ⟨hlt, fun _ => lt_of_le_of_ne hlt hne⟩ h.count_bound
      h.channels_above
  · exact h.of_onlyEngineAndChannels rfl (fun _ => hbusy) hq ⟨hlt, nofun⟩ ⟨h.count_bound.1, nofun⟩ h.channels_above

theorem payloadStep (hp : s.rcPhase = .payload) : (payloadStep s).Inv := by
  have hlt : s.rcCount < 31 := h.count_bound.2 hp
  have hbusy : s.rcPhase ≠ .idle := by simp [hp]
  have hattempts := h.attempts_bound.1
  rcases payloadStep_cases s with ⟨-, he⟩ | ⟨b, q, hq, hne, he⟩ | ⟨b, q, hq, -, he⟩ <;> rw [he]
  · exact h.of_onlyEngineAndChannels rfl nofun (List.suffix_refl _) ⟨hattempts, nofun⟩ ⟨hlt.le, nofun⟩ h.channels_above
  · have hsuffix : q <:+ s.rxq := hq ▸ List.suffix_cons _ _
    exact h.of_onlyEngineAndChannels rfl (fun _ => hbusy) hsuffix ⟨hattempts, fun hh => h.attempts_bound.2 hh⟩
      ⟨hlt, fun _ => lt_of_le_of_ne hlt hne⟩ h.channels_above
  · have hsuffix : q <:+ s.rxq := hq ▸ List.suffix_cons _ _
    rcases validateFrame_cases { s with rxq := q, rcBuf := s.rcBuf.setIfInBounds s.rcCount b, rcCount := s.rcCount + 1 }
      with ⟨-, hv⟩ | ⟨-, hv⟩ <;> rw [hv]
    · exact h.of_onlyEngineAndChannels rfl nofun hsuffix ⟨hattempts, nofun⟩ ⟨hlt, nofun⟩
        fun c hc => (channelsFrom_above hc).trans (h.channels_above c hc)
    · exact h.of_onlyEngineAndChannels rfl nofun hsuffix ⟨hattempts, nofun⟩ ⟨hlt, nofun⟩ h.channels_above

theorem rcEngineStep : (rcEngineStep s).Inv := by
  rcases rcEngineStep_cases s with ⟨-, he⟩ | ⟨hp, he⟩ | ⟨hp, he⟩ <;> rw [he]
  · exact h
  · exact h.huntStep hp
  · exact h.payloadStep hp

/-! ## Commands and steps -/

theorem completed {i : Instr} {t : State} (hh : s.halted = false) (hb : s.busy = false)
    (hc : Completed i s t) : t.Inv := by
  cases hc with
  | nop | pwmEnabled => exact h
  | rcRead =>
    exact
      { h with
        halted_inert := fun hh' => by simp [hh] at hh'
        attempts_bound := by simp
        count_bound := by simp }
  | norm | rcNorm | duty => exact { h with }
  | pidUpdate _ a i e out hi he => exact { h.setPidState a hi he with }
  | pidReset _ a => exact h.setPidState a fZero_in_integ_range isFinite_fZero
  | pidResetAll =>
    exact
      { h with
        integ_range := fun a => by simpa using fZero_in_integ_range
        lastErr_finite := fun a => by simpa using isFinite_fZero }
  | mix _ thr raw d _ ht hr => exact { h with mix_finite := ⟨ht, hr⟩ }
  | forceIdle => exact h.forceFloor
  | pwmEnable =>
    have hen : State.Inv { s with pwmEn := true } := { h with halted_inert := fun hh' => by simp [hh] at hh' }
    exact hen.latchDuty
  | pwmRelease => exact { h with halted_inert := fun hh' => ⟨rfl, (h.halted_inert hh').2⟩ }
  | shutdown =>
    exact
      { h.forceFloor with
        fault_halts := fun _ => rfl
        halted_inert := fun _ => ⟨rfl, s.busy_eq_false_iff.mp hb⟩ }

theorem command {i : Instr} {t : State} (hh : s.halted = false) (hb : s.busy = false) (ht : exec i s = .next t) :
    t.Inv := by
  rcases exec_next_cases ht with hc | ⟨c, hc, rfl⟩
  · exact h.completed hh hb hc
  · exact h.faultEntry hc.ne_none

end State.Inv

theorem resetWith_inv (p : Params) : (State.resetWith p).Inv where
  code_iff_fault := by simp [State.resetWith]
  fault_halts := nofun
  halted_inert := nofun
  fifo_bound := Nat.zero_le _
  attempts_bound := ⟨Nat.zero_le _, nofun⟩
  count_bound := ⟨Nat.zero_le _, nofun⟩
  integ_range := fun a => by cases a <;> exact fZero_in_integ_range
  lastErr_finite := fun a => by cases a <;> rfl
  mix_finite := ⟨rfl, fun m => by cases m <;> rfl⟩
  channels_above := fun c _ => Vector.getElem_replicate c.isLt
  phase_bound := params_pwmPeriodNs_pos p

theorem Stepped.inv {s t : State} {e : Event} {rest : List Event} (hs : s.Inv)
    (h : Stepped s { s with pending := rest } e t) : t.Inv := by
  have hu := hs.setPending rest
  cases h with
  | read => exact hu.setReadData _
  | readHalted => exact hu.setReadData _
  | readFault => exact (hu.setReadData _).faultEntry (by decide)
  | writeHalted => exact hu
  | writeFault => exact hu.faultEntry (by decide)
  | writeReg addr v r => exact hu.of_onlyReadWriteRegs (writeReg_frame _ r v)
  | busy addr w => exact (hu.setCmd w).faultEntry (by decide)
  | illegal addr w => exact (hu.setCmd w).faultEntry (by decide)
  | command addr w i t hh hb _ _ ht => exact (hu.setCmd w).command hh hb ht
  | push b => exact hu.rxPush b
  | engine => exact hu.rcEngineStep
  | period => exact hu.pwmPeriodStart
  | elapse ns => exact hu.pwmElapse ns
  | reset => exact (resetWith_inv s.params).setPending rest

/-- Settles O54: the step's event, taken off the list, is one of the operations that keep the invariant. -/
theorem everyStepKeepsTheInvariant : Obligations.EveryStepKeepsTheInvariant := by
  unfold Obligations.EveryStepKeepsTheInvariant
  intro s t hs ht
  cases hp : s.pending with
  | nil =>
    rw [step_of_no_event hp] at ht
    cases ht
    exact hs
  | cons e rest => exact (step_stepped hp ht).inv hs

end Sys2Proof.Machine
end

section
/-! The register window: the register map by offset with its access rights, the byte lanes of a value, and the fields of
`STATUS`. -/

namespace Sys2Proof.Machine

/-! ## The register map -/

theorem State.map_readOffset (s : State) (rs : List Reg) : (rs.map Reg.offset).map s.readOffset = rs.map s.readReg := by
  simp

theorem toNat_channelWord (s : State) (c : Channel) : (s.channelWord c).toNat = s.ch[c].toNat := by
  have := s.ch[c].isLt
  rw [State.channelWord, BitVec.toNat_ofNat]
  omega

theorem State.ch0_eq (s : State) :
    s.ch0 = (if s.rcStatus = .initial then 0 else if s.rcStatus = .new then 1
      else if s.rcStatus = .failed then 2 else 3) := by
  unfold State.ch0
  cases s.rcStatus <;> rfl

theorem toNat_byteLane (w : Word) (j : Fin 4) : (byteLane w j).toNat = w.toNat / 2 ^ (8 * j.val) % 2 ^ 8 := by
  rw [byteLane, field, BitVec.toNat_ofNat, show 8 * j.val + 7 + 1 - 8 * j.val = 8 by omega, Nat.mod_mod]

theorem eq_sum_digits256 {n : Nat} (h : n < 2 ^ 32) :
    n = n / 2 ^ 0 % 2 ^ 8 * 2 ^ 0 + n / 2 ^ 8 % 2 ^ 8 * 2 ^ 8 + n / 2 ^ 16 % 2 ^ 8 * 2 ^ 16 +
      n / 2 ^ 24 % 2 ^ 8 * 2 ^ 24 := by
  omega

/-- The four byte lanes are the digits of the word to the base 256 (20_memory.md rule R69). -/
theorem toNat_eq_sum_byteLane (w : Word) :
    w.toNat = ((List.finRange 4).map fun j => (byteLane w j).toNat * 2 ^ (8 * j.val)).sum := by
  rw [← Fin.sum_univ_def, Fin.sum_univ_four, toNat_byteLane, toNat_byteLane, toNat_byteLane, toNat_byteLane]
  exact eq_sum_digits256 w.isLt

/-- The offsets of the `RO` registers (10_state.md rule R22, 20_memory.md rule R65). -/
def ReadOnlyOffset (off : Nat) : Prop :=
  off = 0x004 ∨ off = 0x024 ∨ (0x040 ≤ off ∧ off ≤ 0x078) ∨ (0x0B0 ≤ off ∧ off ≤ 0x0C8) ∨ off = 0x0E8 ∨
    (0x100 ≤ off ∧ off ≤ 0x11C)

theorem Reg.access_eq_issue_iff (r : Reg) : r.access = .issue ↔ r.offset = 0x000 := by
  have h : ∀ r ∈ Reg.all, r.access = .issue ↔ r.offset = 0x000 := by decide
  exact h r r.mem_all

theorem Reg.access_eq_readOnly_iff (r : Reg) : r.access = .readOnly ↔ ReadOnlyOffset r.offset := by
  have h : ∀ r ∈ Reg.all, r.access = .readOnly ↔ ReadOnlyOffset r.offset := by
    unfold ReadOnlyOffset
    decide
  exact h r r.mem_all

/-- Settles O6: each literal offset is the offset of its register, and a read there gives the register. -/
theorem registerMapByOffset : Obligations.RegisterMapByOffset := by
  unfold Obligations.RegisterMapByOffset
  refine ⟨fun s => ⟨?scalars, ?status, fun c => ?channel, ?axes, ?motors, fun off => toNat_eq_sum_byteLane _⟩,
    fun r => ⟨r.access_eq_issue_iff, r.access_eq_readOnly_iff⟩⟩
  case scalars =>
    exact ⟨s.readOffset_offset .cmd, s.readOffset_offset .status, s.readOffset_offset (.arg 0),
      s.readOffset_offset (.arg 1), s.readOffset_offset (.arg 2), s.readOffset_offset (.arg 3),
      s.readOffset_offset (.arg 4), s.readOffset_offset .res0, s.readOffset_offset .idleThr,
      s.readOffset_offset .govThr, s.readOffset_offset .mixThr, s.readOffset_offset .deadzone,
      s.readOffset_offset .dutyFloor, s.readOffset_offset .dutyCeil⟩
  case status => exact (s.readOffset_offset .ch0).trans s.ch0_eq
  case channel =>
    have hread : s.readOffset (0x040 + 4 * c.number) = s.channelWord c := s.readOffset_offset (.ch c)
    rw [hread, toNat_channelWord]
  case axes =>
    exact ⟨s.map_readOffset (Axis.all.map .kp), s.map_readOffset (Axis.all.map .ki),
      s.map_readOffset (Axis.all.map .kd), s.map_readOffset (Axis.all.map .integ),
      s.map_readOffset (Axis.all.map .lastErr), s.map_readOffset (Axis.all.map .pidOut)⟩
  case motors => exact ⟨s.map_readOffset (Motor.all.map .mraw), s.map_readOffset (Motor.all.map .motor), rfl⟩

/-! ## The fields of `STATUS` -/

theorem toNat_busy (s : State) : s.busy.toNat = if s.rcPhase = .idle then 0 else 1 := by
  cases h : s.rcPhase <;> simp [State.busy, h]

theorem FaultCode.code_eq (c : FaultCode) :
    c.code = (if c = .none then 0x00 else if c = .nonfinite then 0x01 else if c = .dtRange then 0x02
      else if c = .normRange then 0x03 else if c = .dutyCfg then 0x04 else if c = .badCmd then 0x05
      else if c = .busy then 0x06 else 0x07) := by
  cases c <;> rfl

theorem FaultCode.code_le (c : FaultCode) : c.code ≤ 7 := by cases c <;> decide

theorem State.status_parts_le (s : State) :
    s.busy.toNat ≤ 1 ∧ s.fault.toNat ≤ 1 ∧ s.halted.toNat ≤ 1 ∧ s.pwmEn.toNat ≤ 1 ∧ s.rxOvr.toNat ≤ 1 ∧
      s.faultCode.code ≤ 7 ∧ s.rxLevel ≤ 255 :=
  ⟨s.busy.toNat_le, s.fault.toNat_le, s.halted.toNat_le, s.pwmEn.toNat_le, s.rxOvr.toNat_le, s.faultCode.code_le,
    Nat.min_le_right _ _⟩

/-- With the attempts in bounds the parts of `STATUS` do not overlap, so the word is their weighted sum. -/
theorem toNat_status {s : State} (h : s.rcAttempts ≤ 10) :
    s.status.toNat = s.busy.toNat + 2 * s.fault.toNat + 4 * s.halted.toNat + 8 * s.pwmEn.toNat + 16 * s.rxOvr.toNat
      + 2 ^ 8 * s.faultCode.code + 2 ^ 16 * s.rxLevel + 2 ^ 24 * s.rcAttempts := by
  have hparts := s.status_parts_le
  rw [State.status, BitVec.toNat_ofNat, Nat.mod_eq_of_lt (a := s.rcAttempts) (by omega)]
  omega

/-- Settles O46: each field of `STATUS` is a digit of the weighted sum. -/
theorem statusFields : Obligations.StatusFields := by
  unfold Obligations.StatusFields
  intro s h
  have hparts := s.status_parts_le
  rw [← toNat_busy, ← FaultCode.code_eq, ← State.rxLevel]
  simp only [field, toNat_status h]
  refine ⟨?_, ?_, ?_, ?_, ?_, ?_, ?_, ?_, ?_, ?_⟩ <;> omega

end Sys2Proof.Machine
end

section
/-! Which steps write which registers: `CH[0..14]`, then `CMD`, `RES0`, the PID state, the mixer's registers and the
registers the host writes. -/

namespace Sys2Proof.Machine

/-! ## The channels and the RC status -/

/-- What the engine makes of `CH[0..14]`: it leaves them alone, or it ends the read with a status other than Initial,
and with New if a channel changed (40_rc_decoder.md rules R110 to R112). -/
def ChannelsKeptOrReadEnds (s t : State) : Prop :=
  (t.rcStatus = s.rcStatus ∧ t.ch = s.ch) ∨
  (t.busy = false ∧ t.rcStatus ≠ .initial ∧ (t.rcStatus = .new ∨ t.ch = s.ch))

theorem huntStep_channels (s : State) : ChannelsKeptOrReadEnds s (huntStep s) := by
  rcases huntStep_cases s with ⟨q, -, h⟩ | ⟨q, -, -, h⟩ | ⟨q, -, -, h⟩ <;> rw [h]
  · exact .inl ⟨rfl, rfl⟩
  · exact .inl ⟨rfl, rfl⟩
  · exact .inr ⟨rfl, nofun, .inr rfl⟩

theorem validateFrame_channels (s : State) : ChannelsKeptOrReadEnds s (validateFrame s) := by
  rcases validateFrame_cases s with ⟨-, h⟩ | ⟨-, h⟩ <;> rw [h]
  · exact .inr ⟨rfl, nofun, .inl rfl⟩
  · exact .inr ⟨rfl, nofun, .inr rfl⟩

theorem payloadStep_channels (s : State) : ChannelsKeptOrReadEnds s (payloadStep s) := by
  rcases payloadStep_cases s with ⟨-, h⟩ | ⟨b, q, -, -, h⟩ | ⟨b, q, -, -, h⟩ <;> rw [h]
  · exact .inr ⟨rfl, nofun, .inr rfl⟩
  · exact .inl ⟨rfl, rfl⟩
  · exact validateFrame_channels _

/-- An engine step changes the channels only from a busy block. -/
theorem rcEngineStep_channels (s : State) :
    ((rcEngineStep s).rcStatus = s.rcStatus ∧ (rcEngineStep s).ch = s.ch) ∨
    (s.busy = true ∧ ChannelsKeptOrReadEnds s (rcEngineStep s)) := by
  rcases rcEngineStep_cases s with ⟨-, h⟩ | ⟨hp, h⟩ | ⟨hp, h⟩ <;> rw [h]
  · exact .inl ⟨rfl, rfl⟩
  · exact .inr ⟨by simp [State.busy, hp], huntStep_channels s⟩
  · exact .inr ⟨by simp [State.busy, hp], payloadStep_channels s⟩

theorem Completed.channels {i : Instr} {s t : State} (h : Completed i s t) :
    t.rcStatus = s.rcStatus ∧ t.ch = s.ch := by
  cases h <;> exact ⟨rfl, rfl⟩

theorem FramedStep.channels {s u t : State} {e : Event} (h : FramedStep s u e t) (he : e ≠ .rcStep) :
    t.rcStatus = u.rcStatus ∧ t.ch = u.ch := by
  cases h with
  | passive h =>
    rw [h]
    exact ⟨rfl, rfl⟩
  | engine he' => exact absurd he' he
  | store _ h =>
    rw [h]
    exact ⟨rfl, rfl⟩
  | fault c w rd _ ht =>
    rw [ht]
    exact ⟨rfl, rfl⟩
  | command w i _ _ _ _ h => exact h.channels

/-- Settles O19: only an engine step touches the channels, and when it does it ends the read. -/
theorem channelsChangeOnlyOnNew : Obligations.ChannelsChangeOnlyOnNew := by
  unfold Obligations.ChannelsChangeOnlyOnNew
  intro s t e rest hp he ht
  have hkept : (t.rcStatus = s.rcStatus ∧ t.ch = s.ch) ∨
      (e = .rcStep ∧ s.busy = true ∧ t.busy = false ∧ t.rcStatus ≠ .initial ∧ (t.rcStatus = .new ∨ t.ch = s.ch)) := by
    by_cases hrc : e = .rcStep
    · subst hrc
      rw [step_of_pending hp] at ht
      cases ht
      rcases rcEngineStep_channels { s with pending := rest } with h | ⟨hb, h | ⟨hidle, hst, hch⟩⟩
      · exact .inl h
      · exact .inl h
      · exact .inr ⟨rfl, hb, hidle, hst, hch⟩
    · exact .inl ((step_framed hp he ht).channels hrc)
  rcases hkept with ⟨hst, hch⟩ | ⟨hrc, hb, hidle, hst, hch⟩
  · exact ⟨fun h => by simp [hst, hch] at h, fun h => absurd hch h, fun h => hst ▸ h⟩
  · exact ⟨fun _ => ⟨hrc, hb, hidle⟩, fun h => hch.resolve_right h, fun h => absurd h hst⟩

/-! ## The registers of the commands -/

theorem Completed.cmd {i : Instr} {s t : State} (h : Completed i s t) : t.cmd = s.cmd := by
  cases h <;> rfl

/-- The commands that write `RES0` (10_state.md rule R25). -/
theorem Completed.res0 {i : Instr} {s t : State} (h : Completed i s t) :
    t.res0 = s.res0 ∨ i = .norm ∨ (∃ k c, i = .rcNorm k c) ∨ (∃ a, i = .pidUpdate a) ∨ i = .duty := by
  cases h with
  | norm | rcNorm | pidUpdate | duty => simp
  | _ => exact .inl rfl

/-- The commands that write the PID state (10_state.md rule R32). -/
theorem Completed.pidState {i : Instr} {s t : State} (h : Completed i s t) :
    (t.integ = s.integ ∧ t.lastErr = s.lastErr) ∨ (∃ a, i = .pidUpdate a) ∨ ∃ sel, i = .pidReset sel := by
  cases h with
  | pidUpdate | pidReset | pidResetAll => simp
  | _ => exact .inl ⟨rfl, rfl⟩

/-- Only MIX writes `MRAW` and `MIX_THR` (10_state.md rules R36, R38). -/
theorem Completed.mixer {i : Instr} {s t : State} (h : Completed i s t) :
    (t.mraw = s.mraw ∧ t.mixThr = s.mixThr) ∨ i = .mix := by
  cases h with
  | mix => exact .inr rfl
  | _ => exact .inl ⟨rfl, rfl⟩

/-- The commands that write `MOTOR` (10_state.md rule R39). -/
theorem Completed.motor {i : Instr} {s t : State} (h : Completed i s t) :
    t.motor = s.motor ∨ i = .mix ∨ (t.motor = PerMotor.fill s.dutyFloor ∧ (i = .forceIdle ∨ i = .shutdown)) := by
  cases h with
  | mix => exact .inr (.inl rfl)
  | forceIdle | shutdown => simp
  | _ => exact .inl rfl

/-- The registers only a command writes, as they were. -/
def SameCommandRegs (s t : State) : Prop :=
  t.res0 = s.res0 ∧ t.integ = s.integ ∧ t.lastErr = s.lastErr ∧ t.mraw = s.mraw ∧ t.mixThr = s.mixThr

theorem SameCommandRegs.refl (s : State) : SameCommandRegs s s := ⟨rfl, rfl, rfl, rfl, rfl⟩

/-- The registers the host writes, and `PID_OUT`, as they were. -/
def SameHostRegs (s t : State) : Prop :=
  t.arg0 = s.arg0 ∧ t.arg1 = s.arg1 ∧ t.arg2 = s.arg2 ∧ t.arg3 = s.arg3 ∧ t.arg4 = s.arg4 ∧ t.kp = s.kp ∧
    t.ki = s.ki ∧ t.kd = s.kd ∧ t.pidOut = s.pidOut ∧ t.idleThr = s.idleThr ∧ t.govThr = s.govThr ∧
    t.deadzone = s.deadzone ∧ t.dutyFloor = s.dutyFloor ∧ t.dutyCeil = s.dutyCeil

theorem SameHostRegs.refl (s : State) : SameHostRegs s s :=
  ⟨rfl, rfl, rfl, rfl, rfl, rfl, rfl, rfl, rfl, rfl, rfl, rfl, rfl, rfl⟩

/-- The step ran the command `i` and completed it: `u` is the state before without the event. -/
def Ran (s u : State) (i : Instr) (t : State) : Prop :=
  s.nextInstr = some i ∧ ∃ w, Completed i { u with cmd := w } t

namespace FramedStep

variable {s u t : State} {e : Event} (h : FramedStep s u e t)
include h

/-- `CMD` takes only the word of a command write while not halted (10_state.md rule R23). -/
theorem cmd : t.cmd = u.cmd ∨ (s.halted = false ∧ s.nextCommand = some t.cmd) := by
  cases h with
  | passive h => rw [h]; exact .inl rfl
  | engine _ ht => rw [ht, rcEngineStep_frame u]; exact .inl rfl
  | store _ h => rw [h]; exact .inl rfl
  | fault c w rd hw ht => rw [ht]; exact hw
  | command w i _ hh hw _ h => rw [h.cmd]; exact .inr ⟨hh, hw⟩

theorem commandRegs : SameCommandRegs u t ∨ ∃ i, Ran s u i t := by
  cases h with
  | passive h => rw [h]; exact .inl (.refl u)
  | engine _ ht => rw [ht, rcEngineStep_frame u]; exact .inl (.refl u)
  | store _ h => rw [h]; exact .inl (.refl u)
  | fault c w rd _ ht => rw [ht]; exact .inl (.refl u)
  | command w i _ _ _ hi h => exact .inr ⟨i, hi, w, h⟩

theorem motor :
    t.motor = u.motor ∨ (t.motor = PerMotor.fill u.dutyFloor ∧ t.fault = true ∧ t.halted = true) ∨
      ∃ i, Ran s u i t := by
  cases h with
  | passive h => rw [h]; exact .inl rfl
  | engine _ ht => rw [ht, rcEngineStep_frame u]; exact .inl rfl
  | store _ h => rw [h]; exact .inl rfl
  | fault c w rd _ ht => rw [ht]; exact .inr (.inl ⟨rfl, rfl, rfl⟩)
  | command w i _ _ _ hi h => exact .inr (.inr ⟨i, hi, w, h⟩)

theorem hostRegs (he : ∀ width addr v, e ≠ .hostWrite width addr v) : SameHostRegs u t := by
  have hno : ¬ ∃ width addr v, e = .hostWrite width addr v := fun ⟨width, addr, v, hw⟩ => he width addr v hw
  cases h with
  | passive h => rw [h]; exact .refl u
  | engine _ ht => rw [ht, rcEngineStep_frame u]; exact .refl u
  | store hw => exact absurd hw hno
  | fault c w rd _ ht => rw [ht]; exact .refl u
  | command w i hw => exact absurd hw hno

end FramedStep

/-- Settles O51: a register that changes was written by a completed command, by a fault entry or by a host write. -/
theorem registerWriters : Obligations.RegisterWriters := by
  unfold Obligations.RegisterWriters
  intro s t e rest hp he ht
  have hf := step_framed hp he ht
  refine ⟨fun hne => hf.cmd.resolve_left hne, fun hne => ?res0, fun hne => ?pidState, fun hne => ?mixer,
    fun hne => ?motor, hf.hostRegs⟩
  case res0 =>
    rcases hf.commandRegs with ⟨hsame, -⟩ | ⟨i, hi, w, hc⟩
    · exact absurd hsame hne
    · rw [hi]
      simpa using hc.res0.resolve_left hne
  case pidState =>
    rcases hf.commandRegs with ⟨-, hsame, hsame', -⟩ | ⟨i, hi, w, hc⟩
    · exact absurd hne (by simp [hsame, hsame'])
    · rw [hi]
      simpa using hc.pidState.resolve_left fun ⟨h, h'⟩ => hne.elim (absurd h) (absurd h')
  case mixer =>
    rcases hf.commandRegs with ⟨-, -, -, hsame, hsame'⟩ | ⟨i, hi, w, hc⟩
    · exact absurd hne (by simp [hsame, hsame'])
    · rw [hi]
      simpa using hc.mixer.resolve_left fun ⟨h, h'⟩ => hne.elim (absurd h) (absurd h')
  case motor =>
    rcases hf.motor with hsame | ⟨hfloor, hfault⟩ | ⟨i, hi, w, hc⟩
    · exact absurd hsame hne
    · exact .inr ⟨hfloor, .inr (.inr hfault)⟩
    · rw [hi]
      rcases hc.motor.resolve_left hne with rfl | ⟨hfloor, rfl | rfl⟩
      · exact .inl rfl
      · exact .inr ⟨hfloor, .inl rfl⟩
      · exact .inr ⟨hfloor, .inr (.inl rfl)⟩

end Sys2Proof.Machine
end

section
/-! The parameters: no step changes them, and every operation of the model commutes with another choice of the two
durations (70_reset_and_hazards.md rule R249). -/

namespace Sys2Proof.Machine

/-! ## The parameters stay -/

theorem Completed.params {i : Instr} {s t : State} (h : Completed i s t) : t.params = s.params := by
  cases h <;> rfl

theorem FramedStep.params {s u t : State} {e : Event} (h : FramedStep s u e t) : t.params = u.params := by
  cases h with
  | passive h => rw [h]
  | engine _ ht => rw [ht, rcEngineStep_frame u]
  | store _ h => rw [h]
  | fault c w rd _ ht => rw [ht]; rfl
  | command w i _ _ _ _ h => exact h.params

theorem step_params {s t : State} (ht : step s = .next t) : t.params = s.params := by
  cases hp : s.pending with
  | nil =>
    rw [step_of_no_event hp] at ht
    cases ht
    rfl
  | cons e rest =>
    by_cases he : e = .reset
    · subst he
      rw [step_of_pending hp] at ht
      cases ht
      rfl
    · exact (step_framed hp he ht).params

/-! ## The operations read neither duration -/

/-- An operation that answers a result commutes with another choice of the durations. -/
def UntimedResult (f : State → Result) : Prop :=
  ∀ s timeout latency,
    f (s.withTiming timeout latency) = mapNext (fun t => t.withTiming timeout latency) (f s)

/-- An operation that answers a state commutes with another choice of the durations. -/
def UntimedUpdate (f : State → State) : Prop :=
  ∀ s timeout latency, f (s.withTiming timeout latency) = (f s).withTiming timeout latency

theorem UntimedUpdate.next {f : State → State} (h : UntimedUpdate f) : UntimedResult fun s => .next (f s) :=
  fun s timeout latency => congrArg Host.Outcome.next (h s timeout latency)

theorem execNorm_untimed : UntimedResult execNorm := by
  intro s timeout latency
  simp only [execNorm, apply_ite (mapNext _)]
  rfl

theorem execPidUpdate_untimed (a : Axis) : UntimedResult (execPidUpdate a) := by
  intro s timeout latency
  simp only [execPidUpdate, apply_ite (mapNext _)]
  rfl

theorem execPwmEnable_untimed : UntimedResult execPwmEnable := by
  intro s timeout latency
  simp only [execPwmEnable, apply_ite (mapNext _)]
  rfl

theorem execDuty_untimed : UntimedResult execDuty := by
  intro s timeout latency
  have hshape : (s.withTiming timeout latency).shape (s.withTiming timeout latency).arg0 = s.shape s.arg0 := rfl
  simp only [execDuty, apply_ite (mapNext _), hshape]
  cases s.shape s.arg0 <;> rfl

theorem execMix_untimed : UntimedResult execMix := by
  intro s timeout latency
  have hshape (raw : PerMotor Word) : (s.withTiming timeout latency).shapeAll raw = s.shapeAll raw := rfl
  have harg : (s.withTiming timeout latency).arg0 = s.arg0 := rfl
  have hidle : (s.withTiming timeout latency).idleThr = s.idleThr := rfl
  have hgov : (s.withTiming timeout latency).govThr = s.govThr := rfl
  have hpid : (s.withTiming timeout latency).pidOut = s.pidOut := rfl
  simp only [execMix, apply_ite (mapNext _), hshape, harg, hidle, hgov, hpid]
  cases s.shapeAll _ <;> rfl

theorem exec_untimed (i : Instr) : UntimedResult (exec i) := by
  cases i with
  | nop | rcRead | rcNorm | forceIdle | pwmRelease | shutdown => exact fun _ _ _ => rfl
  | pidReset sel => cases sel <;> exact fun _ _ _ => rfl
  | norm => exact execNorm_untimed
  | pidUpdate a => exact execPidUpdate_untimed a
  | duty => exact execDuty_untimed
  | mix => exact execMix_untimed
  | pwmEnable => exact execPwmEnable_untimed

theorem issue_untimed (w : Word) : UntimedResult (issue w) := by
  intro s timeout latency
  have hdecode : decode (s.withTiming timeout latency).params.numChannels w = decode s.params.numChannels w := rfl
  simp only [issue, apply_ite (mapNext _), hdecode]
  refine if_congr Iff.rfl rfl ?_
  cases decode s.params.numChannels w with
  | error r => rfl
  | ok i => exact exec_untimed i { s with cmd := w } timeout latency

theorem badAccess_untimed : UntimedResult badAccess := by
  intro s timeout latency
  simp only [badAccess, apply_ite (mapNext _)]
  rfl

theorem readOffset_withTiming (s : State) (timeout latency off : Nat) :
    (s.withTiming timeout latency).readOffset off = s.readOffset off := by
  unfold State.readOffset
  cases Reg.ofOffset off with
  | none => rfl
  | some r => cases r <;> rfl

theorem hostRead_untimed (width : Width) (addr : Nat) : UntimedResult (hostRead width addr) := by
  intro s timeout latency
  have hwindow : windowOffset (s.withTiming timeout latency).params addr = windowOffset s.params addr := rfl
  simp only [hostRead, hwindow]
  cases windowOffset s.params addr with
  | none => rfl
  | some off =>
    simp only [apply_ite (mapNext _), readOffset_withTiming]
    exact if_congr Iff.rfl rfl (badAccess_untimed { s with readData := some 0 } timeout latency)

theorem writeReg_untimed (r : Reg) (v : Word) : UntimedUpdate fun s => s.writeReg r v := by
  intro s timeout latency
  cases r with
  | arg i => fin_cases i <;> rfl
  | _ => rfl

theorem hostWrite_untimed (width : Width) (addr : Nat) (v : Word) : UntimedResult (hostWrite width addr v) := by
  intro s timeout latency
  have hwindow : windowOffset (s.withTiming timeout latency).params addr = windowOffset s.params addr := rfl
  have hbad := badAccess_untimed s timeout latency
  simp only [hostWrite, hwindow]
  cases windowOffset s.params addr with
  | none => rfl
  | some off =>
    simp only [apply_ite (mapNext _)]
    refine if_congr Iff.rfl rfl (if_congr Iff.rfl ?_ hbad)
    cases Reg.ofOffset off with
    | none => exact hbad
    | some r =>
      dsimp only
      cases r.access with
      | issue => exact issue_untimed v s timeout latency
      | readWrite => exact (writeReg_untimed r v).next s timeout latency
      | readOnly => exact hbad

theorem rxPush_untimed (b : Byte) : UntimedUpdate (rxPush b) := by
  intro s timeout latency
  simp only [rxPush, apply_ite (State.withTiming · timeout latency)]
  rfl

theorem validateFrame_untimed : UntimedUpdate validateFrame := by
  intro s timeout latency
  simp only [validateFrame, apply_ite (State.withTiming · timeout latency)]
  rfl

theorem huntStep_untimed : UntimedUpdate huntStep := by
  intro s timeout latency
  have hrxq : (s.withTiming timeout latency).rxq = s.rxq := rfl
  simp only [huntStep, hrxq]
  cases s.rxq <;> simp only [apply_ite (State.withTiming · timeout latency)] <;> rfl

theorem payloadStep_untimed : UntimedUpdate payloadStep := by
  intro s timeout latency
  have hrxq : (s.withTiming timeout latency).rxq = s.rxq := rfl
  simp only [payloadStep, hrxq]
  cases s.rxq with
  | nil => rfl
  | cons b q =>
    simp only [apply_ite (State.withTiming · timeout latency)]
    refine if_congr Iff.rfl ?_ rfl
    exact validateFrame_untimed
      { s with rxq := q, rcBuf := s.rcBuf.setIfInBounds s.rcCount b, rcCount := s.rcCount + 1 } timeout latency

theorem rcEngineStep_untimed : UntimedUpdate rcEngineStep := by
  intro s timeout latency
  have hphase : (s.withTiming timeout latency).rcPhase = s.rcPhase := rfl
  simp only [rcEngineStep, hphase]
  cases s.rcPhase with
  | idle => rfl
  | hunt => exact huntStep_untimed s timeout latency
  | payload => exact payloadStep_untimed s timeout latency

theorem pwmPeriodStart_untimed : UntimedUpdate pwmPeriodStart := by
  intro s timeout latency
  simp only [pwmPeriodStart, apply_ite (State.withTiming · timeout latency)]
  rfl

theorem pwmElapse_untimed (ns : Nat) : UntimedUpdate (pwmElapse ns) := by
  intro s timeout latency
  simp only [pwmElapse, apply_ite (State.withTiming · timeout latency)]
  rfl

theorem runEvent_untimed (e : Event) : UntimedResult (runEvent e) := by
  cases e with
  | hostRead width addr => exact hostRead_untimed width addr
  | hostWrite width addr v => exact hostWrite_untimed width addr v
  | rxPush b => exact (rxPush_untimed b).next
  | rcStep => exact rcEngineStep_untimed.next
  | pwmPeriodStart => exact pwmPeriodStart_untimed.next
  | pwmElapse ns => exact (pwmElapse_untimed ns).next
  | reset => exact fun _ _ _ => rfl

theorem step_untimed : UntimedResult step := by
  intro s timeout latency
  cases hp : s.pending with
  | nil =>
    rw [step_of_no_event hp, step_of_no_event (s := s.withTiming timeout latency) hp]
    rfl
  | cons e rest =>
    rw [step_of_pending hp, step_of_pending (s := s.withTiming timeout latency) hp]
    exact runEvent_untimed e { s with pending := rest } timeout latency

/-- Settles O55: a step keeps the parameters by its frame, and each operation it is made of reads no duration. -/
theorem parametersFixedAndUntimed : Obligations.ParametersFixedAndUntimed := by
  unfold Obligations.ParametersFixedAndUntimed
  exact ⟨fun _ _ => step_params, step_untimed⟩

end Sys2Proof.Machine
end

section
/-! The command word: which words decode, as the match and mask columns of the opcode map give them, and the word a
decoded command has. -/

namespace Sys2Proof

/-! ## The columns of the opcode map -/

theorem field_lt (w : Word) (hi lo : Nat) : field w hi lo < 2 ^ (hi + 1 - lo) := Nat.mod_lt _ (by positivity)

theorem Op.ofCode_eq_some_iff {n : Nat} {o : Op} : Op.ofCode n = some o ↔ o.code = n := by
  constructor
  · intro h
    simpa using List.find?_some h
  · rintro rfl
    cases o <;> rfl

theorem Op.toNat_matchWord (o : Op) : o.matchWord.toNat = o.code := by cases o <;> rfl

theorem Op.code_lt (o : Op) : o.code < 256 := by cases o <;> decide

/-- The mask column covers the opcode's bits and the reserved ones. -/
theorem Op.getLsbD_mask (o : Op) :
    ∀ j < 32, o.mask.getLsbD j = (decide (o.format.reservedFrom ≤ j) || decide (j < 8)) := by
  cases o <;> decide

/-- Masking removes the bits between the opcode and the reserved field. -/
theorem Op.toNat_and_mask (o : Op) (w : Word) :
    (w &&& o.mask).toNat = 2 ^ o.format.reservedFrom * (w.toNat / 2 ^ o.format.reservedFrom) + w.toNat % 2 ^ 8 := by
  have h8 : 2 ^ 8 ≤ 2 ^ o.format.reservedFrom := by cases o.format <;> decide
  rw [Nat.two_pow_add_eq_or_of_lt ((Nat.mod_lt _ (by decide)).trans_le h8)]
  refine Nat.eq_of_testBit_eq fun j => ?_
  rw [BitVec.toNat_and, Nat.testBit_and, Nat.testBit_or, Nat.testBit_two_pow_mul, Nat.testBit_div_two_pow,
    Nat.testBit_mod_two_pow, BitVec.testBit_toNat o.mask]
  by_cases hj : j < 32
  · rw [o.getLsbD_mask j hj]
    by_cases hr : o.format.reservedFrom ≤ j <;> by_cases h : j < 8 <;> simp [hr, h]
  · have hw : w.toNat.testBit j = false := BitVec.getLsbD_of_ge w j (by omega)
    by_cases hr : o.format.reservedFrom ≤ j <;> simp [hr, hw]

theorem Op.and_mask_eq_matchWord_iff (o : Op) (w : Word) :
    w &&& o.mask = o.matchWord ↔ field w 7 0 = o.code ∧ field w 31 o.format.reservedFrom = 0 := by
  have hw := w.isLt
  have hc := o.code_lt
  rw [← BitVec.toNat_inj, o.toNat_and_mask, o.toNat_matchWord, field, field]
  cases o.format <;> simp only [Format.reservedFrom] <;> omega

/-! ## The decoder -/

/-- The rows of the opcode map exclude each other, so the decoder accepts what some row accepts (30_encoding.md rule
R88). -/
theorem decode_eq_ok_iff {n : Nat} {w : Word} {i : Instr} :
    decode n w = .ok i ↔ ∃ o : Op, w &&& o.mask = o.matchWord ∧ assemble o w = some i ∧ i.wf n = true := by
  simp only [decode, Op.and_mask_eq_matchWord_iff]
  cases ho : Op.ofCode (field w 7 0) with
  | none =>
    have hno (o : Op) : field w 7 0 ≠ o.code := fun h => by simp [Op.ofCode_eq_some_iff.mpr h.symm] at ho
    simp [hno]
  | some o =>
    have hcode (o' : Op) : field w 7 0 = o'.code ↔ o = o' := by
      rw [eq_comm, ← Op.ofCode_eq_some_iff, ho, Option.some_inj]
    simp only [hcode, and_assoc, exists_eq_left']
    by_cases hres : field w 31 o.format.reservedFrom = 0
    · cases assemble o w with
      | none => simp [hres]
      | some j =>
        simp only [hres, ne_eq, not_true_eq_false, if_false, Option.some_inj, true_and]
        constructor
        · intro h
          split at h
          · cases h
            exact ⟨rfl, ‹_›⟩
          · cases h
        · rintro ⟨rfl, hwf⟩
          exact if_pos hwf
    · simp [hres]

theorem Axis.number_of_ofField {m : Nat} {a : Axis} (h : Axis.ofField m = some a) : a.number = m := by
  match m with
  | 0 | 1 | 2 => cases h; rfl

theorem Axis.ofField_eq_none_iff {m : Nat} (h : m < 4) : Axis.ofField m = none ↔ m = 3 := by
  match m with
  | 0 | 1 | 2 | 3 => decide

theorem AxisSel.number_ofField {m : Nat} (h : m < 4) : (AxisSel.ofField m).number = m := by
  match m with
  | 0 | 1 | 2 | 3 => decide

theorem MapKind.number_ofField {m : Nat} (h : m < 2) : (MapKind.ofField m).number = m := by
  match m with
  | 0 | 1 => decide

theorem Channel.ofField_eq_some_iff {m : Nat} {c : Channel} : Channel.ofField m = some c ↔ c.number = m := by
  have := c.isLt
  simp only [Channel.ofField, Channel.number, Option.dite_none_right_eq_some, Option.some_inj, Fin.ext_iff]
  constructor
  · rintro ⟨h, hc⟩
    omega
  · rintro rfl
    exact ⟨by omega, rfl⟩

/-- The fields an opcode's command is put together from are all the bits between the opcode and the reserved field
(30_encoding.md rule R82). -/
theorem op_and_operandBits_of_assemble {o : Op} {w : Word} {i : Instr} (h : assemble o w = some i) :
    i.op = o ∧ i.operandBits = field w (o.format.reservedFrom - 1) 8 := by
  cases o with
  | rcNorm =>
    obtain ⟨c, hc, rfl⟩ := Option.map_eq_some_iff.mp h
    refine ⟨rfl, ?_⟩
    rw [Instr.operandBits, Channel.ofField_eq_some_iff.mp hc, MapKind.number_ofField (field_lt w 12 12)]
    simp only [Op.format, Format.reservedFrom, field]
    omega
  | pidUpdate =>
    obtain ⟨a, ha, rfl⟩ := Option.map_eq_some_iff.mp h
    exact ⟨rfl, Axis.number_of_ofField ha⟩
  | pidReset =>
    cases h
    exact ⟨rfl, AxisSel.number_ofField (field_lt w 9 8)⟩
  | _ =>
    cases h
    exact ⟨rfl, (Nat.mod_one _).symm⟩

/-- A word that decodes is the word of its command (30_encoding.md rules R82, R85). -/
theorem encode_of_decode {n : Nat} {w : Word} {i : Instr} (h : decode n w = .ok i) : encode i = w := by
  obtain ⟨o, hrow, has, -⟩ := decode_eq_ok_iff.mp h
  obtain ⟨hcode, hres⟩ := (o.and_mask_eq_matchWord_iff w).mp hrow
  obtain ⟨rfl, hbits⟩ := op_and_operandBits_of_assemble has
  have hw := w.isLt
  rw [← BitVec.toNat_inj, encode, BitVec.toNat_ofNat, hbits, ← hcode]
  simp only [field] at hres ⊢
  revert hres
  cases i.op.format <;> simp only [Format.reservedFrom] <;> omega

theorem wf_of_decode {n : Nat} {w : Word} {i : Instr} (h : decode n w = .ok i) : i.wf n = true := by
  obtain ⟨o, -, -, hwf⟩ := decode_eq_ok_iff.mp h
  exact hwf

/-! ## The legal words -/

theorem Op.mask_of_format_n {o : Op} (h : o.format = .n) : o.mask = BitVec.allOnes 32 := by
  rw [Op.mask, h]
  rfl

theorem Op.exists_assemble_of_format_n {o : Op} (h : o.format = .n) (w : Word) (n : Nat) :
    ∃ i, assemble o w = some i ∧ i.wf n = true := by
  cases o with
  | rcNorm | pidUpdate | pidReset => cases h
  | _ => exact ⟨_, rfl, rfl⟩

/-- The first clause of `LegalWord` lists the rows of the format with no fields. -/
theorem mem_fieldlessWords_iff (w : Word) :
    w ∈ ([0x00000000, 0x00000001, 0x00000002, 0x00000020, 0x00000021, 0x00000022, 0x00000030, 0x00000031, 0x00000032]
      : List Word) ↔ ∃ o : Op, o.format = .n ∧ w = o.matchWord := by
  constructor
  · intro h
    simp only [List.mem_cons, List.not_mem_nil, or_false] at h
    rcases h with rfl | rfl | rfl | rfl | rfl | rfl | rfl | rfl | rfl
    exacts [⟨.nop, rfl, rfl⟩, ⟨.rcRead, rfl, rfl⟩, ⟨.norm, rfl, rfl⟩, ⟨.mix, rfl, rfl⟩, ⟨.duty, rfl, rfl⟩,
      ⟨.forceIdle, rfl, rfl⟩, ⟨.pwmEnable, rfl, rfl⟩, ⟨.pwmRelease, rfl, rfl⟩, ⟨.shutdown, rfl, rfl⟩]
  · rintro ⟨o, ho, rfl⟩
    cases o with
    | rcNorm | pidUpdate | pidReset => cases ho
    | _ => decide

theorem exists_assemble_rcNorm_iff (w : Word) {n : Nat} (hn : n ≤ 14) :
    (∃ i, assemble .rcNorm w = some i ∧ i.wf n = true) ↔ 1 ≤ field w 11 8 ∧ field w 11 8 ≤ n := by
  constructor
  · rintro ⟨i, has, hwf⟩
    obtain ⟨c, hc, rfl⟩ := Option.map_eq_some_iff.mp has
    rw [← Channel.ofField_eq_some_iff.mp hc]
    exact ⟨Nat.succ_pos _, of_decide_eq_true hwf⟩
  · rintro ⟨hpos, hle⟩
    obtain ⟨c, hc⟩ : ∃ c : Channel, c.number = field w 11 8 := ⟨⟨field w 11 8 - 1, by omega⟩, Nat.sub_add_cancel hpos⟩
    exact ⟨.rcNorm (MapKind.ofField (field w 12 12)) c,
      Option.map_eq_some_iff.mpr ⟨c, Channel.ofField_eq_some_iff.mpr hc, rfl⟩, decide_eq_true (hc.trans_le hle)⟩

theorem exists_assemble_pidUpdate_iff (w : Word) (n : Nat) :
    (∃ i, assemble .pidUpdate w = some i ∧ i.wf n = true) ↔ field w 9 8 ≠ 3 := by
  rw [Ne, ← Axis.ofField_eq_none_iff (field_lt w 9 8), ← Ne, Option.ne_none_iff_exists']
  constructor
  · rintro ⟨i, has, -⟩
    obtain ⟨a, ha, -⟩ := Option.map_eq_some_iff.mp has
    exact ⟨a, ha⟩
  · rintro ⟨a, ha⟩
    exact ⟨.pidUpdate a, Option.map_eq_some_iff.mpr ⟨a, ha, rfl⟩, rfl⟩

namespace Machine

theorem legalWord_iff_decode {n : Nat} {w : Word} (hn : n ≤ 14) : LegalWord n w ↔ ∃ i, decode n w = .ok i := by
  have hrows : (∃ i, decode n w = .ok i) ↔
      ∃ o : Op, w &&& o.mask = o.matchWord ∧ ∃ i, assemble o w = some i ∧ i.wf n = true := by
    simp only [decode_eq_ok_iff]
    rw [exists_comm]
    simp only [exists_and_left]
  rw [hrows, LegalWord, mem_fieldlessWords_iff]
  constructor
  · rintro (⟨o, ho, rfl⟩ | ⟨hrow, hchn⟩ | ⟨hrow, hax⟩ | hrow)
    · exact ⟨o, by rw [Op.mask_of_format_n ho, BitVec.and_allOnes], Op.exists_assemble_of_format_n ho _ n⟩
    · exact ⟨.rcNorm, hrow, (exists_assemble_rcNorm_iff w hn).mpr hchn⟩
    · exact ⟨.pidUpdate, hrow, (exists_assemble_pidUpdate_iff w n).mpr hax⟩
    · exact ⟨.pidReset, hrow, _, rfl, rfl⟩
  · rintro ⟨o, hrow, has⟩
    cases hf : o.format with
    | n =>
      rw [Op.mask_of_format_n hf, BitVec.and_allOnes] at hrow
      exact .inl ⟨o, hf, hrow⟩
    | a => 
      cases o with
      | pidUpdate => exact .inr (.inr (.inl ⟨hrow, (exists_assemble_pidUpdate_iff w n).mp has⟩))
      | pidReset => exact .inr (.inr (.inr hrow))
      | _ => cases hf
    | c => 
      cases o with
      | rcNorm => exact .inr (.inl ⟨hrow, (exists_assemble_rcNorm_iff w hn).mp has⟩)
      | _ => cases hf

end Machine

end Sys2Proof
end

section
/-! Host accesses by width and offset: reads, the reserved offsets, and bad accesses. -/

namespace Sys2Proof.Machine

/-! ## Bad accesses -/

theorem badAccess_of_halted {s : State} (h : s.halted = true) : badAccess s = .next s := if_pos h

theorem badAccess_of_not_halted {s : State} (h : s.halted = false) : badAccess s = .next (faultEntry .badAccess s) :=
  if_neg (by simp [h])

/-- The result `r` is that of a bad access which leaves `u` to the fault: the fault BAD_ACCESS, or nothing more while
halted (20_memory.md rule R66, 60_exceptions.md rule R205). -/
def IsBadAccess (r : Result) (u : State) : Prop :=
  (u.halted = false → r = .next (faultEntry .badAccess u)) ∧ (u.halted = true → r = .next u)

theorem badAccess_isBadAccess (s : State) : IsBadAccess (badAccess s) s :=
  ⟨badAccess_of_not_halted, badAccess_of_halted⟩

theorem admitted_eq_false {width : Width} {off : Nat} (h : width ≠ .w32 ∨ off % 4 ≠ 0) :
    admitted width off = false := by
  rw [← Bool.not_eq_true, admitted_iff]
  tauto

/-- A write that is not admitted, or one at an offset where no register but a `RO` one lies (20_memory.md rules
R61, R64, R65). -/
def BadWrite (width : Width) (off : Nat) : Prop :=
  admitted width off = false ∨ ∀ r : Reg, r.offset = off → r.access = .readOnly

theorem hostWrite_of_bad {width : Width} {addr off : Nat} (v : Word) {s : State}
    (ho : windowOffset s.params addr = some off) (h : BadWrite width off) : hostWrite width addr v s = badAccess s := by
  cases hh : s.halted with
  | true => simp [hostWrite, ho, badAccess_of_halted hh, hh]
  | false =>
    simp only [hostWrite, ho, hh, Bool.false_eq_true, if_false]
    rcases h with hadm | hro
    · simp [hadm]
    · cases hr : Reg.ofOffset off with
      | none => exact ite_self _
      | some r => simp [hro r (Reg.ofOffset_some hr)]

/-! ## The window by offset -/

theorem Reg.ofOffset_eq_none_iff {off : Nat} : Reg.ofOffset off = none ↔ ∀ r : Reg, r.offset ≠ off := by
  simp [Reg.ofOffset, Reg.mem_all]

theorem reservedOffset_iff_ofOffset :
    ∀ k : Fin 128, ReservedOffset (4 * k.val) ↔ Reg.ofOffset (4 * k.val) = none := by
  unfold ReservedOffset
  decide

theorem ReservedOffset.range {off : Nat} (h : ReservedOffset off) : off < 0x200 ∧ off % 4 = 0 := by
  unfold ReservedOffset at h
  omega

/-- The reserved word offsets are those of no register (20_memory.md rule R64). -/
theorem reservedOffset_iff {off : Nat} (hlt : off < 0x200) (hal : off % 4 = 0) :
    ReservedOffset off ↔ ∀ r : Reg, r.offset ≠ off := by
  have h := reservedOffset_iff_ofOffset ⟨off / 4, by omega⟩
  rwa [show 4 * (off / 4) = off by omega, Reg.ofOffset_eq_none_iff] at h

theorem ReservedOffset.offset_ne {off : Nat} (h : ReservedOffset off) (r : Reg) : r.offset ≠ off :=
  (reservedOffset_iff h.range.1 h.range.2).mp h r

theorem ReservedOffset.readOffset {off : Nat} (h : ReservedOffset off) (s : State) : s.readOffset off = 0 := by
  simp [State.readOffset, Reg.ofOffset_eq_none_iff.mpr h.offset_ne]

theorem Reg.offset_injective : Function.Injective Reg.offset := fun r r' h =>
  Option.some_inj.mp (by rw [← r.ofOffset_offset, h, r'.ofOffset_offset])

theorem badWrite_of_reserved_or_readOnly {width : Width} {off : Nat}
    (h : ReservedOffset off ∨ ∃ r : Reg, r.offset = off ∧ r.access = .readOnly) : BadWrite width off := by
  refine .inr fun r hr => ?_
  rcases h with hres | ⟨r', hr', hro⟩
  · exact absurd hr (hres.offset_ne r)
  · rwa [Reg.offset_injective (hr.trans hr'.symm)]

/-! ## The step of a host access -/

section HostAccess

variable {s : State} {width : Width} {off : Nat} {v : Word} {rest : List Event}

theorem readReg_setPending (s : State) (r : Reg) (es : List Event) :
    State.readReg { s with pending := es } r = s.readReg r := by
  cases r <;> rfl

theorem readOffset_setPending (s : State) (off : Nat) (es : List Event) :
    State.readOffset { s with pending := es } off = s.readOffset off := by
  simp only [State.readOffset, readReg_setPending]

theorem step_hostRead_admitted (hp : s.pending = .hostRead .w32 (s.params.blockBase + off) :: rest) (ho : off < 0x200)
    (hal : off % 4 = 0) : step s = .next { s with pending := rest, readData := some (s.readOffset off) } := by
  rw [step_of_pending hp, runEvent, hostRead, windowOffset_base_add ho]
  simp only [readOffset_setPending, admitted_iff.mpr ⟨rfl, hal⟩, if_true]

theorem step_hostRead_bad (hp : s.pending = .hostRead width (s.params.blockBase + off) :: rest) (ho : off < 0x200)
    (hbad : width ≠ .w32 ∨ off % 4 ≠ 0) : IsBadAccess (step s) { s with pending := rest, readData := some 0 } := by
  rw [step_of_pending hp, runEvent, hostRead, windowOffset_base_add ho]
  simp only [admitted_eq_false hbad, Bool.false_eq_true, if_false]
  exact badAccess_isBadAccess _

theorem step_hostWrite_bad (hp : s.pending = .hostWrite width (s.params.blockBase + off) v :: rest) (ho : off < 0x200)
    (hbad : BadWrite width off) : IsBadAccess (step s) { s with pending := rest } := by
  have hwin : windowOffset s.params (s.params.blockBase + off) = some off := windowOffset_base_add ho
  rw [step_of_pending hp, runEvent, hostWrite_of_bad v (s := { s with pending := rest }) hwin hbad]
  exact badAccess_isBadAccess _

end HostAccess

/-! ## Reads and bad accesses -/

/-- Settles O7: a register's offset is admitted, and the register map gives the register there. -/
theorem readReturnsValueOnly : Obligations.ReadReturnsValueOnly := by
  unfold Obligations.ReadReturnsValueOnly
  intro s r rest hp
  obtain ⟨ho, hal⟩ := r.offset_range
  rw [step_hostRead_admitted hp ho hal, s.readOffset_offset]
  exact ⟨rfl, rfl⟩

/-- Settles O8: no register lies at the listed offsets, so a read gives 0 and a write is a bad access. -/
theorem reservedOffsetAccess : Obligations.ReservedOffsetAccess := by
  unfold Obligations.ReservedOffsetAccess
  refine ⟨fun off => reservedOffset_iff, fun s off rest hres => ?_⟩
  obtain ⟨ho, hal⟩ := hres.range
  refine ⟨fun hp => ?read, fun v hp hh => ?write⟩
  case read => rw [step_hostRead_admitted hp ho hal, hres.readOffset]
  case write => exact (step_hostWrite_bad hp ho (badWrite_of_reserved_or_readOnly (.inl hres))).1 hh

/-- Settles O10: each of these accesses is the model's bad access. -/
theorem badAccessFaults : Obligations.BadAccessFaults := by
  unfold Obligations.BadAccessFaults
  intro s width off v rest ho
  refine ⟨fun hbad => ⟨fun hp => ?read, fun hp => ?write⟩, fun hro hp => ?right⟩
  case read => exact step_hostRead_bad hp ho hbad
  case write => exact step_hostWrite_bad hp ho (.inl (admitted_eq_false hbad))
  case right => exact step_hostWrite_bad hp ho (badWrite_of_reserved_or_readOnly hro)

end Sys2Proof.Machine
end

section
/-! Writes of `CMD`: the issue of a command word. -/

namespace Sys2Proof.Machine

theorem hostWrite_of_halted {width : Width} {addr off : Nat} (v : Word) {s : State}
    (ho : windowOffset s.params addr = some off) (hh : s.halted = true) : hostWrite width addr v s = .next s := by
  simp [hostWrite, ho, hh]

theorem hostWrite_cmd {addr : Nat} (w : Word) {s : State} (ho : windowOffset s.params addr = some Reg.cmd.offset)
    (hh : s.halted = false) : hostWrite .w32 addr w s = issue w s := by
  simp [hostWrite, ho, hh, admitted_iff.mpr ⟨rfl, Reg.cmd.offset_range.2⟩, Reg.ofOffset_offset, Reg.access]

theorem issue_of_busy (w : Word) {s : State} (hb : s.busy = true) :
    issue w s = .next (faultEntry .busy { s with cmd := w }) :=
  if_pos hb

theorem issue_of_decode_ok {w : Word} {s : State} {i : Instr} (hb : s.busy = false)
    (hd : decode s.params.numChannels w = .ok i) : issue w s = exec i { s with cmd := w } := by
  have hnb : ¬ State.busy { s with cmd := w } = true := by simpa [State.busy] using hb
  simp only [issue, if_neg hnb, hd]

theorem issue_of_decode_error {w : Word} {s : State} {r : Reject} (hb : s.busy = false)
    (hd : decode s.params.numChannels w = .error r) : issue w s = .next (faultEntry .badCmd { s with cmd := w }) := by
  have hnb : ¬ State.busy { s with cmd := w } = true := by simpa [State.busy] using hb
  simp only [issue, if_neg hnb, hd, raise]

theorem windowOffset_blockBase (p : Params) : windowOffset p p.blockBase = some Reg.cmd.offset :=
  windowOffset_base_add (off := 0) (by decide)

section CommandWrite

variable {s : State} {w : Word} {rest : List Event}
  (hp : s.pending = .hostWrite .w32 s.params.blockBase w :: rest)
include hp

theorem step_commandWrite_of_halted (hh : s.halted = true) : step s = .next { s with pending := rest } :=
  (step_of_pending hp).trans
    (hostWrite_of_halted w (s := { s with pending := rest }) (windowOffset_blockBase s.params) hh)

theorem step_commandWrite (hh : s.halted = false) : step s = issue w { s with pending := rest } :=
  (step_of_pending hp).trans (hostWrite_cmd w (s := { s with pending := rest }) (windowOffset_blockBase s.params) hh)

end CommandWrite

/-- Settles O5: offset 0 is that of `CMD`, and the issue of a word that decodes runs its command. -/
theorem stepRunsDecodedCommand : Obligations.StepRunsDecodedCommand := by
  unfold Obligations.StepRunsDecodedCommand
  intro s w i rest hp hh hb hd
  rw [step_commandWrite hp hh]
  exact issue_of_decode_ok (s := { s with pending := rest }) hb hd

/-- Settles O4: the decoder accepts exactly the legal words, and a word is the encoding of what it decodes to. -/
theorem commandWriteIssues : Obligations.CommandWriteIssues := by
  unfold Obligations.CommandWriteIssues
  intro s w rest hp
  have hlegal := legalWord_iff_decode (w := w) (params_numChannels_range s.params).2
  refine ⟨step_commandWrite_of_halted hp, fun hh hb => ?busy, fun hh hb hw => ?illegal, fun hh hb hw => ?legal⟩
  case busy =>
    rw [step_commandWrite hp hh]
    exact issue_of_busy w hb
  case illegal =>
    rw [step_commandWrite hp hh]
    cases hd : decode s.params.numChannels w with
    | error r => exact issue_of_decode_error (s := { s with pending := rest }) hb hd
    | ok i => exact absurd (hlegal.mpr ⟨i, hd⟩) hw
  case legal =>
    obtain ⟨i, hd⟩ := hlegal.mp hw
    exact ⟨i, encode_of_decode hd, wf_of_decode hd, stepRunsDecodedCommand s w i rest hp hh hb hd⟩

end Sys2Proof.Machine
end

section
/-! Writes of a `RW` register: what is read afterwards, and that the RC engine does not see them. -/

namespace Sys2Proof.Machine

/-! ## What is read after a write -/

theorem hostWrite_of_readWrite {addr : Nat} {r : Reg} (v : Word) {s : State}
    (ho : windowOffset s.params addr = some r.offset) (hh : s.halted = false) (hr : r.access = .readWrite) :
    hostWrite .w32 addr v s = .next (s.writeReg r v) := by
  simp [hostWrite, ho, hh, admitted_iff.mpr ⟨rfl, r.offset_range.2⟩, Reg.ofOffset_offset, hr]

theorem State.arg_setArg (s : State) (i j : Fin 5) (v : Word) :
    (s.setArg i v).arg j = if j = i then v else s.arg j := by
  fin_cases i <;> fin_cases j <;> rfl

theorem readReg_writeReg_self (s : State) {r : Reg} (v : Word) (hr : r.access = .readWrite) :
    (s.writeReg r v).readReg r = v := by
  cases r with
  | arg i => exact (s.arg_setArg i i v).trans (if_pos rfl)
  | kp a | ki a | kd a | pidOut a => exact PerAxis.get_set_self _ a v
  | idleThr | govThr | deadzone | dutyFloor | dutyCeil => rfl
  | _ => cases hr

/-- Only a register of the same kind can read the field a write changes; there the index or the register differs. -/
theorem readReg_writeReg_ne (s : State) {r r' : Reg} (v : Word) (h : r' ≠ r) :
    (s.writeReg r v).readReg r' = s.readReg r' := by
  cases r with
  | arg i =>
    cases r' with
    | arg j => exact (s.arg_setArg i j v).trans (if_neg (by rintro rfl; exact h rfl))
    | _ => fin_cases i <;> rfl
  | kp a | ki a | kd a | pidOut a =>
    cases r' <;> try rfl
    exact PerAxis.get_set_ne _ v (by rintro rfl; exact h rfl)
  | idleThr | govThr | deadzone | dutyFloor | dutyCeil =>
    cases r' <;> try rfl
    exact absurd rfl h
  | _ => rfl

theorem writeReg_sameHidden (s : State) (r : Reg) (v : Word) : SameHidden s (s.writeReg r v) := by
  rw [writeReg_frame s r v]
  exact ⟨rfl, rfl, rfl, rfl, rfl, rfl, rfl⟩

theorem writeReg_setPending (s : State) (r : Reg) (v : Word) (es : List Event) :
    State.writeReg { s with pending := es } r v = { s.writeReg r v with pending := es } := by
  cases r with
  | arg i => fin_cases i <;> rfl
  | _ => rfl

/-! ## The engine does not see a register write -/

/-- `s` with the pending events and the registers of access `RW` of `t`. -/
def State.withHostRegs (s t : State) : State :=
  { s with
    pending := t.pending, arg0 := t.arg0, arg1 := t.arg1, arg2 := t.arg2, arg3 := t.arg3, arg4 := t.arg4, kp := t.kp,
    ki := t.ki, kd := t.kd, pidOut := t.pidOut, idleThr := t.idleThr, govThr := t.govThr, deadzone := t.deadzone,
    dutyFloor := t.dutyFloor, dutyCeil := t.dutyCeil }

theorem validateFrame_withHostRegs (s t : State) :
    validateFrame (s.withHostRegs t) = (validateFrame s).withHostRegs t := by
  simp only [validateFrame, apply_ite (State.withHostRegs · t)]
  rfl

theorem huntStep_withHostRegs (s t : State) : huntStep (s.withHostRegs t) = (huntStep s).withHostRegs t := by
  have hrxq : (s.withHostRegs t).rxq = s.rxq := rfl
  simp only [huntStep, hrxq]
  cases s.rxq <;> simp only [apply_ite (State.withHostRegs · t)] <;> rfl

theorem payloadStep_withHostRegs (s t : State) : payloadStep (s.withHostRegs t) = (payloadStep s).withHostRegs t := by
  have hrxq : (s.withHostRegs t).rxq = s.rxq := rfl
  simp only [payloadStep, hrxq]
  cases s.rxq with
  | nil => rfl
  | cons b q =>
    simp only [apply_ite (State.withHostRegs · t)]
    exact if_congr Iff.rfl (validateFrame_withHostRegs
      { s with rxq := q, rcBuf := s.rcBuf.setIfInBounds s.rcCount b, rcCount := s.rcCount + 1 } t) rfl

/-- The engine neither reads nor writes what the host writes in a `RW` register (20_memory.md rule R63). -/
theorem rcEngineStep_withHostRegs (s t : State) :
    rcEngineStep (s.withHostRegs t) = (rcEngineStep s).withHostRegs t := by
  have hphase : (s.withHostRegs t).rcPhase = s.rcPhase := rfl
  simp only [rcEngineStep, hphase]
  cases s.rcPhase with
  | idle => rfl
  | hunt => exact huntStep_withHostRegs s t
  | payload => exact payloadStep_withHostRegs s t

/-- A register write before or after an engine step gives the `RW` registers the same values. -/
theorem writeReg_eq_withHostRegs {s s' : State} (h : OnlyEngineAndChannels s s') (r : Reg) (v : Word)
    (es : List Event) :
    { s'.writeReg r v with pending := es } = s'.withHostRegs { s.writeReg r v with pending := es } := by
  rw [h]
  cases r with
  | arg i => fin_cases i <;> rfl
  | _ => rfl

theorem rcEngineStep_writeReg (s : State) (r : Reg) (v : Word) (es : List Event) :
    rcEngineStep { s.writeReg r v with pending := es } = { (rcEngineStep s).writeReg r v with pending := es } := by
  rw [writeReg_eq_withHostRegs (rcEngineStep_frame s), ← rcEngineStep_withHostRegs,
    ← writeReg_eq_withHostRegs (s := s) (s' := s) rfl]

/-- Settles O9: the write is an update of one register, and it commutes with the engine's step. -/
theorem registerWriteStores : Obligations.RegisterWriteStores := by
  unfold Obligations.RegisterWriteStores
  intro s r v rest hr hh hp
  have hstep : step s = .next { s.writeReg r v with pending := rest } := by
    rw [step_of_pending hp, ← writeReg_setPending]
    exact hostWrite_of_readWrite v (windowOffset_base_add r.offset_range.1) hh hr
  have hframe := writeReg_frame s r v
  refine ⟨_, hstep, rfl, ?params, ?readData, ?value, fun r' hne => ?other, writeReg_sameHidden s r v,
    rcEngineStep_writeReg s r v rest⟩
  case params => rw [hframe]
  case readData => rw [hframe]
  case value => rw [readReg_setPending, readReg_writeReg_self s v hr]
  case other => rw [readReg_setPending, readReg_writeReg_ne s v hne]

end Sys2Proof.Machine
end

section
/-! Every step answers a next state, but for a host access outside the window; and what the byte source's step does. -/

namespace Sys2Proof.Machine

/-! ## Every step answers -/

theorem exec_next (i : Instr) (s : State) : ∃ t, exec i s = .next t := by
  rcases exec_cases i s with ⟨t, h, -⟩ | ⟨c, -, h⟩
  · exact ⟨t, h⟩
  · exact ⟨_, h⟩

theorem issue_next (w : Word) (s : State) : ∃ t, issue w s = .next t := by
  rcases issue_cases w s with ⟨-, h⟩ | ⟨-, -, h⟩ | ⟨-, i, -, h⟩
  · exact ⟨_, h⟩
  · exact ⟨_, h⟩
  · rw [h]
    exact exec_next i _

theorem hostRead_next {width : Width} {addr off : Nat} {s : State} (ho : windowOffset s.params addr = some off) :
    ∃ t, hostRead width addr s = .next t := by
  rcases hostRead_cases (width := width) ho with ⟨-, -, h⟩ | ⟨-, -, h⟩ | ⟨-, -, h⟩ <;> exact ⟨_, h⟩

theorem hostWrite_next {width : Width} {addr off : Nat} (v : Word) {s : State}
    (ho : windowOffset s.params addr = some off) : ∃ t, hostWrite width addr v s = .next t := by
  rcases hostWrite_cases (width := width) v ho with ⟨-, h⟩ | ⟨-, h⟩ | ⟨-, -, -, h⟩ | ⟨-, -, r, -, -, h⟩
  · exact ⟨_, h⟩
  · exact ⟨_, h⟩
  · rw [h]
    exact issue_next v s
  · exact ⟨_, h⟩

theorem runEvent_outside {e : Event} {s : State} (h : e.isOutside s.params = true) :
    runEvent e s = .refused .outsideWindow := by
  cases e with
  | hostRead width addr => simp [runEvent, hostRead, Option.isNone_iff_eq_none.mp h]
  | hostWrite width addr v => simp [runEvent, hostWrite, Option.isNone_iff_eq_none.mp h]
  | _ => cases h

theorem runEvent_inside {e : Event} {s : State} (h : e.isOutside s.params = false) : ∃ t, runEvent e s = .next t := by
  cases e with
  | hostRead width addr =>
    obtain ⟨off, ho⟩ := Option.isSome_iff_exists.mp (Option.isNone_eq_false_iff.mp h)
    exact hostRead_next ho
  | hostWrite width addr v =>
    obtain ⟨off, ho⟩ := Option.isSome_iff_exists.mp (Option.isNone_eq_false_iff.mp h)
    exact hostWrite_next v ho
  | _ => exact ⟨_, rfl⟩

/-- Settles O11: of the events only a host access can be refused, and inside the window each of its cases answers. -/
theorem stepAnswersInsideWindow : Obligations.StepAnswersInsideWindow := by
  unfold Obligations.StepAnswersInsideWindow
  refine fun s => ⟨fun e rest hp hout => ?_, fun hin => ?_⟩
  · rw [step_of_pending hp]
    exact runEvent_outside (s := { s with pending := rest }) hout
  · cases hp : s.pending with
    | nil => exact ⟨s, step_of_no_event hp⟩
    | cons e rest =>
      rw [step_of_pending hp]
      exact runEvent_inside (s := { s with pending := rest }) (hin e rest hp)

/-! ## The byte source -/

/-- Settles O45: the two branches of the push. -/
theorem rxPushEffect : Obligations.RxPushEffect := by
  unfold Obligations.RxPushEffect
  intro s b rest hp
  rw [step_of_pending hp, runEvent, rxPush]
  exact ⟨fun h => congrArg _ (if_pos h), fun h => congrArg _ (if_neg h.not_gt)⟩

end Sys2Proof.Machine
end

section
/-! The encoder and the decoder are inverse to each other (30_encoding.md rules R81 to R86). -/

namespace Sys2Proof

/-! ## The fields of an encoded command -/

theorem encode_tableRow (i : Instr) : Laws.TableRow.Statement i := by
  cases i with
  | nop => exact Laws.TableRow.nop
  | rcRead => exact Laws.TableRow.rcRead
  | norm => exact Laws.TableRow.norm
  | rcNorm k c => exact Laws.TableRow.rcNorm k c
  | pidUpdate a => exact Laws.TableRow.pidUpdate a
  | pidReset sel => exact Laws.TableRow.pidReset sel
  | mix => exact Laws.TableRow.mix
  | duty => exact Laws.TableRow.duty
  | forceIdle => exact Laws.TableRow.forceIdle
  | pwmEnable => exact Laws.TableRow.pwmEnable
  | pwmRelease => exact Laws.TableRow.pwmRelease
  | shutdown => exact Laws.TableRow.shutdown

/-- All the bits between the opcode and the reserved field of the word of `i` are its operand (30_encoding.md rule
R82). -/
theorem field_encode_operandBits (i : Instr) :
    field (encode i) (i.op.format.reservedFrom - 1) 8 = i.operandBits := by
  obtain ⟨-, hcode, hbits⟩ := encode_tableRow i
  rw [field, encode, BitVec.toNat_ofNat]
  revert hbits
  cases i.op.format <;> simp only [Format.reservedFrom] <;> omega

theorem Axis.ofField_number (a : Axis) : Axis.ofField a.number = some a := by cases a <;> rfl

theorem AxisSel.ofField_number (sel : AxisSel) : AxisSel.ofField sel.number = sel := by
  cases sel with
  | one a => rw [AxisSel.number, AxisSel.ofField, Axis.ofField_number]
  | all => rfl

theorem MapKind.ofField_number (k : MapKind) : MapKind.ofField k.number = k := by cases k <;> rfl

/-- The fields `K` and `CHN` take apart the five operand bits of RC_NORM (30_encoding.md rule R82). -/
theorem rcNorm_fields {w : Word} {k : MapKind} {c : Channel} (h : field w 12 8 = c.number + 16 * k.number) :
    field w 11 8 = c.number ∧ field w 12 12 = k.number := by
  have hc : c.number < 16 := Nat.succ_lt_succ (c.isLt.trans (by decide))
  simp only [field] at h ⊢
  omega

/-- The converse of `op_and_operandBits_of_assemble`: opcode and operand bits determine the assembled command. -/
theorem assemble_of_operandBits {w : Word} {i : Instr}
    (h : field w (i.op.format.reservedFrom - 1) 8 = i.operandBits) : assemble i.op w = some i := by
  cases i with
  | rcNorm k c =>
    obtain ⟨hchn, hk⟩ := rcNorm_fields h
    simp only [Instr.op, assemble, hk, Channel.ofField_eq_some_iff.mpr hchn.symm, MapKind.ofField_number,
      Option.map_some]
  | pidUpdate a =>
    have hax : field w 9 8 = a.number := h
    simp only [Instr.op, assemble, hax, Axis.ofField_number, Option.map_some]
  | pidReset sel =>
    have hax : field w 9 8 = sel.number := h
    simp only [Instr.op, assemble, hax, AxisSel.ofField_number]
  | _ => rfl

/-! ## The round trips -/

/-- Settles O2: the word of a command lies in the row of its opcode, and its operand bits give its operands back. -/
theorem decodeOfEncode : Obligations.DecodeOfEncode := by
  unfold Obligations.DecodeOfEncode
  intro n i hwf
  obtain ⟨hrow, -, -⟩ := encode_tableRow i
  exact decode_eq_ok_iff.mpr ⟨i.op, hrow, assemble_of_operandBits (field_encode_operandBits i), hwf⟩

/-- Settles O3: `encode_of_decode` recovers the word, `wf_of_decode` is the decoder's last test. -/
theorem encodeOfDecode : Obligations.EncodeOfDecode := by
  unfold Obligations.EncodeOfDecode
  exact fun n w i h => ⟨encode_of_decode h, wf_of_decode h⟩

/-! ## The words of the opcode map -/

/-- At the reference number of channels `decodeTableWord` reads the word of a command as that command. -/
theorem decodeTableWord_encode {i : Instr} {w : Nat} (hw : encode i = BitVec.ofNat 32 w)
    (hwf : i.wf Params.reference.numChannels = true) : decodeTableWord 32 w = some i := by
  have hlt : w % 2 ^ 32 < 2 ^ 32 := Nat.mod_lt _ (by decide)
  have hword : BitVec.ofNat 32 (w % 2 ^ 32) = encode i := by
    rw [hw, ← BitVec.toNat_inj, BitVec.toNat_ofNat, BitVec.toNat_ofNat, Nat.mod_mod]
  simp only [decodeTableWord, if_neg hlt.not_ge, hword, decodeOfEncode _ i hwf]

/-- Settles O1: each word is the encoding of the command the table names, so the round trip reads it as that command. -/
theorem specWordsDecode : Obligations.SpecWordsDecode := by
  unfold Obligations.SpecWordsDecode
  and_intros <;> exact decodeTableWord_encode rfl rfl

end Sys2Proof
end

section
/-! The RC frame: its checksum as one weighted sum over the bytes, and the channels it carries. -/

namespace Sys2Proof.Machine

/-! ## The checksum -/

/-- The weight of byte i in the checksum equation: the last byte is the high byte of RX (40_rc_decoder.md rule R102). -/
def checksumWeight (i : Nat) : Nat := if i = 30 then 256 else 1

/-- S + RX as one weighted sum over the bytes of the buffer. -/
def weightedSum (buf : Vector Byte 31) : Nat :=
  ∑ i ∈ Finset.range 31, checksumWeight i * (buf.toList.getD i 0).toNat

theorem checksumWeight_pos (i : Nat) : 0 < checksumWeight i := by
  unfold checksumWeight
  split <;> decide

theorem toList_getD_eq_getElem (buf : Vector Byte 31) {i : Nat} (hi : i < 31) : buf.toList.getD i 0 = buf[i] := by
  simp [hi]

theorem frameSum_eq_sum_range (buf : Vector Byte 31) :
    frameSum buf = ((List.range 29).map fun i => (buf.toList.getD i 0).toNat).sum := by
  have htake : (buf.toList.take 29).map BitVec.toNat = (List.range 29).map fun i => (buf.toList.getD i 0).toNat :=
    List.ext_getElem (by simp) fun i hi _ => by
      have hlt : i < 29 := by simpa using hi
      simp [hlt.trans (show 29 < 31 by decide)]
  rw [frameSum, htake]

theorem frameChecksum_eq_getD (buf : Vector Byte 31) :
    frameChecksum buf = (buf.toList.getD 29 0).toNat + 256 * (buf.toList.getD 30 0).toNat := by
  rw [toList_getD_eq_getElem buf (by decide), toList_getD_eq_getElem buf (by decide), frameChecksum]

theorem frameSum_le (buf : Vector Byte 31) : frameSum buf ≤ 7395 := by
  rw [frameSum_eq_sum_range]
  refine (List.sum_le_card_nsmul _ 255 fun n hn => ?_).trans (by simp)
  obtain ⟨i, -, rfl⟩ := List.mem_map.mp hn
  exact Nat.le_of_lt_succ (BitVec.isLt _)

theorem weightedSum_eq (buf : Vector Byte 31) : weightedSum buf = frameSum buf + frameChecksum buf := by
  have hlow : ∑ i ∈ Finset.range 29, checksumWeight i * (buf.toList.getD i 0).toNat = frameSum buf := by
    rw [frameSum_eq_sum_range, ← List.sum_toFinset _ List.nodup_range, List.toFinset_range]
    refine Finset.sum_congr rfl fun i hi => ?_
    have hne : i ≠ 30 := by
      have := Finset.mem_range.mp hi
      omega
    rw [checksumWeight, if_neg hne, Nat.one_mul]
  rw [weightedSum, Finset.sum_range_succ, Finset.sum_range_succ, hlow, frameChecksum_eq_getD]
  simp [checksumWeight, Nat.add_assoc]

theorem frameValid_iff_weightedSum (buf : Vector Byte 31) : frameValid buf = true ↔ weightedSum buf = 0xFFDF := by
  rw [weightedSum_eq, frameValid, decide_eq_true_iff, Config.rcCkBase]
  omega

/-- Changing one byte changes the weighted sum. -/
theorem weightedSum_set_ne (buf : Vector Byte 31) {i : Nat} (hi : i < 31) {b : Byte} (hb : b ≠ buf[i]) :
    weightedSum (buf.set i b) ≠ weightedSum buf := by
  have hmem : i ∈ Finset.range 31 := Finset.mem_range.mpr hi
  have hrest : ∑ j ∈ (Finset.range 31).erase i, checksumWeight j * ((buf.set i b).toList.getD j 0).toNat =
      ∑ j ∈ (Finset.range 31).erase i, checksumWeight j * (buf.toList.getD j 0).toNat := by
    refine Finset.sum_congr rfl fun j hj => ?_
    obtain ⟨hne, hj⟩ := Finset.mem_erase.mp hj
    have hj := Finset.mem_range.mp hj
    rw [toList_getD_eq_getElem _ hj, toList_getD_eq_getElem _ hj, Vector.getElem_set_ne _ _ hne.symm]
  rw [weightedSum, weightedSum, ← Finset.add_sum_erase _ _ hmem, ← Finset.add_sum_erase _ _ hmem, hrest,
    toList_getD_eq_getElem _ hi, toList_getD_eq_getElem _ hi, Vector.getElem_set_self]
  intro h
  have hmul := Nat.add_right_cancel h
  exact hb (BitVec.eq_of_toNat_eq (Nat.eq_of_mul_eq_mul_left (checksumWeight_pos i) hmul))

/-- Settles O15: validity is an equation of the weighted sum, which every byte enters with a positive weight. -/
theorem checksumRule : Obligations.ChecksumRule := by
  unfold Obligations.ChecksumRule
  intro buf
  have hsum := frameSum_le buf
  have hvalid : frameValid buf = true ↔ frameSum buf + frameChecksum buf = 0xFFDF := by
    rw [frameValid_iff_weightedSum, weightedSum_eq]
  refine ⟨frameSum buf, frameChecksum buf, frameSum_eq_sum_range buf, frameChecksum_eq_getD buf, hsum, by omega,
    by omega, hvalid.trans (by omega), hvalid.trans (by omega), fun hrx => ?low, fun hv i b hb => ?changed⟩
  case low =>
    rw [← Bool.not_eq_true, hvalid]
    omega
  case changed =>
    rw [← Bool.not_eq_true, frameValid_iff_weightedSum, ← (frameValid_iff_weightedSum buf).mp hv]
    exact weightedSum_set_ne buf i.isLt hb

/-! ## The channels -/

theorem toNat_frameChannel (buf : Vector Byte 31) (c : Channel) :
    (frameChannel buf c).toNat =
      (buf.toList.getD (2 * c.number - 1) 0).toNat + 256 * (buf.toList.getD (2 * c.number) 0).toNat := by
  have hc : 2 * c.number < 31 := by
    have := c.isLt
    unfold Channel.number
    omega
  have hlow := (buf[2 * c.number - 1]).isLt
  have hhigh := (buf[2 * c.number]).isLt
  rw [toList_getD_eq_getElem buf hc, toList_getD_eq_getElem buf (by omega), frameChannel, BitVec.toNat_ofNat,
    Nat.mod_eq_of_lt (by omega)]

theorem channelsFrom_of_le {p : Params} {buf : Vector Byte 31} {old : Vector (BitVec 16) 14} {c : Channel}
    (hc : c.number ≤ p.numChannels) : (channelsFrom p buf old)[c] = frameChannel buf c := by
  simp [channelsFrom, hc]

/-- Settles O16: two bytes fit the sixteen bits of a channel. -/
theorem channelExtraction : Obligations.ChannelExtraction := by
  unfold Obligations.ChannelExtraction
  exact fun p buf old c => ⟨fun hc => by rw [channelsFrom_of_le hc, toNat_frameChannel], channelsFrom_above⟩

end Sys2Proof.Machine
end

section
/-! The RC read: its issue, each engine step as an equation of the state, the read of a whole frame, and the bound on
the steps a read takes. -/

namespace Sys2Proof.Machine

/-- Settles O12: the issue is one update of the engine's own state. -/
theorem rcReadIssue : Obligations.RcReadIssue := by
  unfold Obligations.RcReadIssue
  exact ⟨by decide, fun s => ⟨_, rfl, rfl, rfl⟩⟩

theorem rcEngineStep_of_hunt {s : State} (h : s.rcPhase = .hunt) : rcEngineStep s = huntStep s := by
  simp only [rcEngineStep, h]

theorem rcEngineStep_of_payload {s : State} (h : s.rcPhase = .payload) : rcEngineStep s = payloadStep s := by
  simp only [rcEngineStep, h]

/-- The write of a read-only register stores nothing, so this is a case of `rcEngineStep_writeReg`. -/
theorem rcEngineStep_setPending (s : State) (es : List Event) :
    rcEngineStep { s with pending := es } = { rcEngineStep s with pending := es } :=
  rcEngineStep_writeReg s .status 0 es

theorem step_rcStep {s : State} {rest : List Event} (hp : s.pending = .rcStep :: rest) :
    step s = .next { rcEngineStep s with pending := rest } :=
  (step_of_pending hp).trans (congrArg _ (rcEngineStep_setPending s rest))

/-! ## The hunt step -/

/-- An attempt that finds no sync byte and leaves `q` in `RXQ` (40_rc_decoder.md rules R107, R108). -/
def failedAttempt (q : List Byte) (s : State) : State :=
  if s.rcAttempts + 1 = Config.rcMaxAttempts then finishRead .failed { s with rxq := q, rcAttempts := s.rcAttempts + 1 }
  else { s with rxq := q, rcAttempts := s.rcAttempts + 1 }

theorem failedAttempt_of_ne {q : List Byte} {s : State} (h : s.rcAttempts + 1 ≠ 10) :
    failedAttempt q s = { s with rxq := q, rcAttempts := s.rcAttempts + 1 } :=
  if_neg h

theorem failedAttempt_of_tenth {q : List Byte} {s : State} (h : s.rcAttempts + 1 = 10) :
    failedAttempt q s = { s with rxq := q, rcAttempts := 10, rcStatus := .failed, rcPhase := .idle } := by
  rw [← h]
  exact if_pos h

theorem huntStep_of_sync {s : State} {q : List Byte} (h : s.rxq = 0x20 :: q) :
    huntStep s = { s with rxq := q, rcAttempts := s.rcAttempts + 1, rcPhase := .payload, rcCount := 0 } := by
  simp only [huntStep, h, Config.rcSync, if_true]

theorem huntStep_of_other {s : State} {b : Byte} {q : List Byte} (h : s.rxq = b :: q) (hb : b ≠ 0x20) :
    huntStep s = failedAttempt q s := by
  have hsync : b ≠ Config.rcSync := hb
  simp only [huntStep, h, if_neg hsync, failedAttempt]

theorem huntStep_of_empty {s : State} (h : s.rxq = []) : huntStep s = failedAttempt s.rxq s := by
  simp only [huntStep, h, failedAttempt]

/-- Settles O13: a step finds the sync byte, or it is a failed attempt. -/
theorem huntStepEffect : Obligations.HuntStepEffect := by
  unfold Obligations.HuntStepEffect
  intro s rest hp hh
  rw [step_rcStep hp, rcEngineStep_of_hunt hh]
  refine ⟨fun q hq => ?sync, fun b q hq hb ha => ?other, fun b q hq hb ha => ?otherTenth, fun hq ha => ?timeout,
    fun hq ha => ?timeoutTenth⟩
  case sync => rw [huntStep_of_sync hq]
  case other => rw [huntStep_of_other hq hb, failedAttempt_of_ne ha]
  case otherTenth => rw [huntStep_of_other hq hb, failedAttempt_of_tenth ha]
  case timeout => rw [huntStep_of_empty hq, failedAttempt_of_ne ha]
  case timeoutTenth => rw [huntStep_of_empty hq, failedAttempt_of_tenth ha]

/-! ## The payload step -/

theorem setIfInBounds_of_lt (buf : Vector Byte 31) (b : Byte) {i : Nat} (h : i < 31) :
    buf.setIfInBounds i b = buf.set i b := by
  ext j hj
  simp [Vector.getElem_set, Vector.getElem_setIfInBounds]

theorem validateFrame_eq (s : State) :
    validateFrame s = { s with
      rcPhase := .idle
      rcStatus := if frameValid s.rcBuf then .new else .checksumError
      ch := if frameValid s.rcBuf then channelsFrom s.params s.rcBuf s.ch else s.ch } := by
  rcases validateFrame_cases s with ⟨hv, h⟩ | ⟨hv, h⟩
  · simp only [h, hv, finishRead, if_true]
  · simp only [h, hv, finishRead, Bool.false_eq_true, if_false]

theorem payloadStep_of_empty {s : State} (h : s.rxq = []) : payloadStep s = finishRead .failed s := by
  simp only [payloadStep, h]

theorem payloadStep_of_byte {s : State} {b : Byte} {q : List Byte} (h : s.rxq = b :: q) (hc : s.rcCount < 31)
    (hne : s.rcCount + 1 ≠ 31) :
    payloadStep s = { s with rxq := q, rcBuf := s.rcBuf.set s.rcCount b hc, rcCount := s.rcCount + 1 } := by
  simp only [payloadStep, h, if_neg hne, setIfInBounds_of_lt _ _ hc]

theorem payloadStep_of_lastByte {s : State} {b : Byte} {q : List Byte} (h : s.rxq = b :: q) (hc : s.rcCount = 30) :
    payloadStep s = validateFrame { s with rxq := q, rcBuf := s.rcBuf.set 30 b, rcCount := 31 } := by
  simp only [payloadStep, h, hc, Nat.reduceAdd, if_true, setIfInBounds_of_lt _ _ (show 30 < 31 by decide)]

/-- Settles O14: a byte is stored, and the last one is followed by the validation. -/
theorem payloadStepEffect : Obligations.PayloadStepEffect := by
  unfold Obligations.PayloadStepEffect
  intro s rest hp hph
  rw [step_rcStep hp, rcEngineStep_of_payload hph]
  refine ⟨fun hq => ?timeout, fun b q hc hq hne => ?byte, fun b q buf hq hc hbuf => ?last⟩
  case timeout => rw [payloadStep_of_empty hq, finishRead]
  case byte => rw [payloadStep_of_byte hq hc hne]
  case last =>
    subst hbuf
    rw [payloadStep_of_lastByte hq hc, validateFrame_eq]
    exact ⟨fun hv => by simp only [hv, if_true], fun hv => by simp only [hv, Bool.false_eq_true, if_false]⟩

/-! ## The read of a frame -/

theorem sys2Run_rcSteps (k : Nat) (s : State) :
    sys2Run k { s with pending := List.replicate k .rcStep } = .next { rcEngineStep^[k] s with pending := [] } := by
  induction k generalizing s with
  | zero => rfl
  | succ k ih =>
    have hstep : step { s with pending := List.replicate (k + 1) .rcStep } =
        .next { rcEngineStep s with pending := List.replicate k .rcStep } := by
      rw [step_rcStep rfl, rcEngineStep_setPending]
    rw [sys2Run_succ k hstep, ih, Function.iterate_succ_apply]

/-- A hunt passes over bytes that are not the sync byte while it has an attempt left. -/
theorem iterate_rcEngineStep_skipped {skipped q : List Byte} (hne : ∀ b ∈ skipped, b ≠ 0x20) {s : State}
    (hp : s.rcPhase = .hunt) (hlen : s.rcAttempts + skipped.length < 10) (hq : s.rxq = skipped ++ q) :
    rcEngineStep^[skipped.length] s = { s with rxq := q, rcAttempts := s.rcAttempts + skipped.length } := by
  induction skipped generalizing s with
  | nil =>
    obtain rfl : s.rxq = q := hq
    rfl
  | cons b l ih =>
    have hsum : s.rcAttempts + (l.length + 1) = s.rcAttempts + 1 + l.length := by omega
    rw [List.length_cons, hsum] at hlen ⊢
    rw [Function.iterate_succ_apply, rcEngineStep_of_hunt hp, huntStep_of_other hq (hne b List.mem_cons_self),
      failedAttempt_of_ne (by omega)]
    exact ih (s := { s with rxq := l ++ q, rcAttempts := s.rcAttempts + 1 })
      (fun b hb => hne b (List.mem_cons_of_mem _ hb)) hp hlen rfl

/-- Two buffers agree on their first `n` bytes. -/
def AgreeBelow (n : Nat) (xs ys : Vector Byte 31) : Prop := ∀ i (_ : i < 31), i < n → xs[i] = ys[i]

theorem AgreeBelow.set {n : Nat} {xs ys : Vector Byte 31} (h : AgreeBelow n xs ys) (hn : n < 31) :
    AgreeBelow (n + 1) (xs.set n ys[n]) ys := by
  intro i hi hlt
  rcases eq_or_ne n i with rfl | hne
  · exact Vector.getElem_set_self _
  · rw [Vector.getElem_set_ne _ _ hne]
    exact h i hi (by omega)

theorem AgreeBelow.eq {xs ys : Vector Byte 31} (h : AgreeBelow 31 xs ys) : xs = ys :=
  Vector.ext fun i hi => h i hi hi

theorem drop_toList_append (buf : Vector Byte 31) (q : List Byte) {n : Nat} (hn : n < 31) :
    buf.toList.drop n ++ q = buf[n] :: (buf.toList.drop (n + 1) ++ q) := by
  rw [List.drop_eq_getElem_cons (by simpa using hn), Vector.getElem_toList, List.cons_append]

/-- With the rest of a frame at the head of `RXQ` the payload phase takes it into the buffer and validates it. -/
theorem iterate_rcEngineStep_payload {buf : Vector Byte 31} {q : List Byte} {k : Nat} {s : State}
    (hp : s.rcPhase = .payload) (hk : s.rcCount + k = 30) (hbuf : AgreeBelow s.rcCount s.rcBuf buf)
    (hq : s.rxq = buf.toList.drop s.rcCount ++ q) :
    rcEngineStep^[k + 1] s = validateFrame { s with rxq := q, rcBuf := buf, rcCount := 31 } := by
  induction k generalizing s with
  | zero =>
    have hc : s.rcCount = 30 := hk
    rw [hc] at hbuf hq
    rw [drop_toList_append buf q (by decide), List.drop_eq_nil_of_le (by simp), List.nil_append] at hq
    rw [Function.iterate_one, rcEngineStep_of_payload hp, payloadStep_of_lastByte hq hc, (hbuf.set (by decide)).eq]
  | succ k ih =>
    have hc : s.rcCount < 31 := by omega
    have hk' : s.rcCount + 1 + k = 30 := by omega
    rw [drop_toList_append buf q hc] at hq
    rw [Function.iterate_succ_apply, rcEngineStep_of_payload hp, payloadStep_of_byte hq hc (by omega)]
    exact ih (s := { s with
      rxq := buf.toList.drop (s.rcCount + 1) ++ q, rcBuf := s.rcBuf.set s.rcCount buf[s.rcCount],
      rcCount := s.rcCount + 1 }) hp hk' (hbuf.set hc) rfl

/-- From the start of a hunt, the steps of the skipped bytes, of the sync byte and of the frame. -/
theorem iterate_rcEngineStep_frame {skipped q : List Byte} {buf : Vector Byte 31} {s : State} (hp : s.rcPhase = .hunt)
    (ha : s.rcAttempts = 0) (hlen : skipped.length ≤ 9) (hne : ∀ b ∈ skipped, b ≠ 0x20)
    (hq : s.rxq = skipped ++ 0x20 :: (buf.toList ++ q)) :
    rcEngineStep^[skipped.length + 32] s =
      validateFrame { s with
        rxq := q, rcPhase := .payload, rcAttempts := skipped.length + 1, rcBuf := buf, rcCount := 31 } := by
  have hskip := iterate_rcEngineStep_skipped hne hp (by omega) hq
  rw [ha, Nat.zero_add] at hskip
  have hsync : rcEngineStep { s with rxq := 0x20 :: (buf.toList ++ q), rcAttempts := skipped.length } =
      { s with
        rxq := buf.toList ++ q, rcAttempts := skipped.length + 1, rcPhase := .payload, rcCount := 0 } :=
    (rcEngineStep_of_hunt (s := { s with rxq := 0x20 :: (buf.toList ++ q), rcAttempts := skipped.length }) hp).trans
      (huntStep_of_sync rfl)
  rw [Nat.add_comm, Function.iterate_add_apply, hskip, Function.iterate_succ_apply, hsync]
  exact iterate_rcEngineStep_payload (k := 30) (s := { s with
    rxq := buf.toList ++ q, rcAttempts := skipped.length + 1, rcPhase := .payload, rcCount := 0 }) rfl rfl
    (fun i _ h => absurd h i.not_lt_zero) rfl

/-- Settles O17: the issue starts a hunt, and the engine steps are those of the skipped bytes and of the frame. -/
theorem frameIsDecoded : Obligations.FrameIsDecoded := by
  unfold Obligations.FrameIsDecoded
  intro s skipped buf q hh hb hlen hne hq
  have hissue := stepRunsDecodedCommand
    { s with
      pending := .hostWrite .w32 s.params.blockBase 0x00000001 :: List.replicate (skipped.length + 32) .rcStep }
    0x00000001 .rcRead _ rfl hh hb (decodeOfEncode s.params.numChannels .rcRead rfl)
  rw [sys2Run_succ _ hissue]
  refine (sys2Run_rcSteps (skipped.length + 32)
    { s with cmd := 0x00000001, rcPhase := .hunt, rcAttempts := 0, rcCount := 0 }).trans ?_
  rw [iterate_rcEngineStep_frame (s := { s with cmd := 0x00000001, rcPhase := .hunt, rcAttempts := 0, rcCount := 0 })
    rfl rfl hlen hne hq, validateFrame_eq]

/-! ## The end of a read -/

/-- A read has ended: the block is not busy, and the RC status says how the read went. -/
def ReadEnded (s : State) : Prop := s.busy = false ∧ s.rcStatus ≠ .initial

theorem rcBudget_le (s : State) : rcBudget s ≤ 41 := by
  unfold rcBudget
  split <;> omega

/-- A read in progress has a step left. -/
theorem rcBudget_pos {s : State} (h : s.Inv) (hb : s.busy = true) : 0 < rcBudget s := by
  have hcount := h.count_bound.2
  unfold rcBudget
  cases hp : s.rcPhase with
  | idle => simp [State.busy, hp] at hb
  | hunt => exact Nat.succ_pos _
  | payload => exact Nat.sub_pos_of_lt (hcount hp)

/-- An engine step of a read in progress ends it or uses up one of the steps left. -/
theorem rcEngineStep_progress {s : State} (h : s.Inv) (hb : s.busy = true) :
    ReadEnded (rcEngineStep s) ∨ ((rcEngineStep s).busy = true ∧ rcBudget (rcEngineStep s) < rcBudget s) := by
  rcases rcEngineStep_cases s with ⟨hp, -⟩ | ⟨hp, he⟩ | ⟨hp, he⟩
  · simp [State.busy, hp] at hb
  · have hlt := h.attempts_bound.2 hp
    rw [he]
    rcases huntStep_cases s with ⟨q, -, ht⟩ | ⟨q, -, hne, ht⟩ | ⟨q, -, -, ht⟩ <;> rw [ht]
    · exact .inr ⟨rfl, by simp only [rcBudget, hp]; omega⟩
    · exact .inr ⟨by simp [State.busy, hp], by simp only [rcBudget, hp]; omega⟩
    · exact .inl ⟨rfl, nofun⟩
  · have hlt := h.count_bound.2 hp
    rw [he]
    rcases payloadStep_cases s with ⟨-, ht⟩ | ⟨b, q, -, hne, ht⟩ | ⟨b, q, -, -, ht⟩ <;> rw [ht]
    · exact .inl ⟨rfl, nofun⟩
    · exact .inr ⟨by simp [State.busy, hp], by simp only [rcBudget, hp]; omega⟩
    · rw [validateFrame_eq]
      exact .inl ⟨rfl, by simp only; split <;> nofun⟩

/-- While idle an engine step does nothing. -/
theorem ReadEnded.rcEngineStep {s : State} (h : ReadEnded s) : ReadEnded (rcEngineStep s) := by
  have hidle : Machine.rcEngineStep s = s := by
    simp only [Machine.rcEngineStep, s.busy_eq_false_iff.mp h.1]
  rwa [hidle]

/-- The read has ended, or it is in progress and `n` engine steps are enough to end it. -/
def EndsWithin (n : Nat) (s : State) : Prop := ReadEnded s ∨ (s.busy = true ∧ rcBudget s ≤ n)

theorem EndsWithin.rcEngineStep {n : Nat} {s : State} (hi : s.Inv) (h : EndsWithin (n + 1) s) :
    EndsWithin n (rcEngineStep s) := by
  rcases h with hend | ⟨hb, hle⟩
  · exact .inl hend.rcEngineStep
  · exact (rcEngineStep_progress hi hb).imp_right fun ⟨hb', hlt⟩ => ⟨hb', by omega⟩

/-- The condition reads only the engine and the RC status. -/
theorem EndsWithin.of_same_engine {n : Nat} {s t : State} (h : EndsWithin n s) (hp : t.rcPhase = s.rcPhase)
    (ha : t.rcAttempts = s.rcAttempts) (hc : t.rcCount = s.rcCount) (hst : t.rcStatus = s.rcStatus) :
    EndsWithin n t := by
  simpa only [EndsWithin, ReadEnded, State.busy, rcBudget, hp, ha, hc, hst] using h

/-- A run of background events with enough engine steps ends the read. -/
theorem readEnded_of_run {es : List Event} {s : State} (hi : s.Inv) (hp : s.pending = es) (hh : s.halted = false)
    (hbg : ∀ e ∈ es, e.isBackground s.params = true) (hr : EndsWithin (es.count .rcStep) s) :
    ∃ t, sys2Run es.length s = .next t ∧ ReadEnded t := by
  induction es generalizing s with
  | nil =>
    refine ⟨s, rfl, hr.resolve_right fun ⟨hb, hle⟩ => ?_⟩
    exact absurd hle (rcBudget_pos hi hb).not_ge
  | cons e rest ih =>
    obtain ⟨t, hstep, htp, hparams, hth, hcase⟩ := background_step hp hh (hbg e List.mem_cons_self)
    have hti : t.Inv := everyStepKeepsTheInvariant s t hi hstep
    have htbg : ∀ e ∈ rest, e.isBackground t.params = true :=
      fun e he => hparams ▸ hbg e (List.mem_cons_of_mem _ he)
    rw [List.length_cons, sys2Run_succ _ hstep]
    refine ih hti htp hth htbg ?_
    rcases hcase with ⟨rfl, rfl⟩ | ⟨hne, hphase, hatt, hcount, hst⟩
    · rw [List.count_cons_self] at hr
      exact EndsWithin.rcEngineStep (s := { s with pending := rest }) (hi.setPending rest) hr
    · rw [List.count_cons_of_ne hne] at hr
      exact hr.of_same_engine hphase hatt hcount hst

/-- Settles O18: each engine step uses up one of at most 41 steps left, and no other background step touches the
engine. -/
theorem rcReadEndsWithin41Steps : Obligations.RcReadEndsWithin41Steps := by
  unfold Obligations.RcReadEndsWithin41Steps
  intro s es hi hb hbg hcount
  have hh : s.halted = false := by
    by_contra hh
    have hidle := (hi.halted_inert (Bool.not_eq_false _ ▸ hh)).2
    simp [State.busy, hidle] at hb
  exact readEnded_of_run (s := { s with pending := es }) (hi.setPending es) rfl hh hbg
    (.inr ⟨hb, (rcBudget_le s).trans hcount⟩)

end Sys2Proof.Machine
end

section
/-! NORM and RC_NORM: their results and faults, the divisor of NORM, and the bounds that keep RC_NORM finite. -/

namespace Sys2Proof.Machine

/-! ## NORM -/

theorem roundMag_pos {n : Nat} (hn : 0 < n) : 0 < roundMag n 1 :=
  le_roundMag_of_le one_pos (by decide) ((Nat.mul_one _).trans_le hn)

/-- The difference of two finite values that are not equal is not zero: the exact difference is at least one unit, which
is representable (40_rc_decoder.md rule R113, gradual underflow). -/
theorem isZero_fsub {a b : Word} (ha : isFinite a = true) (hb : isFinite b = true) (hne : feq a b = false) :
    isZero (fsub a b) = false := by
  have hexact : exactUnits a + exactUnits (fneg b) ≠ 0 := by
    have heq := (comparisonsAreExact.1 a b ha hb).2.2
    rw [hne] at heq
    rw [exactUnits_fneg]
    intro h
    exact absurd (heq.mpr (by omega)) (by decide)
  have hpos := roundMag_pos (Int.natAbs_pos.mpr hexact)
  rw [fsub_of_isFinite ha hb, addCore_of_isFinite .sub ha (by rwa [isFinite_fneg]), if_neg hexact, isZero,
    magBits_pack (roundMag_lt _ _)]
  exact beq_eq_false_iff_ne.mpr hpos.ne'

/-- Settles O20: the branches of NORM in their order. -/
theorem normResult : Obligations.NormResult := by
  unfold Obligations.NormResult
  refine ⟨by decide, ?_⟩
  rintro s n d q sp r0 r rfl rfl rfl rfl rfl rfl
  refine ⟨fun hop hrange hwork => ?result, fun hop => ?operand, fun hop hrange => ?range,
    fun hop hrange hwork => ?work, fun h1 h2 hne => isZero_fsub h2 h1 hne⟩
  case result => simp only [exec, execNorm, normWork, hop, hrange, hwork, if_true, Bool.false_eq_true, if_false]
  case operand => simp only [exec, execNorm, raise, hop, Bool.false_eq_true, if_false]
  case range => simp only [exec, execNorm, raise, hop, hrange, if_true]
  case work => simp only [exec, execNorm, normWork, raise, hop, hrange, hwork, if_true, Bool.false_eq_true, if_false]

/-! ## RC_NORM -/

/-- Settles O21: the two ranges put into `rcNormValue`. -/
theorem rcNormResult : Obligations.RcNormResult := by
  unfold Obligations.RcNormResult
  refine ⟨fun k c => congrArg (BitVec.ofNat 32) ?word, ?result⟩
  case word =>
    simp only [Instr.op, Op.code, Instr.operandBits]
    omega
  case result =>
    rintro s c v r1 r2 rfl rfl rfl
    exact ⟨rfl, rfl⟩

/-! ## Bounded values -/

/-- `x` is finite and its magnitude is at most the integer `n`. -/
def AtMost (n : Nat) (x : Word) : Prop := isFinite x = true ∧ units x ≤ n * 2 ^ 149

theorem AtMost.mono {m n : Nat} {x : Word} (h : AtMost m x) (hmn : m ≤ n) : AtMost n x :=
  ⟨h.1, h.2.trans (Nat.mul_le_mul_right _ hmn)⟩

theorem AtMost.natAbs_exactUnits {n : Nat} {x : Word} (h : AtMost n x) : (exactUnits x).natAbs ≤ n * 2 ^ 149 := by
  rw [exactUnits_eq_withSign, natAbs_withSign]
  exact h.2

/-- Rounding keeps a bound that is an integer up to 2^24, because that is representable. -/
theorem atMost_pack_roundMag {n : Nat} (hn : n ≤ 2 ^ 24) (neg : Bool) {num den : Nat} (hden : 0 < den)
    (h : num ≤ n * 2 ^ 149 * den) : AtMost n (pack neg (roundMag num den)) := by
  obtain ⟨m, hm, hu⟩ := exists_mag_of_le hn
  rw [← hu] at h
  have hle : roundMag num den ≤ m := roundMag_le_of_le hden hm.le h
  rw [AtMost, isFinite_iff, units, magBits_pack (roundMag_lt _ _), ← hu]
  exact ⟨hle.trans_lt hm, unitsOfMag_strictMono.monotone hle⟩

theorem atMost_addCore (op : FloatOp) {m n : Nat} {a b : Word} (ha : AtMost m a) (hb : AtMost n b)
    (h : m + n ≤ 2 ^ 24) : AtMost (m + n) (addCore op a b) := by
  have hma := ha.natAbs_exactUnits
  have hnb := hb.natAbs_exactUnits
  rw [addCore_of_isFinite op ha.1 hb.1]
  split
  · rw [← roundMag_zero_one]
    exact atMost_pack_roundMag h _ one_pos (Nat.zero_le _)
  · exact atMost_pack_roundMag h _ one_pos (by omega)

theorem AtMost.fadd {m n : Nat} {a b : Word} (ha : AtMost m a) (hb : AtMost n b) (h : m + n ≤ 2 ^ 24) :
    AtMost (m + n) (fadd a b) := by
  rw [fadd_of_isFinite ha.1 hb.1]
  exact atMost_addCore .add ha hb h

theorem AtMost.fneg {n : Nat} {x : Word} (h : AtMost n x) : AtMost n (fneg x) := by
  rw [AtMost, isFinite_fneg, units, magBits_fneg]
  exact h

theorem AtMost.fsub {m n : Nat} {a b : Word} (ha : AtMost m a) (hb : AtMost n b) (h : m + n ≤ 2 ^ 24) :
    AtMost (m + n) (fsub a b) := by
  rw [fsub_of_isFinite ha.1 hb.1]
  exact atMost_addCore .sub ha hb.fneg h

theorem AtMost.fmul {m n : Nat} {a b : Word} (ha : AtMost m a) (hb : AtMost n b) (h : m * n ≤ 2 ^ 24) :
    AtMost (m * n) (fmul a b) := by
  rw [fmul_of_isFinite ha.1 hb.1]
  refine atMost_pack_roundMag h _ (by positivity) ?_
  calc units a * units b ≤ m * 2 ^ 149 * (n * 2 ^ 149) := Nat.mul_le_mul ha.2 hb.2
    _ = m * n * 2 ^ 149 * 2 ^ 149 := by ring

theorem units_of_isZero {x : Word} (h : isZero x = true) : units x = 0 := by
  rw [units, beq_iff_eq.mp h, unitsOfMag_zero]

/-- Dividing by a value of at least 1 keeps the bound. -/
theorem AtMost.fdiv {n : Nat} {a b : Word} (ha : AtMost n a) (hb : isFinite b = true) (hb1 : 2 ^ 149 ≤ units b)
    (h : n ≤ 2 ^ 24) : AtMost n (fdiv a b) := by
  have hpos : 0 < units b := lt_of_lt_of_le (by positivity) hb1
  have hz : isZero b = false := Bool.eq_false_iff.mpr fun hz => hpos.ne' (units_of_isZero hz)
  rw [fdiv_of_isFinite ha.1 hb hz]
  exact atMost_pack_roundMag h _ hpos (Nat.mul_le_mul ha.2 hb1)

theorem atMost_u32ToF32 {n : Nat} (hn : n ≤ 2 ^ 24) : AtMost n (u32ToF32 n) := by
  obtain ⟨hfin, -, hunits⟩ := u32ToF32_exact hn
  exact ⟨hfin, hunits.le⟩

theorem atMost_fThousand : AtMost 1000 fThousand := by
  unfold AtMost
  decide

theorem atMost_fHundred : AtMost 100 fHundred := by
  unfold AtMost
  decide

theorem MapKind.atMost_range_fst (k : MapKind) : AtMost 100 (MapKind.range k).1 := by
  unfold AtMost
  cases k <;> decide

/-- Settles O22: the bounds, from the raw value to the result, are integers below 2^24, the last one 13307100. -/
theorem rcNormIntermediatesFinite : Obligations.RcNormIntermediatesFinite := by
  unfold Obligations.RcNormIntermediatesFinite
  rintro raw lo v a b c hlo rfl rfl rfl rfl
  have hraw : raw.toNat ≤ 65535 := Nat.le_of_lt_succ raw.isLt
  have hv : AtMost 65535 (u32ToF32 raw.toNat) := (atMost_u32ToF32 (by omega)).mono hraw
  have ha := hv.fsub atMost_fThousand (by decide)
  have hb := ha.fdiv atMost_fThousand.1 (by decide) (by decide)
  have hlo : AtMost 100 lo := by
    rcases hlo with rfl | rfl
    · exact MapKind.atMost_range_fst .centred
    · exact MapKind.atMost_range_fst .dial
  have hc := hb.fmul (atMost_fHundred.fsub hlo (by decide)) (by decide)
  have hr := hlo.fadd hc (by decide)
  refine ⟨(integerConversionsExact.1 raw.toNat (by omega)).2.1, ?_⟩
  simp only [allFinite_cons]
  exact ⟨hv.1, ha.1, hb.1, hc.1, hr.1, rfl⟩

/-- Settles O23: nine fixed values, evaluated. -/
theorem normalisationTests : Obligations.NormalisationTests := by
  unfold Obligations.NormalisationTests
  decide

end Sys2Proof.Machine
end

section
/-! The order of binary32 patterns by their keys, the signed magnitude fields: a sum as the rounding of a key, and the
operations one of whose operands is a zero. -/

namespace Sys2Proof.Machine

/-! ## Keys -/

theorem fle_iff {x y : Word} (hx : isNaN x = false) (hy : isNaN y = false) :
    fle x y = true ↔ orderKey x ≤ orderKey y := by
  simp [fle, hx, hy]

theorem flt_iff {x y : Word} (hx : isNaN x = false) (hy : isNaN y = false) :
    flt x y = true ↔ orderKey x < orderKey y := by
  simp [flt, hx, hy]

theorem feq_iff {x y : Word} (hx : isNaN x = false) (hy : isNaN y = false) :
    feq x y = true ↔ orderKey x = orderKey y := by
  simp [feq, hx, hy]

theorem flt_iff_exactUnits {x y : Word} (hx : isFinite x = true) (hy : isFinite y = true) :
    flt x y = true ↔ exactUnits x < exactUnits y := (comparisonsAreExact.1 x y hx hy).1

@[simp] theorem natAbs_orderKey (x : Word) : (orderKey x).natAbs = magBits x := natAbs_withSign _ _

theorem pack_signBit_magBits (x : Word) : pack (signBit x) (magBits x) = x := by
  have hx := x.isLt
  apply BitVec.eq_of_toNat_eq
  rw [toNat_pack (magBits_lt x)]
  simp only [signBit, magBits, decide_eq_true_eq]
  split <;> omega

@[simp] theorem orderKey_fneg (x : Word) : orderKey (fneg x) = -orderKey x := by
  rw [orderKey_eq_withSign, signBit_fneg, magBits_fneg, withSign_not, ← orderKey_eq_withSign]

/-- A key other than 0 has one pattern. -/
theorem eq_of_orderKey_eq {x y : Word} (h : orderKey x = orderKey y) (hy : 0 < magBits y) : x = y := by
  have hmag : magBits x = magBits y := by rw [← natAbs_orderKey, h, natAbs_orderKey]
  have hsign : signBit x = signBit y := by
    rw [Bool.eq_iff_iff, ← withSign_neg_iff (signBit x) (hmag ▸ hy), ← withSign_neg_iff (signBit y) hy,
      ← orderKey_eq_withSign, ← orderKey_eq_withSign, h]
  rw [← pack_signBit_magBits x, ← pack_signBit_magBits y, hmag, hsign]

theorem isZero_iff_orderKey {x : Word} : isZero x = true ↔ orderKey x = 0 := by
  rw [← Int.natAbs_eq_zero, natAbs_orderKey, isZero, beq_iff_eq]

theorem exactUnits_of_isZero {x : Word} (h : isZero x = true) : exactUnits x = 0 := by
  rw [exactUnits_eq_withSign, units_of_isZero h, withSign_zero]

/-! ## Sums -/

/-- A map of magnitudes as a map of signed values. -/
def signedMap (f : Nat → Nat) (v : Int) : Int := withSign (decide (v < 0)) (f v.natAbs)

theorem signedMap_withSign {f : Nat → Nat} (h0 : f 0 = 0) (neg : Bool) (n : Nat) :
    signedMap f (withSign neg n) = withSign neg (f n) := by
  rw [signedMap, natAbs_withSign]
  rcases Nat.eq_zero_or_pos n with rfl | hpos
  · rw [h0, withSign_zero, withSign_zero]
  · congr 1
    rw [Bool.eq_iff_iff, decide_eq_true_eq, withSign_neg_iff neg hpos]

theorem signedMap_neg {f : Nat → Nat} (h0 : f 0 = 0) (v : Int) : signedMap f (-v) = -signedMap f v := by
  rw [← withSign_natAbs v, ← withSign_not, signedMap_withSign h0, signedMap_withSign h0, withSign_not]

theorem signedMap_monotone {f : Nat → Nat} (hf : Monotone f) : Monotone (signedMap f) := by
  intro u v huv
  have hle := hf (a := u.natAbs) (b := v.natAbs)
  have hge := hf (a := v.natAbs) (b := u.natAbs)
  unfold signedMap withSign
  split <;> split <;> simp only [decide_eq_true_eq] at * <;> omega

/-- The key of the pattern that an exact sum of `v` units rounds to. -/
def roundKey (v : Int) : Int := signedMap (roundMag · 1) v

theorem orderKey_pack {neg : Bool} {m : Nat} (hm : m < 2 ^ 31) : orderKey (pack neg m) = withSign neg m := by
  rw [orderKey_eq_withSign, signBit_pack hm, magBits_pack hm]

theorem orderKey_fadd {x y : Word} (hx : isFinite x = true) (hy : isFinite y = true) :
    orderKey (fadd x y) = roundKey (exactUnits x + exactUnits y) := by
  rw [fadd_of_isFinite hx hy, addCore_of_isFinite .add hx hy]
  split
  case isTrue h => rw [orderKey_pack (by decide), h, withSign_zero]; decide
  case isFalse => exact orderKey_pack (roundMag_lt _ _)

theorem isNaN_fadd {x y : Word} (hx : isFinite x = true) (hy : isFinite y = true) : isNaN (fadd x y) = false := by
  have hmag : magBits (fadd x y) ≤ infMag := by
    rw [← natAbs_orderKey, orderKey_fadd hx hy, roundKey, signedMap, natAbs_withSign]
    exact roundMag_le_inf _ _
  simpa [isNaN] using hmag

theorem roundKey_monotone : Monotone roundKey :=
  signedMap_monotone fun _ _ h => roundMag_mono one_pos one_pos (Nat.mul_le_mul_right 1 h)

theorem roundKey_neg (v : Int) : roundKey (-v) = -roundKey v := signedMap_neg roundMag_zero_one v

theorem roundKey_exactUnits {x : Word} (hx : isFinite x = true) : roundKey (exactUnits x) = orderKey x := by
  have hround : roundMag (units x) 1 = magBits x := by
    rw [units, ← Nat.mul_one (unitsOfMag _), roundMag_exact one_pos (isFinite_iff.mp hx).le]
  rw [roundKey, exactUnits_eq_withSign, signedMap_withSign roundMag_zero_one, hround, orderKey_eq_withSign]

/-- Adding a nonnegative value never lowers. -/
theorem le_orderKey_fadd {x y : Word} (hx : isFinite x = true) (hy : isFinite y = true) (hpos : 0 ≤ exactUnits y) :
    orderKey x ≤ orderKey (fadd x y) := by
  rw [orderKey_fadd hx hy, ← roundKey_exactUnits hx]
  exact roundKey_monotone (le_add_of_nonneg_right hpos)

/-! ## Operations with a zero -/

theorem feq_fadd_zero {x z : Word} (hx : isFinite x = true) (hz : isZero z = true) : feq (fadd x z) x = true := by
  have hzf : isFinite z = true := isFinite_iff.mpr (by rw [beq_iff_eq.mp hz]; decide)
  rw [feq_iff (isNaN_fadd hx hzf) (isNaN_of_isFinite hx), orderKey_fadd hx hzf, exactUnits_of_isZero hz, add_zero,
    roundKey_exactUnits hx]

/-- `fsub x (+0.0)` is x, sign of zero included. -/
theorem fsub_fZero {x : Word} (hx : isFinite x = true) : fsub x fZero = x := by
  have hzero : exactUnits (fneg fZero) = 0 := by decide
  have hsign : signBit (fneg fZero) = true := by decide
  have hkey : roundKey (exactUnits x) = orderKey x := roundKey_exactUnits hx
  rw [fsub_of_isFinite hx (by decide), addCore_of_isFinite .sub hx (by decide), hzero, hsign, add_zero, Bool.and_true]
  split
  case isTrue h =>
    rw [h] at hkey
    have hmag : magBits x = 0 := by
      rw [← natAbs_orderKey, ← hkey]
      decide
    rw [← hmag, pack_signBit_magBits]
  case isFalse h =>
    refine eq_of_orderKey_eq ((orderKey_pack (roundMag_lt _ _)).trans hkey) ?_
    exact Nat.pos_of_ne_zero fun hz => h (exactUnits_of_isZero (beq_iff_eq.mpr hz))

theorem isZero_pack_roundMag_zero (neg : Bool) {d : Nat} (hd : 0 < d) : isZero (pack neg (roundMag 0 d)) = true := by
  have h0 : roundMag 0 d = 0 := Nat.le_zero.mp (roundMag_le_of_le hd (Nat.zero_le _) (Nat.zero_le _))
  rw [isZero, magBits_pack (roundMag_lt _ _), h0]
  rfl

theorem isZero_fmul {x y : Word} (hx : isFinite x = true) (hy : isFinite y = true)
    (h : isZero x = true ∨ isZero y = true) : isZero (fmul x y) = true := by
  have h0 : units x * units y = 0 := Nat.mul_eq_zero.mpr (h.imp units_of_isZero units_of_isZero)
  rw [fmul_of_isFinite hx hy, h0]
  exact isZero_pack_roundMag_zero _ (by positivity)

theorem isZero_fdiv {x y : Word} (hx : isFinite x = true) (hy : isFinite y = true) (hzx : isZero x = true)
    (hzy : isZero y = false) : isZero (fdiv x y) = true := by
  rw [fdiv_of_isFinite hx hy hzy, units_of_isZero hzx, Nat.zero_mul]
  exact isZero_pack_roundMag_zero _ (units_pos_of_isZero_eq_false hzy)

/-- The difference of equal values is a zero. -/
theorem isZero_fsub_of_feq {x y : Word} (hx : isFinite x = true) (hy : isFinite y = true) (h : feq x y = true) :
    isZero (fsub x y) = true := by
  have hsum : exactUnits x + exactUnits (fneg y) = 0 := by
    have := (comparisonsAreExact.1 x y hx hy).2.2.mp h
    rw [exactUnits_fneg]
    omega
  rw [fsub_of_isFinite hx hy, addCore_of_isFinite .sub hx (by rwa [isFinite_fneg]), if_pos hsum, isZero,
    magBits_pack (by decide)]
  rfl

theorem isFinite_of_feq {x y : Word} (hx : isFinite x = true) (h : feq x y = true) : isFinite y = true := by
  simp only [feq, Bool.and_eq_true, decide_eq_true_eq] at h
  rwa [isFinite_iff, ← natAbs_orderKey, ← h.2, natAbs_orderKey, ← isFinite_iff]

end Sys2Proof.Machine
end

section
/-! The PID commands: the anti-windup limits, PID_UPDATE as one equation when it completes, its frame and its corner
cases, and PID_RESET. -/

namespace Sys2Proof.Machine

/-! ## The anti-windup clamp -/

/-- The key of 150.0. -/
def limitKey : Int := 0x43160000

theorem limitKey_pos : 0 < limitKey := by decide

/-- The integral lies within ±150.0 (41_pid.md rule R131). -/
def WithinLimits (x : Word) : Prop := -limitKey ≤ orderKey x ∧ orderKey x ≤ limitKey

theorem WithinLimits.isFinite {x : Word} (h : WithinLimits x) : isFinite x = true := by
  obtain ⟨hlo, hhi⟩ := h
  rw [isFinite_iff, ← natAbs_orderKey]
  unfold limitKey at hlo hhi
  unfold infMag
  omega

theorem isNaN_eq_false_of_fle {x y : Word} (h : fle x y = true) : isNaN x = false ∧ isNaN y = false := by
  simp only [fle, Bool.and_eq_true, Bool.not_eq_true'] at h
  exact h.1

theorem withinLimits_iff {x : Word} :
    WithinLimits x ↔ fle 0xC3160000 x = true ∧ fle x 0x43160000 = true := by
  have key (hx : isNaN x = false) :
      WithinLimits x ↔ fle 0xC3160000 x = true ∧ fle x 0x43160000 = true := by
    rw [fle_iff (by decide) hx, fle_iff hx (by decide)]
    exact Iff.rfl
  exact ⟨fun h => (key (isNaN_of_isFinite h.isFinite)).mp h, fun h => (key (isNaN_eq_false_of_fle h.1).2).mpr h⟩

theorem antiWindup_of_withinLimits {x : Word} (h : WithinLimits x) : antiWindup x = x := by
  obtain ⟨hlo, hhi⟩ := h
  have hn : isNaN x = false := isNaN_of_isFinite (WithinLimits.isFinite ⟨hlo, hhi⟩)
  have h1 : ¬ flt x Config.iLimitNeg = true := (flt_iff hn (by decide)).not.mpr hlo.not_gt
  have h2 : ¬ flt Config.iLimit x = true := (flt_iff (by decide) hn).not.mpr hhi.not_gt
  rw [antiWindup, fclamp, if_neg h1, if_neg h2]

theorem orderKey_antiWindup {x : Word} (hx : isNaN x = false) :
    orderKey (antiWindup x) = max (-limitKey) (min limitKey (orderKey x)) := by
  have hlo : orderKey Config.iLimitNeg = -limitKey := by decide
  have hhi : orderKey Config.iLimit = limitKey := by decide
  have hpos := limitKey_pos
  have hbelow : flt x Config.iLimitNeg = true ↔ orderKey x < -limitKey := hlo ▸ flt_iff hx (by decide)
  have habove : flt Config.iLimit x = true ↔ limitKey < orderKey x := hhi ▸ flt_iff (by decide) hx
  simp only [antiWindup, fclamp, hbelow, habove]
  split
  · omega
  · split <;> omega

/-! ## PID_UPDATE by its conditions -/

/-- The values PID_UPDATE of axis a computes from the registers (41_pid.md rule R130). -/
def State.pidValues (s : State) (a : Axis) : PidWork :=
  pidWork s.arg0 s.arg1 (s.kp.get a) (s.ki.get a) (s.kd.get a) (s.integ.get a) (s.lastErr.get a)

/-- The operand check of PID_UPDATE (41_pid.md rule R130). -/
def State.pidOperandsFinite (s : State) (a : Axis) : Bool :=
  allFinite [s.arg0, s.arg1, s.kp.get a, s.ki.get a, s.kd.get a]

/-- The two checks of the intermediates (41_pid.md rule R130). -/
def PidWork.finite (w : PidWork) : Bool :=
  allFinite [w.p, w.t1, w.t2, w.iRaw, w.de, w.t3, w.d] && allFinite [w.s, w.out]

theorem PidWork.finite_eq_allFinite (w : PidWork) :
    w.finite = allFinite [w.p, w.t1, w.t2, w.iRaw, w.de, w.t3, w.d, w.s, w.out] :=
  (List.all_append (xs := [w.p, w.t1, w.t2, w.iRaw, w.de, w.t3, w.d]) (ys := [w.s, w.out])).symm

/-- PID_UPDATE of axis a passes all its checks. -/
structure PidReady (s : State) (a : Axis) : Prop where
  operands : s.pidOperandsFinite a = true
  dt_pos : flt fZero s.arg1 = true
  work : (s.pidValues a).finite = true

/-- The state after a PID_UPDATE of axis a that completes. -/
def State.pidCompleted (s : State) (a : Axis) : State :=
  { s with
    integ := s.integ.set a (s.pidValues a).i
    lastErr := s.lastErr.set a s.arg0
    pidOut := s.pidOut.set a (s.pidValues a).out
    res0 := (s.pidValues a).out }

theorem exec_pidUpdate (s : State) (a : Axis) :
    exec (.pidUpdate a) s =
      if s.pidOperandsFinite a then
        if flt fZero s.arg1 then
          if (s.pidValues a).finite then .next (s.pidCompleted a) else raise .nonfinite s
        else raise .dtRange s
      else raise .nonfinite s := rfl

theorem exec_pidUpdate_of_ready {s : State} {a : Axis} (h : PidReady s a) :
    exec (.pidUpdate a) s = .next (s.pidCompleted a) := by
  rw [exec_pidUpdate, if_pos h.operands, if_pos h.dt_pos, if_pos h.work]

theorem exec_pidUpdate_of_operands {s : State} {a : Axis} (h : s.pidOperandsFinite a = false) :
    exec (.pidUpdate a) s = .next (faultEntry .nonfinite s) := by
  rw [exec_pidUpdate, if_neg (by simp [h]), raise]

theorem exec_pidUpdate_of_dt {s : State} {a : Axis} (ho : s.pidOperandsFinite a = true)
    (hdt : flt fZero s.arg1 = false) : exec (.pidUpdate a) s = .next (faultEntry .dtRange s) := by
  rw [exec_pidUpdate, if_pos ho, if_neg (by simp [hdt]), raise]

theorem exec_pidUpdate_of_work {s : State} {a : Axis} (ho : s.pidOperandsFinite a = true)
    (hdt : flt fZero s.arg1 = true) (hw : (s.pidValues a).finite = false) :
    exec (.pidUpdate a) s = .next (faultEntry .nonfinite s) := by
  rw [exec_pidUpdate, if_pos ho, if_pos hdt, if_neg (by simp [hw]), raise]

/-- The inversion of a PID_UPDATE that leaves `STATUS.FAULT` = 0: it passed its checks and completed. -/
theorem pidReady_of_exec {s t : State} {a : Axis} (h : exec (.pidUpdate a) s = .next t) (hf : t.fault = false) :
    PidReady s a ∧ t = s.pidCompleted a := by
  have not_faultEntry {c : FaultCode} (hc : exec (.pidUpdate a) s = .next (faultEntry c s)) : False := by
    cases h.symm.trans hc
    cases hf
  have ho : s.pidOperandsFinite a = true := by
    by_contra ho
    exact not_faultEntry (exec_pidUpdate_of_operands (Bool.eq_false_iff.mpr ho))
  have hdt : flt fZero s.arg1 = true := by
    by_contra hdt
    exact not_faultEntry (exec_pidUpdate_of_dt ho (Bool.eq_false_iff.mpr hdt))
  have hw : (s.pidValues a).finite = true := by
    by_contra hw
    exact not_faultEntry (exec_pidUpdate_of_work ho hdt (Bool.eq_false_iff.mpr hw))
  have hready : PidReady s a := ⟨ho, hdt, hw⟩
  exact ⟨hready, by cases h.symm.trans (exec_pidUpdate_of_ready hready); rfl⟩

@[simp] theorem pidCompleted_integ (s : State) (a : Axis) :
    (s.pidCompleted a).integ.get a = (s.pidValues a).i := PerAxis.get_set_self ..

@[simp] theorem pidCompleted_lastErr (s : State) (a : Axis) : (s.pidCompleted a).lastErr.get a = s.arg0 :=
  PerAxis.get_set_self ..

@[simp] theorem pidCompleted_pidOut (s : State) (a : Axis) :
    (s.pidCompleted a).pidOut.get a = (s.pidValues a).out := PerAxis.get_set_self ..

@[simp] theorem pidCompleted_res0 (s : State) (a : Axis) : (s.pidCompleted a).res0 = (s.pidValues a).out := rfl

/-- Of the values found finite by a PID_UPDATE that passes its checks, those the corner cases need. -/
theorem PidReady.finite {s : State} {a : Axis} (h : PidReady s a) :
    (isFinite s.arg0 = true ∧ isFinite s.arg1 = true ∧ isFinite (s.ki.get a) = true ∧
      isFinite (s.kd.get a) = true) ∧
    isFinite (s.pidValues a).t1 = true ∧ isFinite (s.pidValues a).t2 = true ∧ isFinite (s.pidValues a).iRaw = true ∧
      isFinite (s.pidValues a).de = true ∧ isFinite (s.pidValues a).t3 = true ∧ isFinite (s.pidValues a).s = true := by
  have ho := h.operands
  have hw := h.work
  simp only [State.pidOperandsFinite, PidWork.finite, Bool.and_eq_true, allFinite_cons] at ho hw
  tauto

/-- Settles O24: the branches of PID_UPDATE in their order. -/
theorem pidUpdateResult : Obligations.PidUpdateResult := by
  unfold Obligations.PidUpdateResult
  refine ⟨fun a => congrArg (BitVec.ofNat 32) ?word, ?result⟩
  case word =>
    simp only [Instr.op, Op.code, Instr.operandBits]
    omega
  case result =>
    rintro s a p t1 t2 iRaw de t3 d i sp out rfl rfl rfl rfl rfl rfl rfl rfl rfl rfl
    refine ⟨fun ho hdt h1 h2 => ?complete, exec_pidUpdate_of_operands, exec_pidUpdate_of_dt, fun ho hdt hw => ?work⟩
    case complete => exact exec_pidUpdate_of_ready ⟨ho, hdt, Bool.and_eq_true_iff.mpr ⟨h1, h2⟩⟩
    case work => exact exec_pidUpdate_of_work ho hdt ((PidWork.finite_eq_allFinite _).trans hw)

/-- Settles O25: a completing update is one equation, and its checks and values read only the registers listed. -/
theorem pidAxisIndependence : Obligations.PidAxisIndependence := by
  unfold Obligations.PidAxisIndependence
  intro s a t h hf
  obtain ⟨hready, rfl⟩ := pidReady_of_exec h hf
  refine ⟨⟨_, _, _, rfl⟩, fun b hb => ?others, fun s' harg0 harg1 hkp hki hkd hinteg hlast => ?reads⟩
  case others => exact ⟨PerAxis.get_set_ne _ _ hb, PerAxis.get_set_ne _ _ hb, PerAxis.get_set_ne _ _ hb⟩
  case reads =>
    have hvalues : s'.pidValues a = s.pidValues a := by
      simp only [State.pidValues, harg0, harg1, hkp, hki, hkd, hinteg, hlast]
    have hoperands : s'.pidOperandsFinite a = s.pidOperandsFinite a := by
      simp only [State.pidOperandsFinite, harg0, harg1, hkp, hki, hkd]
    have hready' : PidReady s' a :=
      ⟨hoperands ▸ hready.operands, harg1 ▸ hready.dt_pos, hvalues ▸ hready.work⟩
    exact ⟨_, exec_pidUpdate_of_ready hready', by simp [hvalues, harg0]⟩

/-! ## PID_RESET -/

/-- Settles O29: the two arms of PID_RESET. -/
theorem pidResetEffect : Obligations.PidResetEffect := by
  unfold Obligations.PidResetEffect
  exact ⟨⟨rfl, fun a => rfl⟩, fun s => ⟨fun a => rfl, rfl⟩⟩

/-! ## Corner cases of PID_UPDATE -/

/-- Settles O26: a zero gain or a zero error difference makes every product and quotient after it a zero, and adding a
zero keeps the value. -/
theorem pidCornerCases : Obligations.PidCornerCases := by
  unfold Obligations.PidCornerCases
  intro s t a h hf
  obtain ⟨hready, rfl⟩ := pidReady_of_exec h hf
  obtain ⟨⟨he, hdt, hki, hkd⟩, ht1, ht2, hiRaw, hde, ht3, hs⟩ := hready.finite
  rw [pidCompleted_integ, pidCompleted_lastErr, pidCompleted_pidOut]
  obtain ⟨hlo, hhi⟩ := antiWindup_range hiRaw
  refine ⟨⟨hlo, hhi, rfl⟩, fun hz hlo hhi => ?zeroKi, fun hz => ?noDerivative⟩
  case zeroKi =>
    have hli : WithinLimits (s.integ.get a) := withinLimits_iff.mpr ⟨hlo, hhi⟩
    have hzt1 : isZero (s.pidValues a).t1 = true := isZero_fmul he hki (.inr hz)
    have hzt2 : isZero (s.pidValues a).t2 = true := isZero_fmul ht1 hdt (.inl hzt1)
    have hkeep : feq (s.pidValues a).iRaw (s.integ.get a) = true := feq_fadd_zero hli.isFinite hzt2
    have hkey := (feq_iff (isNaN_of_isFinite hiRaw) (isNaN_of_isFinite hli.isFinite)).mp hkeep
    have hin : WithinLimits (s.pidValues a).iRaw := by rwa [WithinLimits, hkey]
    have hi : (s.pidValues a).i = (s.pidValues a).iRaw := antiWindup_of_withinLimits hin
    rwa [hi]
  case noDerivative =>
    have hdtz : isZero s.arg1 = false := by
      rw [← Bool.not_eq_true, isZero_iff_orderKey]
      exact ((flt_iff (by decide) (isNaN_of_isFinite hdt)).mp hready.dt_pos).ne'
    have hzt3 : isZero (s.pidValues a).t3 = true :=
      isZero_fmul hkd hde (hz.imp_right fun heq => isZero_fsub_of_feq he (isFinite_of_feq he heq) heq)
    have hzd : isZero (s.pidValues a).d = true := isZero_fdiv ht3 hdt hzt3 hdtz
    exact feq_fadd_zero hs hzd

/-- Settles O30: after the reset the integral and the last error are +0.0, and e - (+0.0) is e. -/
theorem updateAfterPidReset : Obligations.UpdateAfterPidReset := by
  unfold Obligations.UpdateAfterPidReset
  intro s t u a hreset hupdate hf
  cases hreset
  obtain ⟨hready, rfl⟩ := pidReady_of_exec hupdate hf
  obtain ⟨⟨he, -⟩, -⟩ := hready.finite
  rw [pidCompleted_integ, pidCompleted_pidOut]
  simp only [State.pidValues, pidWork, PerAxis.get_fill, fsub_fZero he]
  exact ⟨rfl, trivial⟩

end Sys2Proof.Machine
end

section
/-! The integrator under a constant increment: it moves in the direction of the increment, and it saturates. -/

namespace Sys2Proof.Machine

/-! ## The integrator -/

theorem orderKey_integrate {t2 li : Word} (ht : isFinite t2 = true) (hli : isFinite li = true) :
    orderKey (integrate t2 li) = max (-limitKey) (min limitKey (roundKey (exactUnits li + exactUnits t2))) := by
  rw [integrate, orderKey_antiWindup (isNaN_fadd hli ht), orderKey_fadd hli ht]

theorem withinLimits_integrate {t2 li : Word} (ht : isFinite t2 = true) (hli : WithinLimits li) :
    WithinLimits (integrate t2 li) := by
  have hpos := limitKey_pos
  rw [WithinLimits, orderKey_integrate ht hli.isFinite]
  omega

/-- A nonnegative increment never lowers the integral. -/
theorem le_orderKey_integrate {t2 li : Word} (ht : isFinite t2 = true) (hli : WithinLimits li)
    (hpos : 0 ≤ exactUnits t2) : orderKey li ≤ orderKey (integrate t2 li) := by
  have hle := le_orderKey_fadd hli.isFinite ht hpos
  rw [integrate, orderKey_antiWindup (isNaN_fadd hli.isFinite ht)]
  unfold WithinLimits at hli
  omega

theorem WithinLimits.fneg {x : Word} (h : WithinLimits x) : WithinLimits (fneg x) := by
  obtain ⟨hlo, hhi⟩ := h
  rw [WithinLimits, orderKey_fneg]
  omega

/-- The integrator is odd, up to the sign of zero. -/
theorem orderKey_integrate_fneg {t2 li : Word} (ht : isFinite t2 = true) (hli : isFinite li = true) :
    orderKey (integrate (fneg t2) (fneg li)) = -orderKey (integrate t2 li) := by
  have hpos := limitKey_pos
  rw [orderKey_integrate ht hli, orderKey_integrate (by rwa [isFinite_fneg]) (by rwa [isFinite_fneg]),
    exactUnits_fneg, exactUnits_fneg, ← neg_add, roundKey_neg]
  omega

/-- Settles O27: rounding is monotone and odd, and the old integral is its own rounding. -/
theorem integralNeverExceeds : Obligations.IntegralNeverExceeds := by
  unfold Obligations.IntegralNeverExceeds
  intro t2 li ht hlo hhi
  have hli : WithinLimits li := withinLimits_iff.mpr ⟨hlo, hhi⟩
  have hi : WithinLimits (integrate t2 li) := withinLimits_integrate ht hli
  have hnan : isNaN li = false := isNaN_of_isFinite hli.isFinite
  have hnan' : isNaN (integrate t2 li) = false := isNaN_of_isFinite hi.isFinite
  have hzero : exactUnits 0x00000000 = 0 := by decide
  obtain ⟨hlo', hhi'⟩ := withinLimits_iff.mp hi
  refine ⟨fun hpos => ⟨?rises, hhi'⟩, fun hneg => ⟨?falls, hlo'⟩⟩
  case rises =>
    have hlt := (flt_iff_exactUnits (by decide) ht).mp hpos
    rw [fle_iff hnan hnan']
    exact le_orderKey_integrate ht hli (by omega)
  case falls =>
    have hlt := (flt_iff_exactUnits ht (by decide)).mp hneg
    have hodd := le_orderKey_integrate (t2 := fneg t2) (by rwa [isFinite_fneg]) hli.fneg
      (by rw [exactUnits_fneg]; omega)
    rw [orderKey_integrate_fneg ht hli.isFinite, orderKey_fneg] at hodd
    rw [fle_iff hnan' hnan]
    omega

/-! ## Saturation -/

/-- The exact value of a key, in units of 2^-149. -/
def keyUnits (k : Int) : Int := signedMap unitsOfMag k

theorem keyUnits_withSign (neg : Bool) (m : Nat) : keyUnits (withSign neg m) = withSign neg (unitsOfMag m) :=
  signedMap_withSign unitsOfMag_zero neg m

theorem exactUnits_eq_keyUnits (x : Word) : exactUnits x = keyUnits (orderKey x) :=
  (keyUnits_withSign (signBit x) (magBits x)).symm

theorem exists_orderKey_eq {k : Int} (hk : k.natAbs < 2 ^ 31) : ∃ x : Word, orderKey x = k :=
  ⟨pack (decide (k < 0)) k.natAbs, (orderKey_pack hk).trans (withSign_natAbs k)⟩

/-- Below 150.0 consecutive magnitudes are at most 2^-16 apart. -/
theorem unitsOfMag_succ_le {m : Nat} (hm : m < 0x43160000) : unitsOfMag (m + 1) ≤ unitsOfMag m + 2 ^ 133 := by
  obtain ⟨k, v, rfl, hk, hv⟩ := mag_parts m
  have hpow : 2 ^ k ≤ 2 ^ 133 := Nat.pow_le_pow_right (by decide) (by omega)
  rw [unitsOfMag_parts hk hv.le, Nat.add_assoc, unitsOfMag_parts (by omega) hv, Nat.succ_mul]
  omega

/-- Within ±150.0 the step to the next value is positive and at most 2^-16. -/
theorem keyUnits_succ {k : Int} (hlo : -limitKey ≤ k) (hhi : k < limitKey) :
    keyUnits k < keyUnits (k + 1) ∧ keyUnits (k + 1) ≤ keyUnits k + 2 ^ 133 := by
  unfold limitKey at hlo hhi
  have hstep {m : Nat} (hm : m < 0x43160000) :
      unitsOfMag m < unitsOfMag (m + 1) ∧ unitsOfMag (m + 1) ≤ unitsOfMag m + 2 ^ 133 :=
    ⟨unitsOfMag_strictMono m.lt_succ_self, unitsOfMag_succ_le hm⟩
  rcases lt_or_ge k 0 with hneg | hnonneg
  · obtain ⟨m, rfl⟩ : ∃ m, k = withSign true (m + 1) := ⟨(-k - 1).toNat, by simp only [withSign, if_true]; omega⟩
    have hnext : withSign true (m + 1) + 1 = withSign true m := by simp [withSign]
    have hm := hstep (m := m) (by simp only [withSign, if_true] at hlo; omega)
    rw [hnext, keyUnits_withSign, keyUnits_withSign]
    simp only [withSign, if_true]
    omega
  · obtain ⟨m, rfl⟩ : ∃ m, k = withSign false m := ⟨k.toNat, by simp [withSign, hnonneg]⟩
    have hnext : withSign false m + 1 = withSign false (m + 1) := by simp [withSign]
    have hm := hstep (m := m) (by simp [withSign] at hhi; omega)
    rw [hnext, keyUnits_withSign, keyUnits_withSign]
    simp only [withSign, Bool.false_eq_true, if_false]
    omega

/-- Below 150.0 an increment above 2^-17, half the largest step, raises the sum: the exact sum is nearer to the next
value than to the old one. -/
theorem lt_orderKey_fadd {t2 li : Word} (ht : isFinite t2 = true) (hli : WithinLimits li)
    (hlt : orderKey li < limitKey) (hbig : 2 ^ 132 < exactUnits t2) : orderKey li < orderKey (fadd li t2) := by
  refine lt_of_le_of_ne (le_orderKey_fadd hli.isFinite ht (by omega)) fun hsame => ?_
  have hunits : exactUnits (fadd li t2) = exactUnits li := by
    rw [exactUnits_eq_keyUnits, ← hsame, ← exactUnits_eq_keyUnits]
  have hfin : isFinite (fadd li t2) = true := by
    rw [isFinite_iff, ← natAbs_orderKey, ← hsame, natAbs_orderKey, ← isFinite_iff]
    exact hli.isFinite
  have hnextLimits : -limitKey ≤ orderKey li + 1 ∧ orderKey li + 1 ≤ limitKey := by
    unfold WithinLimits at hli
    omega
  obtain ⟨next, hnext⟩ : ∃ next : Word, orderKey next = orderKey li + 1 := exists_orderKey_eq (by
    unfold limitKey at hnextLimits
    omega)
  have hnextFinite : isFinite next = true := WithinLimits.isFinite (by rwa [WithinLimits, hnext])
  have hstep := keyUnits_succ hli.1 hlt
  rw [← hnext, ← exactUnits_eq_keyUnits, ← exactUnits_eq_keyUnits] at hstep
  obtain ⟨-, hnear, -⟩ := (addSubRoundNearestEven li t2 hli.isFinite ht).1
  have hnearer := (hnear hfin next hnextFinite).1
  rw [hunits] at hnearer
  omega

/-- One update within the limits raises the key by one at least, up to that of 150.0. -/
theorem min_succ_le_orderKey_integrate {t2 li : Word} (ht : isFinite t2 = true) (hli : WithinLimits li)
    (hbig : 2 ^ 132 < exactUnits t2) : min (orderKey li + 1) limitKey ≤ orderKey (integrate t2 li) := by
  have hpos := limitKey_pos
  have hle := le_orderKey_fadd hli.isFinite ht (by omega)
  have hlt := lt_orderKey_fadd ht hli
  rw [integrate, orderKey_antiWindup (isNaN_fadd hli.isFinite ht)]
  omega

/-- A key that each step raises, up to a bound `K`, comes to `K` and stays there. -/
theorem exists_forall_iterate_eq {α : Type} {f : α → α} {P : α → Prop} {key : α → Int} {K : Int}
    (hP : ∀ x, P x → P (f x)) (hle : ∀ x, P x → key x ≤ K) (hstep : ∀ x, P x → min (key x + 1) K ≤ key (f x))
    {x : α} (hx : P x) : ∃ n, ∀ k, n ≤ k → key (f^[k] x) = K := by
  have hreach (k : Nat) : P (f^[k] x) ∧ min (key x + k) K ≤ key (f^[k] x) := by
    induction k with
    | zero => exact ⟨hx, by simp⟩
    | succ k ih =>
      obtain ⟨hp, hk⟩ := ih
      have := hstep _ hp
      rw [Function.iterate_succ_apply']
      exact ⟨hP _ hp, by omega⟩
  refine ⟨(K - key x).toNat, fun k hk => ?_⟩
  obtain ⟨hp, hge⟩ := hreach k
  have := hle _ hp
  omega

/-- Settles O28: each update moves the key towards the limit by one at least, and the limit's pattern is the only one
with its key. The negative side is the positive one turned over, as the integrator is odd. -/
theorem integralSaturates : Obligations.IntegralSaturates := by
  unfold Obligations.IntegralSaturates
  intro t2 li ht hlo hhi
  have hli : WithinLimits li := withinLimits_iff.mpr ⟨hlo, hhi⟩
  have hkeep (x : Word) : WithinLimits x → WithinLimits (integrate t2 x) := withinLimits_integrate ht
  refine ⟨fun hbig => ?above, fun hbig => ?below⟩
  case above =>
    have hunits : exactUnits 0x37000000 = 2 ^ 132 := by decide
    have hlt := (flt_iff_exactUnits (by decide) ht).mp hbig
    obtain ⟨n, hn⟩ := exists_forall_iterate_eq (key := orderKey) (K := limitKey) hkeep (fun _ h => h.2)
      (fun _ h => min_succ_le_orderKey_integrate ht h (hunits ▸ hlt)) hli
    exact ⟨n, fun k hk => eq_of_orderKey_eq (hn k hk) (by decide)⟩
  case below =>
    have hunits : exactUnits 0xB7000000 = -2 ^ 132 := by decide
    have hlt := (flt_iff_exactUnits ht (by decide)).mp hbig
    have hstep (x : Word) (hx : WithinLimits x) : min (-orderKey x + 1) limitKey ≤ -orderKey (integrate t2 x) := by
      have hodd := min_succ_le_orderKey_integrate (t2 := fneg t2) (by rwa [isFinite_fneg]) hx.fneg
        (by rw [exactUnits_fneg]; omega)
      rwa [orderKey_integrate_fneg ht hx.isFinite, orderKey_fneg] at hodd
    obtain ⟨n, hn⟩ := exists_forall_iterate_eq (key := fun x => -orderKey x) (K := limitKey) hkeep
      (fun _ h => neg_le.mp h.1) hstep hli
    exact ⟨n, fun k hk => eq_of_orderKey_eq (y := 0xC3160000) (neg_eq_iff_eq_neg.mp (hn k hk)) (by decide)⟩

end Sys2Proof.Machine
end

section
/-! The order of binary32 results by their keys, continued: differences, products, quotients and clamps are monotone,
because each rounds an exact value once and rounding is monotone. -/

namespace Sys2Proof.Machine

/-! ## Exact values and keys -/

theorem exactUnits_le_iff (x y : Word) : exactUnits x ≤ exactUnits y ↔ orderKey x ≤ orderKey y := by
  rw [← not_lt, exactUnits_lt_iff, not_lt]

theorem exactUnits_eq_of_orderKey_eq {x y : Word} (h : orderKey x = orderKey y) : exactUnits x = exactUnits y := by
  rw [exactUnits_eq_keyUnits, h, ← exactUnits_eq_keyUnits]

theorem isFinite_of_orderKey_eq {x y : Word} (h : orderKey x = orderKey y) (hy : isFinite y = true) :
    isFinite x = true := by
  rwa [isFinite_iff, ← natAbs_orderKey, h, natAbs_orderKey, ← isFinite_iff]

theorem fle_iff_of_isFinite {x y : Word} (hx : isFinite x = true) (hy : isFinite y = true) :
    fle x y = true ↔ orderKey x ≤ orderKey y := fle_iff (isNaN_of_isFinite hx) (isNaN_of_isFinite hy)

theorem signBit_of_exactUnits_pos {x : Word} (h : 0 < exactUnits x) : signBit x = false := by
  unfold exactUnits at h
  split at h
  · omega
  · exact Bool.eq_false_iff.mpr ‹_›

theorem isZero_of_exactUnits_pos {x : Word} (h : 0 < exactUnits x) : isZero x = false :=
  Bool.eq_false_iff.mpr fun hz => h.ne' (exactUnits_of_isZero hz)

/-! ## Sums and differences -/

theorem orderKey_fadd_mono {x y x' y' : Word} (hx : isFinite x = true) (hy : isFinite y = true)
    (hx' : isFinite x' = true) (hy' : isFinite y' = true) (hxx : orderKey x ≤ orderKey x')
    (hyy : orderKey y ≤ orderKey y') : orderKey (fadd x y) ≤ orderKey (fadd x' y') := by
  rw [← exactUnits_le_iff] at hxx hyy
  rw [orderKey_fadd hx hy, orderKey_fadd hx' hy']
  exact roundKey_monotone (add_le_add hxx hyy)

theorem fsub_eq_fadd_fneg {x y : Word} (hx : isFinite x = true) (hy : isFinite y = true) :
    fsub x y = fadd x (fneg y) := by
  have hny : isFinite (fneg y) = true := by rwa [isFinite_fneg]
  rw [fsub_of_isFinite hx hy, fadd_of_isFinite hx hny, addCore_of_isFinite .sub hx hny,
    addCore_of_isFinite .add hx hny]

theorem orderKey_fsub_mono {x y x' y' : Word} (hx : isFinite x = true) (hy : isFinite y = true)
    (hx' : isFinite x' = true) (hy' : isFinite y' = true) (hxx : orderKey x ≤ orderKey x')
    (hyy : orderKey y' ≤ orderKey y) : orderKey (fsub x y) ≤ orderKey (fsub x' y') := by
  rw [fsub_eq_fadd_fneg hx hy, fsub_eq_fadd_fneg hx' hy']
  exact orderKey_fadd_mono hx (by rwa [isFinite_fneg]) hx' (by rwa [isFinite_fneg]) hxx (by simpa using hyy)

theorem orderKey_fadd_zero {x z : Word} (hx : isFinite x = true) (hz : isZero z = true) :
    orderKey (fadd x z) = orderKey x := by
  have h := feq_fadd_zero hx hz
  simp only [feq, Bool.and_eq_true, decide_eq_true_eq] at h
  exact h.2

theorem isFinite_of_isZero {z : Word} (hz : isZero z = true) : isFinite z = true :=
  isFinite_iff.mpr (by rw [beq_iff_eq.mp hz]; decide)

theorem orderKey_fsub_zero {x z : Word} (hx : isFinite x = true) (hz : isZero z = true) :
    orderKey (fsub x z) = orderKey x := by
  rw [fsub_eq_fadd_fneg hx (isFinite_of_isZero hz)]
  exact orderKey_fadd_zero hx (by rwa [isZero, magBits_fneg])

/-! ## Products and quotients -/

theorem roundMag_zero_left {d : Nat} (hd : 0 < d) : roundMag 0 d = 0 :=
  Nat.le_zero.mp (roundMag_le_of_le hd (Nat.zero_le _) (Nat.zero_le _))

theorem orderKey_fmul {x y : Word} (hx : isFinite x = true) (hy : isFinite y = true) :
    orderKey (fmul x y) = signedMap (roundMag · (2 ^ 149)) (exactUnits x * exactUnits y) := by
  rw [fmul_of_isFinite hx hy, orderKey_pack (roundMag_lt _ _), exactUnits_eq_withSign x, exactUnits_eq_withSign y,
    withSign_mul, signedMap_withSign (f := (roundMag · (2 ^ 149))) (roundMag_zero_left (by positivity))]

/-- Products of nonnegative values are monotone in both factors. -/
theorem orderKey_fmul_mono {x y x' y' : Word} (hx : isFinite x = true) (hy : isFinite y = true)
    (hx' : isFinite x' = true) (hy' : isFinite y' = true) (hx0 : 0 ≤ exactUnits x) (hy0 : 0 ≤ exactUnits y)
    (hxx : orderKey x ≤ orderKey x') (hyy : orderKey y ≤ orderKey y') :
    orderKey (fmul x y) ≤ orderKey (fmul x' y') := by
  rw [← exactUnits_le_iff] at hxx hyy
  rw [orderKey_fmul hx hy, orderKey_fmul hx' hy']
  refine signedMap_monotone (fun m n h => ?_) (mul_le_mul hxx hyy hy0 (hx0.trans hxx))
  exact roundMag_mono (by positivity) (by positivity) (Nat.mul_le_mul_right _ h)

theorem exactUnits_fOne : exactUnits fOne = 2 ^ 149 := by decide

theorem orderKey_fOne_fmul {x : Word} (hx : isFinite x = true) : orderKey (fmul fOne x) = orderKey x := by
  have hprod : exactUnits fOne * exactUnits x = withSign (signBit x) (units x * 2 ^ 149) := by
    rw [exactUnits_fOne, mul_comm, exactUnits_eq_withSign, ← withSign_mul_natCast]
    norm_cast
  rw [orderKey_fmul (by decide) hx, hprod,
    signedMap_withSign (f := (roundMag · (2 ^ 149))) (roundMag_zero_left (by positivity)), units,
    roundMag_exact (by positivity) (isFinite_iff.mp hx).le, orderKey_eq_withSign]

theorem orderKey_fmul_fOne {x y : Word} (hx : isFinite x = true) (hy : orderKey y = orderKey fOne) :
    orderKey (fmul x y) = orderKey x := by
  have hyf : isFinite y = true := isFinite_of_orderKey_eq hy (by decide)
  rw [← orderKey_fOne_fmul hx, orderKey_fmul hx hyf, orderKey_fmul (by decide) hx, exactUnits_eq_of_orderKey_eq hy,
    mul_comm]

theorem orderKey_fdiv {x y : Word} (hx : isFinite x = true) (hy : isFinite y = true) (hpos : 0 < exactUnits y) :
    orderKey (fdiv x y) = signedMap (fun n => roundMag (n * 2 ^ 149) (units y)) (exactUnits x) := by
  have hz := isZero_of_exactUnits_pos hpos
  have h0 : roundMag (0 * 2 ^ 149) (units y) = 0 := by
    rw [Nat.zero_mul, roundMag_zero_left (units_pos_of_isZero_eq_false hz)]
  rw [fdiv_of_isFinite hx hy hz, orderKey_pack (roundMag_lt _ _), signBit_of_exactUnits_pos hpos, Bool.bne_false,
    exactUnits_eq_withSign, signedMap_withSign h0]

/-- Quotients by a positive value are monotone in the dividend. -/
theorem orderKey_fdiv_mono {x x' y : Word} (hx : isFinite x = true) (hx' : isFinite x' = true)
    (hy : isFinite y = true) (hpos : 0 < exactUnits y) (hxx : orderKey x ≤ orderKey x') :
    orderKey (fdiv x y) ≤ orderKey (fdiv x' y) := by
  have hu := units_pos_of_isZero_eq_false (isZero_of_exactUnits_pos hpos)
  rw [← exactUnits_le_iff] at hxx
  rw [orderKey_fdiv hx hy hpos, orderKey_fdiv hx' hy hpos]
  refine signedMap_monotone (fun m n h => ?_) hxx
  exact roundMag_mono hu hu (Nat.mul_le_mul_right _ (Nat.mul_le_mul_right _ h))

theorem orderKey_fdiv_self {x : Word} (hx : isFinite x = true) (hpos : 0 < exactUnits x) :
    orderKey (fdiv x x) = orderKey fOne := by
  have hz := isZero_of_exactUnits_pos hpos
  have hround : roundMag (units x * 2 ^ 149) (units x) = magBits fOne := by
    rw [mul_comm, show 2 ^ 149 = unitsOfMag (magBits fOne) by decide]
    exact roundMag_exact (units_pos_of_isZero_eq_false hz) (by decide)
  rw [fdiv_of_isFinite hx hx hz, hround, bne_self_eq_false, orderKey_pack (by decide)]
  decide

/-! ## Clamps and truncation -/

theorem orderKey_fclamp {x lo hi : Word} (hx : isNaN x = false) (hlo : isNaN lo = false) (hhi : isNaN hi = false)
    (hle : orderKey lo ≤ orderKey hi) :
    orderKey (fclamp x lo hi) = max (orderKey lo) (min (orderKey hi) (orderKey x)) := by
  simp only [fclamp, flt_iff hx hlo, flt_iff hhi hx]
  split
  · omega
  · split <;> omega

theorem f32ToU32Trunc_congr {x y : Word} (h : orderKey x = orderKey y) : f32ToU32Trunc x = f32ToU32Trunc y := by
  rw [f32ToU32Trunc, f32ToU32Trunc, units, units, ← natAbs_orderKey, h, natAbs_orderKey]

/-- Truncation is monotone on the values that it is for: nonnegative and below 2^32. -/
theorem toNat_f32ToU32Trunc_mono {x y : Word} (hx : 0 ≤ exactUnits x) (hy : exactUnits y < 2 ^ 32 * 2 ^ 149)
    (h : orderKey x ≤ orderKey y) : (f32ToU32Trunc x).toNat ≤ (f32ToU32Trunc y).toNat := by
  rw [← exactUnits_le_iff] at h
  have hux := exactUnits_of_nonneg hx
  have huy := exactUnits_of_nonneg (hx.trans h)
  rw [toNat_f32ToU32Trunc (by omega), toNat_f32ToU32Trunc (by omega)]
  exact Nat.div_le_div_right (by omega)

end Sys2Proof.Machine
end

section
/-! The duty-cycle shaper (42_mixer_duty.md rules R150 to R153): legal configurations, the divisor and the fraction of
`Shape`, the duty of a fraction, and DUTY. -/

namespace Sys2Proof.Machine

/-! ## Legal configurations -/

/-- The legality of a duty configuration as exact values in units of 2^-149 (42_mixer_duty.md rule R151). -/
structure LegalDuty (z fl ce : Word) : Prop where
  finite : isFinite z = true
  nonneg : 0 ≤ exactUnits z
  lt_half : exactUnits z < 2 ^ 148
  floor_le_ceil : fl.toNat ≤ ce.toNat
  ceil_le : ce.toNat ≤ 2 ^ 24

theorem legalDutyCfg_iff {z fl ce : Word} : legalDutyCfg z fl ce = true ↔ LegalDuty z fl ce := by
  have h0 : exactUnits fZero = 0 := by decide
  have hhalf : exactUnits fHalf = 2 ^ 148 := by decide
  have key (hz : isFinite z = true) : fle fZero z = true ∧ flt z fHalf = true ↔
      0 ≤ exactUnits z ∧ exactUnits z < 2 ^ 148 := by
    rw [(comparisonsAreExact.1 fZero z (by decide) hz).2.1, flt_iff_exactUnits hz (by decide), h0, hhalf]
  simp only [legalDutyCfg, Bool.and_eq_true, decide_eq_true_eq]
  constructor
  · rintro ⟨⟨⟨⟨hz, hlo⟩, hhi⟩, hfl⟩, hce⟩
    obtain ⟨hlo, hhi⟩ := (key hz).mp ⟨hlo, hhi⟩
    exact ⟨hz, hlo, hhi, hfl, hce⟩
  · rintro ⟨hz, hlo, hhi, hfl, hce⟩
    obtain ⟨hlo, hhi⟩ := (key hz).mpr ⟨hlo, hhi⟩
    exact ⟨⟨⟨⟨hz, hlo⟩, hhi⟩, hfl⟩, hce⟩

theorem exec_duty_of_illegal {s : State} (h : s.legalDuty = false) :
    exec .duty s = .next (faultEntry .dutyCfg s) := by
  simp only [exec, execDuty, raise, h, Bool.false_eq_true, if_false]

theorem exec_mix_of_illegal {s : State} (h : s.legalDuty = false) : exec .mix s = .next (faultEntry .dutyCfg s) := by
  simp only [exec, execMix, raise, h, Bool.false_eq_true, if_false]

/-- Settles O31: the model's comparisons are those of exact values, and the check comes first in both commands. -/
theorem dutyConfigurationLegality : Obligations.DutyConfigurationLegality := by
  unfold Obligations.DutyConfigurationLegality
  refine ⟨by decide, fun s => ⟨?legal, fun h => ⟨exec_duty_of_illegal h, exec_mix_of_illegal h⟩⟩⟩
  case legal =>
    exact legalDutyCfg_iff.trans ⟨fun ⟨hz, hlo, hhi, hfl, hce⟩ => ⟨hz, hlo, hhi, hfl, hce⟩,
      fun ⟨hz, hlo, hhi, hfl, hce⟩ => ⟨hz, hlo, hhi, hfl, hce⟩⟩

/-! ## `Shape` as a quotient, a fraction and a duty -/

/-- The divisor `1.0 - 2z` of `Shape` (42_mixer_duty.md rule R150). -/
def shapeDivisor (z : Word) : Word := fsub fOne (fmul fTwo z)

/-- The value q of `Shape`, which the clamp to [0, 1] follows (42_mixer_duty.md rule R150). -/
def shapeQuotient (z t : Word) : Word := fdiv (fsub t z) (shapeDivisor z)

/-- The duty d of `Shape` for the fraction p, before truncation (42_mixer_duty.md rule R150). -/
def dutyOfFraction (fl ce p : Word) : Word :=
  fclamp (fadd (u32ToF32 fl.toNat) (fmul (u32ToF32 (ce.toNat - fl.toNat)) p)) (u32ToF32 fl.toNat) (u32ToF32 ce.toNat)

theorem shape_eq (z fl ce t : Word) :
    shape z fl ce t =
      if allFinite [fsub t z, shapeQuotient z t] then
        some (f32ToU32Trunc (dutyOfFraction fl ce (fclamp (shapeQuotient z t) fZero fOne)))
      else none := rfl

theorem shape_of_not_finite {z fl ce t : Word} (h : allFinite [fsub t z, shapeQuotient z t] = false) :
    shape z fl ce t = none := by
  rw [shape_eq, if_neg (by simp [h])]

theorem shape_eq_some_iff {z fl ce t d : Word} :
    shape z fl ce t = some d ↔ isFinite (fsub t z) = true ∧ isFinite (shapeQuotient z t) = true ∧
      f32ToU32Trunc (dutyOfFraction fl ce (fclamp (shapeQuotient z t) fZero fOne)) = d := by
  simp [shape_eq, allFinite, and_assoc]

/-! ## The fraction -/

/-- `p` lies between 0.0 and 1.0, −0.0 counting as 0.0. -/
def IsFraction (p : Word) : Prop := 0 ≤ orderKey p ∧ orderKey p ≤ orderKey fOne

theorem IsFraction.exactUnits_nonneg {p : Word} (h : IsFraction p) : 0 ≤ exactUnits p :=
  (exactUnits_le_iff fZero p).mpr h.1

theorem IsFraction.atMost {p : Word} (h : IsFraction p) : AtMost 1 p := by
  have hle := (exactUnits_le_iff p fOne).mpr h.2
  rw [exactUnits_fOne, exactUnits_of_nonneg h.exactUnits_nonneg] at hle
  refine ⟨?_, by omega⟩
  obtain ⟨h0, h1⟩ := h
  rw [isFinite_iff, ← natAbs_orderKey]
  rw [show orderKey fOne = 0x3F800000 by decide] at h1
  unfold infMag
  omega

theorem orderKey_shapeFraction {q : Word} (hq : isFinite q = true) :
    orderKey (fclamp q fZero fOne) = max 0 (min (orderKey fOne) (orderKey q)) :=
  orderKey_fclamp (isNaN_of_isFinite hq) (by decide) (by decide) (by decide)

theorem isFraction_fclamp {q : Word} (hq : isFinite q = true) : IsFraction (fclamp q fZero fOne) := by
  have hone : 0 ≤ orderKey fOne := by decide
  rw [IsFraction, orderKey_shapeFraction hq]
  omega

/-! ## The duty of a fraction -/

theorem atMost_fOne : AtMost 1 fOne := by
  unfold AtMost
  decide

theorem atMost_fTwo : AtMost 2 fTwo := by
  unfold AtMost
  decide

section Legal
variable {z fl ce : Word} (hl : LegalDuty z fl ce)
include hl

theorem LegalDuty.atMost_deadzone : AtMost 1 z := by
  have hlt := hl.lt_half
  rw [exactUnits_of_nonneg hl.nonneg] at hlt
  exact ⟨hl.finite, by omega⟩

theorem LegalDuty.atMost_double : AtMost (2 * 1) (fmul fTwo z) :=
  atMost_fTwo.fmul hl.atMost_deadzone (by decide)

theorem LegalDuty.shapeDivisor_finite : isFinite (shapeDivisor z) = true :=
  (atMost_fOne.fsub hl.atMost_double (by decide)).1

/-- The largest value below 0.5 doubles to the largest value below 1.0. -/
theorem LegalDuty.orderKey_double_le : orderKey (fmul fTwo z) ≤ orderKey 0x3F7FFFFF := by
  have hlt : orderKey z < orderKey fHalf := by
    rw [← exactUnits_lt_iff, show exactUnits fHalf = 2 ^ 148 by decide]
    exact hl.lt_half
  have hbelow : orderKey z ≤ orderKey 0x3EFFFFFF := Int.le_of_lt_add_one (hlt.trans_eq (by decide))
  calc orderKey (fmul fTwo z) ≤ orderKey (fmul fTwo 0x3EFFFFFF) :=
        orderKey_fmul_mono (by decide) hl.finite (by decide) (by decide) (by decide) hl.nonneg le_rfl hbelow
    _ = orderKey 0x3F7FFFFF := by decide

/-- The divisor is at least 2^-24, by which 1.0 exceeds the largest value below it. -/
theorem LegalDuty.shapeDivisor_ge : 2 ^ 125 ≤ exactUnits (shapeDivisor z) := by
  have hpred : exactUnits (fsub fOne 0x3F7FFFFF) = 2 ^ 125 := by decide
  rw [← hpred, exactUnits_le_iff]
  exact orderKey_fsub_mono (by decide) (by decide) (by decide) hl.atMost_double.1 le_rfl hl.orderKey_double_le

theorem LegalDuty.shapeDivisor_pos : 0 < exactUnits (shapeDivisor z) :=
  lt_of_lt_of_le (by positivity) hl.shapeDivisor_ge

theorem LegalDuty.le_double : orderKey z ≤ orderKey (fmul fTwo z) := by
  rw [← orderKey_fOne_fmul hl.finite]
  exact orderKey_fmul_mono (by decide) hl.finite (by decide) hl.finite (by decide) hl.nonneg (by decide) le_rfl

theorem LegalDuty.floor_le : fl.toNat ≤ 2 ^ 24 := hl.floor_le_ceil.trans hl.ceil_le

theorem LegalDuty.finite_floor : isFinite (u32ToF32 fl.toNat) = true := (u32ToF32_exact hl.floor_le).1

theorem LegalDuty.finite_ceil : isFinite (u32ToF32 ce.toNat) = true := (u32ToF32_exact hl.ceil_le).1

theorem LegalDuty.span_le : ce.toNat - fl.toNat ≤ 2 ^ 24 := (Nat.sub_le _ _).trans hl.ceil_le

theorem LegalDuty.finite_span : isFinite (u32ToF32 (ce.toNat - fl.toNat)) = true := (u32ToF32_exact hl.span_le).1

theorem LegalDuty.exactUnits_span :
    exactUnits (u32ToF32 (ce.toNat - fl.toNat)) = (ce.toNat - fl.toNat : Nat) * 2 ^ 149 :=
  (integerConversionsExact.1 _ hl.span_le).2.1

theorem LegalDuty.exactUnits_floor : exactUnits (u32ToF32 fl.toNat) = fl.toNat * 2 ^ 149 :=
  (integerConversionsExact.1 _ hl.floor_le).2.1

theorem LegalDuty.exactUnits_ceil : exactUnits (u32ToF32 ce.toNat) = ce.toNat * 2 ^ 149 :=
  (integerConversionsExact.1 _ hl.ceil_le).2.1

theorem LegalDuty.f32ToU32Trunc_floor : f32ToU32Trunc (u32ToF32 fl.toNat) = fl :=
  BitVec.eq_of_toNat_eq (integerConversionsExact.1 _ hl.floor_le).2.2

theorem LegalDuty.f32ToU32Trunc_ceil : f32ToU32Trunc (u32ToF32 ce.toNat) = ce :=
  BitVec.eq_of_toNat_eq (integerConversionsExact.1 _ hl.ceil_le).2.2

theorem LegalDuty.orderKey_floor_le_ceil : orderKey (u32ToF32 fl.toNat) ≤ orderKey (u32ToF32 ce.toNat) := by
  have hle := hl.floor_le_ceil
  rw [← exactUnits_le_iff, hl.exactUnits_floor, hl.exactUnits_ceil]
  omega

theorem LegalDuty.atMost_product {p : Word} (hp : IsFraction p) :
    AtMost ((ce.toNat - fl.toNat) * 1) (fmul (u32ToF32 (ce.toNat - fl.toNat)) p) :=
  (atMost_u32ToF32 hl.span_le).fmul hp.atMost (by have := hl.span_le; omega)

theorem LegalDuty.finite_sum {p : Word} (hp : IsFraction p) :
    isFinite (fadd (u32ToF32 fl.toNat) (fmul (u32ToF32 (ce.toNat - fl.toNat)) p)) = true := by
  have hfl := hl.floor_le_ceil
  have hce := hl.ceil_le
  exact ((atMost_u32ToF32 hl.floor_le).fadd (hl.atMost_product hp) (by omega)).1

theorem LegalDuty.orderKey_dutyOfFraction {p : Word} (hp : IsFraction p) :
    orderKey (dutyOfFraction fl ce p) =
      max (orderKey (u32ToF32 fl.toNat)) (min (orderKey (u32ToF32 ce.toNat))
        (orderKey (fadd (u32ToF32 fl.toNat) (fmul (u32ToF32 (ce.toNat - fl.toNat)) p)))) :=
  orderKey_fclamp (isNaN_of_isFinite (hl.finite_sum hp)) (isNaN_of_isFinite hl.finite_floor)
    (isNaN_of_isFinite hl.finite_ceil) hl.orderKey_floor_le_ceil

theorem LegalDuty.floor_le_dutyOfFraction {p : Word} (hp : IsFraction p) :
    orderKey (u32ToF32 fl.toNat) ≤ orderKey (dutyOfFraction fl ce p) := by
  rw [hl.orderKey_dutyOfFraction hp]
  exact le_max_left _ _

theorem LegalDuty.dutyOfFraction_le_ceil {p : Word} (hp : IsFraction p) :
    orderKey (dutyOfFraction fl ce p) ≤ orderKey (u32ToF32 ce.toNat) := by
  rw [hl.orderKey_dutyOfFraction hp]
  exact max_le hl.orderKey_floor_le_ceil (min_le_left _ _)

theorem LegalDuty.dutyOfFraction_mono {p p' : Word} (hp : IsFraction p) (hp' : IsFraction p')
    (h : orderKey p ≤ orderKey p') : orderKey (dutyOfFraction fl ce p) ≤ orderKey (dutyOfFraction fl ce p') := by
  rw [hl.orderKey_dutyOfFraction hp, hl.orderKey_dutyOfFraction hp']
  refine max_le_max_left _ (min_le_min_left _ ?_)
  refine orderKey_fadd_mono hl.finite_floor (hl.atMost_product hp).1 hl.finite_floor (hl.atMost_product hp').1 le_rfl ?_
  have hspan : 0 ≤ exactUnits (u32ToF32 (ce.toNat - fl.toNat)) := by
    rw [hl.exactUnits_span]
    positivity
  exact orderKey_fmul_mono hl.finite_span hp.atMost.1 hl.finite_span hp'.atMost.1 hspan hp.exactUnits_nonneg le_rfl h

theorem LegalDuty.dutyOfFraction_zero {p : Word} (hp : IsFraction p) (h : orderKey p = 0) :
    orderKey (dutyOfFraction fl ce p) = orderKey (u32ToF32 fl.toNat) := by
  have hzero := isZero_fmul hl.finite_span hp.atMost.1 (.inr (isZero_iff_orderKey.mpr h))
  rw [hl.orderKey_dutyOfFraction hp, orderKey_fadd_zero hl.finite_floor hzero]
  exact max_eq_left (min_le_right _ _)

/-- For p = 1.0 the product is the span, and floor plus span is the ceiling, which is representable. -/
theorem LegalDuty.dutyOfFraction_one {p : Word} (hp : IsFraction p) (h : orderKey p = orderKey fOne) :
    orderKey (dutyOfFraction fl ce p) = orderKey (u32ToF32 ce.toNat) := by
  have hspan := exactUnits_eq_of_orderKey_eq (orderKey_fmul_fOne hl.finite_span h)
  have hsum : exactUnits (u32ToF32 fl.toNat) + exactUnits (u32ToF32 (ce.toNat - fl.toNat)) =
      exactUnits (u32ToF32 ce.toNat) := by
    have hle := hl.floor_le_ceil
    rw [hl.exactUnits_floor, hl.exactUnits_span, hl.exactUnits_ceil]
    omega
  rw [hl.orderKey_dutyOfFraction hp, orderKey_fadd hl.finite_floor (hl.atMost_product hp).1, hspan, hsum,
    roundKey_exactUnits hl.finite_ceil, min_self]
  exact max_eq_right hl.orderKey_floor_le_ceil

/-! ## Truncated duties -/

theorem LegalDuty.toNat_trunc_mono {x y : Word} (hx : orderKey (u32ToF32 fl.toNat) ≤ orderKey x)
    (h : orderKey x ≤ orderKey y) (hy : orderKey y ≤ orderKey (u32ToF32 ce.toNat)) :
    (f32ToU32Trunc x).toNat ≤ (f32ToU32Trunc y).toNat := by
  have hce := hl.ceil_le
  rw [← exactUnits_le_iff, hl.exactUnits_floor] at hx
  rw [← exactUnits_le_iff, hl.exactUnits_ceil] at hy
  exact toNat_f32ToU32Trunc_mono (by omega) (by omega) h

theorem LegalDuty.floor_le_trunc {p : Word} (hp : IsFraction p) :
    fl.toNat ≤ (f32ToU32Trunc (dutyOfFraction fl ce p)).toNat := by
  have := hl.toNat_trunc_mono le_rfl (hl.floor_le_dutyOfFraction hp) (hl.dutyOfFraction_le_ceil hp)
  rwa [hl.f32ToU32Trunc_floor] at this

theorem LegalDuty.trunc_le_ceil {p : Word} (hp : IsFraction p) :
    (f32ToU32Trunc (dutyOfFraction fl ce p)).toNat ≤ ce.toNat := by
  have := hl.toNat_trunc_mono (hl.floor_le_dutyOfFraction hp) (hl.dutyOfFraction_le_ceil hp) le_rfl
  rwa [hl.f32ToU32Trunc_ceil] at this

/-! ## The quotient -/

theorem LegalDuty.shapeQuotient_mono {t u : Word} (ht : isFinite t = true) (hu : isFinite u = true)
    (hnt : isFinite (fsub t z) = true) (hnu : isFinite (fsub u z) = true) (h : orderKey t ≤ orderKey u) :
    orderKey (shapeQuotient z t) ≤ orderKey (shapeQuotient z u) :=
  orderKey_fdiv_mono hnt hnu hl.shapeDivisor_finite hl.shapeDivisor_pos
    (orderKey_fsub_mono ht hl.finite hu hl.finite h le_rfl)

theorem LegalDuty.isZero_fsub_deadzone : isZero (fsub z z) = true :=
  isZero_fsub_of_feq hl.finite hl.finite ((comparisonsAreExact.1 z z hl.finite hl.finite).2.2.mpr rfl)

theorem LegalDuty.orderKey_shapeQuotient_deadzone : orderKey (shapeQuotient z z) = 0 :=
  isZero_iff_orderKey.mp (isZero_fdiv (isFinite_of_isZero hl.isZero_fsub_deadzone) hl.shapeDivisor_finite
    hl.isZero_fsub_deadzone (isZero_of_exactUnits_pos hl.shapeDivisor_pos))

theorem LegalDuty.shapeQuotient_nonpos {t : Word} (ht : isFinite t = true) (hn : isFinite (fsub t z) = true)
    (h : orderKey t ≤ orderKey z) : orderKey (shapeQuotient z t) ≤ 0 :=
  (hl.shapeQuotient_mono ht hl.finite hn (isFinite_of_isZero hl.isZero_fsub_deadzone) h).trans_eq
    hl.orderKey_shapeQuotient_deadzone

/-- From t = 1.0 on the dividend is at least the divisor, because z is at most 2z. -/
theorem LegalDuty.one_le_shapeQuotient {t : Word} (ht : isFinite t = true) (hn : isFinite (fsub t z) = true)
    (h : orderKey fOne ≤ orderKey t) : orderKey fOne ≤ orderKey (shapeQuotient z t) := by
  have hdividend : orderKey (shapeDivisor z) ≤ orderKey (fsub t z) :=
    orderKey_fsub_mono (by decide) hl.atMost_double.1 ht hl.finite h hl.le_double
  rw [← orderKey_fdiv_self hl.shapeDivisor_finite hl.shapeDivisor_pos]
  exact orderKey_fdiv_mono hl.shapeDivisor_finite hn hl.shapeDivisor_finite hl.shapeDivisor_pos hdividend

/-- With t = 0.0 the quotient is at most 2^24 in magnitude, so `Shape` gives a duty. -/
theorem LegalDuty.finite_quotient_fZero :
    isFinite (fsub fZero z) = true ∧ isFinite (shapeQuotient z fZero) = true := by
  have hzero : AtMost 0 fZero := by
    unfold AtMost
    decide
  have hnum : AtMost (0 + 1) (fsub fZero z) := hzero.fsub hl.atMost_deadzone (by decide)
  have hden := hl.shapeDivisor_ge
  rw [exactUnits_of_nonneg hl.shapeDivisor_pos.le] at hden
  refine ⟨hnum.1, ?_⟩
  rw [shapeQuotient, fdiv_of_isFinite hnum.1 hl.shapeDivisor_finite (isZero_of_exactUnits_pos hl.shapeDivisor_pos)]
  refine (atMost_pack_roundMag (n := 2 ^ 24) le_rfl _ (by omega) ?_).1
  calc units (fsub fZero z) * 2 ^ 149 ≤ 2 ^ 149 * 2 ^ 149 := Nat.mul_le_mul_right _ (by simpa using hnum.2)
    _ = 2 ^ 24 * 2 ^ 149 * 2 ^ 125 := by norm_num
    _ ≤ 2 ^ 24 * 2 ^ 149 * units (shapeDivisor z) := Nat.mul_le_mul_left _ (by omega)

/-! ## The properties of `Shape` -/

theorem LegalDuty.shape_within_bounds {t d : Word} (h : shape z fl ce t = some d) :
    fl.toNat ≤ d.toNat ∧ d.toNat ≤ ce.toNat := by
  obtain ⟨-, hq, rfl⟩ := shape_eq_some_iff.mp h
  exact ⟨hl.floor_le_trunc (isFraction_fclamp hq), hl.trunc_le_ceil (isFraction_fclamp hq)⟩

theorem LegalDuty.shape_mono {t u d e : Word} (ht : isFinite t = true) (hu : isFinite u = true)
    (htu : orderKey t ≤ orderKey u) (hd : shape z fl ce t = some d) (he : shape z fl ce u = some e) :
    d.toNat ≤ e.toNat := by
  obtain ⟨hnt, hqt, rfl⟩ := shape_eq_some_iff.mp hd
  obtain ⟨hnu, hqu, rfl⟩ := shape_eq_some_iff.mp he
  have hq := hl.shapeQuotient_mono ht hu hnt hnu htu
  have hp : orderKey (fclamp (shapeQuotient z t) fZero fOne) ≤ orderKey (fclamp (shapeQuotient z u) fZero fOne) := by
    rw [orderKey_shapeFraction hqt, orderKey_shapeFraction hqu]
    omega
  exact hl.toNat_trunc_mono (hl.floor_le_dutyOfFraction (isFraction_fclamp hqt))
    (hl.dutyOfFraction_mono (isFraction_fclamp hqt) (isFraction_fclamp hqu) hp)
    (hl.dutyOfFraction_le_ceil (isFraction_fclamp hqu))

theorem LegalDuty.shape_of_le_deadzone {t d : Word} (ht : isFinite t = true) (h : shape z fl ce t = some d)
    (hle : orderKey t ≤ orderKey z) : d = fl := by
  obtain ⟨hn, hq, rfl⟩ := shape_eq_some_iff.mp h
  have hneg := hl.shapeQuotient_nonpos ht hn hle
  have hp : orderKey (fclamp (shapeQuotient z t) fZero fOne) = 0 := by
    rw [orderKey_shapeFraction hq]
    omega
  rw [f32ToU32Trunc_congr (hl.dutyOfFraction_zero (isFraction_fclamp hq) hp), hl.f32ToU32Trunc_floor]

theorem LegalDuty.shape_of_one_le {t d : Word} (ht : isFinite t = true) (h : shape z fl ce t = some d)
    (hle : orderKey fOne ≤ orderKey t) : d = ce := by
  obtain ⟨hn, hq, rfl⟩ := shape_eq_some_iff.mp h
  have hge := hl.one_le_shapeQuotient ht hn hle
  have hone : 0 ≤ orderKey fOne := by decide
  have hp : orderKey (fclamp (shapeQuotient z t) fZero fOne) = orderKey fOne := by
    rw [orderKey_shapeFraction hq]
    omega
  rw [f32ToU32Trunc_congr (hl.dutyOfFraction_one (isFraction_fclamp hq) hp), hl.f32ToU32Trunc_ceil]

/-- The zero-throttle duty (42_mixer_duty.md rule R157). -/
theorem LegalDuty.shape_fZero : shape z fl ce fZero = some fl := by
  obtain ⟨hn, hq⟩ := hl.finite_quotient_fZero
  have hsome : shape z fl ce fZero = some _ := shape_eq_some_iff.mpr ⟨hn, hq, rfl⟩
  have hle : orderKey fZero ≤ orderKey z := (exactUnits_le_iff fZero z).mp hl.nonneg
  rw [hsome, hl.shape_of_le_deadzone (by decide) hsome hle]

end Legal

/-- Settles O33: the clamp keeps the duty between the floor and the ceiling, both exact, and truncation is monotone. -/
theorem shapeWithinBounds : Obligations.ShapeWithinBounds := by
  unfold Obligations.ShapeWithinBounds
  intro z fl ce t d hl _ h
  exact (legalDutyCfg_iff.mp hl).shape_within_bounds h

/-- Settles O34: every operation of `Shape` is monotone in t. -/
theorem shapeMonotone : Obligations.ShapeMonotone := by
  unfold Obligations.ShapeMonotone
  intro z fl ce t u d e hl ht hu htu hd he
  exact (legalDutyCfg_iff.mp hl).shape_mono ht hu ((fle_iff_of_isFinite ht hu).mp htu) hd he

/-- Settles O35: up to the dead zone the fraction is 0.0, and from 1.0 on it is 1.0. -/
theorem shapeDeadZones : Obligations.ShapeDeadZones := by
  unfold Obligations.ShapeDeadZones
  intro z fl ce t d hl ht h
  have hl := legalDutyCfg_iff.mp hl
  refine ⟨fun hle => ?floor, fun hge => ?ceil⟩
  case floor => exact hl.shape_of_le_deadzone ht h ((fle_iff_of_isFinite ht hl.finite).mp hle)
  case ceil => exact hl.shape_of_one_le ht h ((fle_iff_of_isFinite (by decide) ht).mp hge)

/-! ## DUTY -/

theorem exec_duty_of_shape {s : State} {d : Word} (hl : s.legalDuty = true) (ht : isFinite s.arg0 = true)
    (hd : s.shape s.arg0 = some d) : exec .duty s = .next { s with res0 := d } := by
  simp only [exec, execDuty, hl, ht, hd, if_true]

theorem exec_duty_of_nonfinite {s : State} (hl : s.legalDuty = true)
    (h : isFinite s.arg0 = true → s.shape s.arg0 = none) : exec .duty s = .next (faultEntry .nonfinite s) := by
  simp only [exec, execDuty, raise, hl, if_true]
  split
  case isTrue ht => rw [h ht]
  case isFalse => rfl

/-- Settles O32: `Shape` gives its duty exactly when its dividend and its quotient are finite. -/
theorem dutyResult : Obligations.DutyResult := by
  unfold Obligations.DutyResult
  refine ⟨by decide, ?_⟩
  rintro s num den q p flf cef d hl rfl rfl rfl rfl rfl rfl rfl
  refine ⟨fun hfin => ?result, fun hfin => ?nonfinite, fun u => exec_duty_of_illegal⟩
  case result =>
    simp only [allFinite_cons] at hfin
    obtain ⟨ht, hnum, hq, -⟩ := hfin
    exact exec_duty_of_shape hl ht (shape_eq_some_iff.mpr ⟨hnum, hq, rfl⟩)
  case nonfinite =>
    refine exec_duty_of_nonfinite hl fun ht => shape_of_not_finite (Bool.eq_false_iff.mpr fun hwork => ?_)
    exact Bool.eq_false_iff.mp hfin (allFinite_cons.mpr ⟨ht, hwork⟩)

end Sys2Proof.Machine
end

section
/-! MIX and FORCE_IDLE (42_mixer_duty.md rules R155 to R164): MIX as one equation when it completes, its faults, the
range of the motor duties, and the zero-throttle duty. -/

namespace Sys2Proof.Machine

/-! ## MIX by its conditions -/

/-- The throttle values MIX computes from the registers (42_mixer_duty.md rule R155). -/
def State.mixThrottle (s : State) : ThrottleWork := throttleWork s.idleThr s.govThr s.arg0

/-- The sums MIX computes from the throttle and the PID outputs (42_mixer_duty.md rule R156). -/
def State.mixValues (s : State) : MixWork := mixWork s.mixThrottle.thr s.pidOut.roll s.pidOut.pitch s.pidOut.yaw

/-- The operand check of MIX (42_mixer_duty.md rule R160). -/
def State.mixOperandsFinite (s : State) : Bool :=
  allFinite [s.arg0, s.idleThr, s.govThr, s.pidOut.roll, s.pidOut.pitch, s.pidOut.yaw]

/-- The check of the intermediates of MIX (42_mixer_duty.md rule R160). -/
def State.mixWorkFinite (s : State) : Bool :=
  allFinite [s.mixThrottle.g, s.mixThrottle.h, s.mixThrottle.thr, s.mixValues.a, s.mixValues.b,
    s.mixValues.aPlusRoll, s.mixValues.aMinusRoll, s.mixValues.bPlusRoll, s.mixValues.bMinusRoll,
    s.mixValues.raw.frontLeft, s.mixValues.raw.frontRight, s.mixValues.raw.rearLeft, s.mixValues.raw.rearRight]

/-- MIX passes its checks, and `Shape` gives the four duties `d`. -/
structure MixReady (s : State) (d : PerMotor Word) : Prop where
  legal : s.legalDuty = true
  operands : s.mixOperandsFinite = true
  work : s.mixWorkFinite = true
  duties : s.shapeAll s.mixValues.raw = some d

/-- The state after a MIX that completes with the duties `d`. -/
def State.mixCompleted (s : State) (d : PerMotor Word) : State :=
  { s with mixThr := s.mixThrottle.thr, mraw := s.mixValues.raw, motor := d }

theorem exec_mix_of_ready {s : State} {d : PerMotor Word} (h : MixReady s d) :
    exec .mix s = .next (s.mixCompleted d) := by
  have ho := h.operands
  have hw := h.work
  have hd := h.duties
  simp only [State.mixOperandsFinite, State.mixWorkFinite, State.mixValues, State.mixThrottle] at ho hw hd
  simp only [exec, execMix, State.mixCompleted, State.mixValues, State.mixThrottle, h.legal, ho, hw, hd, if_true]

/-- With a legal configuration MIX that is not ready raises NONFINITE. -/
theorem exec_mix_of_not_ready {s : State} (hl : s.legalDuty = true) (h : ∀ d, ¬ MixReady s d) :
    exec .mix s = .next (faultEntry .nonfinite s) := by
  simp only [exec, execMix, raise, hl, if_true]
  split
  case isFalse => rfl
  case isTrue ho =>
    split
    case isFalse => rfl
    case isTrue hw =>
      split
      case h_1 d hd => exact absurd ⟨hl, ho, hw, hd⟩ (h d)
      case h_2 => rfl

/-- The inversion of a MIX that leaves `STATUS.FAULT` = 0: it passed its checks and completed. -/
theorem mixReady_of_exec {s t : State} (h : exec .mix s = .next t) (hf : t.fault = false) :
    ∃ d, MixReady s d ∧ t = s.mixCompleted d := by
  have not_faultEntry {c : FaultCode} (hc : exec .mix s = .next (faultEntry c s)) : False := by
    cases h.symm.trans hc
    cases hf
  have hl : s.legalDuty = true := by
    by_contra hl
    exact not_faultEntry (exec_mix_of_illegal (Bool.eq_false_iff.mpr hl))
  obtain ⟨d, hready⟩ : ∃ d, MixReady s d := by
    by_contra hnone
    exact not_faultEntry (exec_mix_of_not_ready hl (not_exists.mp hnone))
  exact ⟨d, hready, by cases h.symm.trans (exec_mix_of_ready hready); rfl⟩

theorem shapeAll_eq_some_iff {s : State} {raw d : PerMotor Word} :
    s.shapeAll raw = some d ↔ ∀ m, s.shape (raw.get m) = some (d.get m) := by
  constructor
  · intro h m
    unfold State.shapeAll at h
    split at h
    case h_1 hfl hfr hrl hrr =>
      cases h
      cases m with
      | frontLeft => exact hfl
      | frontRight => exact hfr
      | rearLeft => exact hrl
      | rearRight => exact hrr
    case h_2 => cases h
  · intro h
    have hfl : s.shape raw.frontLeft = some d.frontLeft := h .frontLeft
    have hfr : s.shape raw.frontRight = some d.frontRight := h .frontRight
    have hrl : s.shape raw.rearLeft = some d.rearLeft := h .rearLeft
    have hrr : s.shape raw.rearRight = some d.rearRight := h .rearRight
    simp only [State.shapeAll, hfl, hfr, hrl, hrr]

theorem MixReady.legalDuty {s : State} {d : PerMotor Word} (h : MixReady s d) :
    LegalDuty s.deadzone s.dutyFloor s.dutyCeil := legalDutyCfg_iff.mp h.legal

theorem MixReady.shape {s : State} {d : PerMotor Word} (h : MixReady s d) (m : Motor) :
    s.shape (s.mixValues.raw.get m) = some (d.get m) := shapeAll_eq_some_iff.mp h.duties m

/-- Of the values found finite by a MIX that passes its checks, the throttle and the raw commands. -/
theorem MixReady.finite {s : State} {d : PerMotor Word} (h : MixReady s d) :
    isFinite s.mixThrottle.thr = true ∧ ∀ m, isFinite (s.mixValues.raw.get m) = true := by
  have hw := h.work
  simp only [State.mixWorkFinite, allFinite_cons] at hw
  obtain ⟨-, -, hthr, -, -, -, -, -, -, hfl, hfr, hrl, hrr, -⟩ := hw
  refine ⟨hthr, fun m => ?_⟩
  cases m with
  | frontLeft => exact hfl
  | frontRight => exact hfr
  | rearLeft => exact hrl
  | rearRight => exact hrr

/-- Settles O36: MIX completes exactly when its two checks pass and all four `Shape` calls give a duty. -/
theorem mixResult : Obligations.MixResult := by
  unfold Obligations.MixResult
  refine ⟨by decide, ?_⟩
  rintro s roll pitch yaw g h thr a b ar am br bm mFL mFR mRL mRR hl rfl rfl rfl rfl rfl rfl rfl rfl rfl rfl rfl rfl
    rfl rfl rfl rfl
  refine ⟨fun dFL dFR dRL dRR ho hw hFL hFR hRL hRR => ?result, fun hfault => ?nonfinite⟩
  case result =>
    refine exec_mix_of_ready (d := ⟨dFL, dFR, dRL, dRR⟩) ⟨hl, ho, hw, shapeAll_eq_some_iff.mpr fun m => ?_⟩
    cases m with
    | frontLeft => exact hFL
    | frontRight => exact hFR
    | rearLeft => exact hRL
    | rearRight => exact hRR
  case nonfinite =>
    refine exec_mix_of_not_ready hl fun d hready => ?_
    rcases hfault with ho | hw | hFL | hFR | hRL | hRR
    · exact Bool.eq_false_iff.mp ho hready.operands
    · exact Bool.eq_false_iff.mp hw hready.work
    · cases hFL.symm.trans (hready.shape .frontLeft)
    · cases hFR.symm.trans (hready.shape .frontRight)
    · cases hRL.symm.trans (hready.shape .rearLeft)
    · cases hRR.symm.trans (hready.shape .rearRight)

/-! ## Equal duties without corrections -/

/-- With zero corrections every sum of the mixer keeps the key of the throttle. -/
theorem orderKey_mixWork_raw {thr roll pitch yaw : Word} (ht : isFinite thr = true) (hr : isZero roll = true)
    (hp : isZero pitch = true) (hy : isZero yaw = true) (m : Motor) :
    orderKey ((mixWork thr roll pitch yaw).raw.get m) = orderKey thr := by
  have add {x z : Word} (hz : isZero z = true) (hx : orderKey x = orderKey thr) : orderKey (fadd x z) = orderKey thr :=
    (orderKey_fadd_zero (isFinite_of_orderKey_eq hx ht) hz).trans hx
  have sub {x z : Word} (hz : isZero z = true) (hx : orderKey x = orderKey thr) : orderKey (fsub x z) = orderKey thr :=
    (orderKey_fsub_zero (isFinite_of_orderKey_eq hx ht) hz).trans hx
  cases m with
  | frontLeft => exact sub hy (add hr (add hp rfl))
  | frontRight => exact add hy (sub hr (add hp rfl))
  | rearLeft => exact add hy (add hr (sub hp rfl))
  | rearRight => exact sub hy (sub hr (sub hp rfl))

/-- Settles O37: the range is that of `Shape`, and raw commands with one key have one duty, as `Shape` is monotone. -/
theorem mixMotorProperties : Obligations.MixMotorProperties := by
  unfold Obligations.MixMotorProperties
  intro s t h hf
  obtain ⟨d, hready, rfl⟩ := mixReady_of_exec h hf
  obtain ⟨hthr, hraw⟩ := hready.finite
  refine ⟨fun m => hready.legalDuty.shape_within_bounds (hready.shape m), fun hzero => ?equal⟩
  case equal =>
    have hkey (m : Motor) : orderKey (s.mixValues.raw.get m) = orderKey s.mixThrottle.thr :=
      orderKey_mixWork_raw hthr (hzero .roll) (hzero .pitch) (hzero .yaw) m
    have hle (m m' : Motor) : (d.get m).toNat ≤ (d.get m').toNat :=
      hready.legalDuty.shape_mono (hraw m) (hraw m') ((hkey m).trans (hkey m').symm).le (hready.shape m)
        (hready.shape m')
    refine ⟨fun m => ?_, fun m m' => BitVec.eq_of_toNat_eq (le_antisymm (hle m m') (hle m' m))⟩
    exact (feq_iff (isNaN_of_isFinite (hraw m)) (isNaN_of_isFinite hthr)).mpr (hkey m)

/-! ## FORCE_IDLE -/

/-- Settles O38: the command is `forceFloor`. -/
theorem forceIdleEffect : Obligations.ForceIdleEffect := by
  unfold Obligations.ForceIdleEffect
  exact ⟨by decide, fun s => rfl⟩

/-- Settles O39: up to the dead zone, 0.0 included, `Shape` gives the floor. -/
theorem forceIdleMatchesShape : Obligations.ForceIdleMatchesShape := by
  unfold Obligations.ForceIdleMatchesShape
  intro s u hl hidle
  have hl := legalDutyCfg_iff.mp hl
  cases (forceIdleEffect.2 s).symm.trans hidle
  refine ⟨fun m => ?shape, fun t hmix hf hle => ?mix⟩
  case shape => exact hl.shape_fZero.trans (congrArg some (PerMotor.get_fill s.dutyFloor m).symm)
  case mix =>
    obtain ⟨d, hready, rfl⟩ := mixReady_of_exec hmix hf
    refine PerMotor.ext_get fun m => Eq.trans ?_ (PerMotor.get_fill s.dutyFloor m).symm
    have hraw := hready.finite.2 m
    exact hl.shape_of_le_deadzone hraw (hready.shape m) ((fle_iff_of_isFinite hraw hl.finite).mp (hle m))

end Sys2Proof.Machine
end

section
/-! The PWM generator and the system commands (43_pwm_system.md rules R180 to R190): the system commands and each step
of the generator as equations, the waveform, what the generator's steps read and write, and how the outputs are
released. -/

namespace Sys2Proof.Machine

/-! ## The system commands -/

theorem exec_pwmEnable_of_released {s : State} (h : s.pwmEn = false) :
    exec .pwmEnable s = .next { s with pwmEn := true, activeDuty := s.motor, pwmPhase := 0 } :=
  if_neg (by simp [h])

theorem exec_pwmEnable_of_enabled {s : State} (h : s.pwmEn = true) : exec .pwmEnable s = .next s := if_pos h

/-- Settles O40: the arms of the four commands; SHUTDOWN is `forceFloor`, released and halted. -/
theorem systemCommandEffects : Obligations.SystemCommandEffects := by
  unfold Obligations.SystemCommandEffects
  refine ⟨by decide, fun s => ⟨rfl, exec_pwmEnable_of_released, exec_pwmEnable_of_enabled, ?release, ?shutdown⟩⟩
  case release => exact ⟨_, rfl, rfl, State.pwmOut_released rfl⟩
  case shutdown => exact ⟨_, rfl, State.pwmOut_released rfl, rfl⟩

/-! ## The steps of the generator -/

theorem pwmPeriodStart_of_enabled {s : State} (h : s.pwmEn = true) :
    pwmPeriodStart s = { s with activeDuty := s.motor, pwmPhase := 0 } :=
  if_pos h

theorem pwmPeriodStart_of_released {s : State} (h : s.pwmEn = false) : pwmPeriodStart s = s := if_neg (by simp [h])

theorem pwmElapse_of_released {s : State} (ns : Nat) (h : s.pwmEn = false) : pwmElapse ns s = s := if_neg (by simp [h])

/-- Time that stays inside the period moves the phase alone (43_pwm_system.md rule R187). -/
theorem pwmElapse_of_lt {s : State} {ns : Nat} (h : s.pwmEn = true) (hlt : s.pwmPhase + ns < s.params.pwmPeriodNs) :
    pwmElapse ns s = { s with pwmPhase := s.pwmPhase + ns } := by
  simp only [pwmElapse, h, hlt, if_true]

/-- At the period's end the next period starts (43_pwm_system.md rule R186). -/
theorem pwmElapse_of_eq {s : State} {ns : Nat} (h : s.pwmEn = true) (heq : s.pwmPhase + ns = s.params.pwmPeriodNs) :
    pwmElapse ns s = { s with activeDuty := s.motor, pwmPhase := 0 } := by
  simp only [pwmElapse, h, heq, lt_irrefl, if_true, if_false, Nat.mod_self]

theorem step_pwmPeriodStart {s : State} {rest : List Event} (hp : s.pending = .pwmPeriodStart :: rest) :
    step s = .next (pwmPeriodStart { s with pending := rest }) :=
  step_of_pending hp

/-- Settles O41: the two branches of the period start. -/
theorem periodStartLatches : Obligations.PeriodStartLatches := by
  unfold Obligations.PeriodStartLatches
  intro s rest hp
  rw [step_pwmPeriodStart hp]
  exact ⟨fun h => congrArg _ (pwmPeriodStart_of_enabled (s := { s with pending := rest }) h),
    fun h => congrArg _ (pwmPeriodStart_of_released (s := { s with pending := rest }) h)⟩

section Elapse

variable {s : State} {ns : Nat} {rest : List Event} (hp : s.pending = .pwmElapse ns :: rest)
include hp

theorem step_pwmElapse : step s = .next (pwmElapse ns { s with pending := rest }) := step_of_pending hp

theorem step_pwmElapse_of_released (h : s.pwmEn = false) : step s = .next { s with pending := rest } :=
  (step_pwmElapse hp).trans (congrArg _ (pwmElapse_of_released ns (s := { s with pending := rest }) h))

theorem step_pwmElapse_of_lt (h : s.pwmEn = true) (hlt : s.pwmPhase + ns < s.params.pwmPeriodNs) :
    step s = .next { s with pending := rest, pwmPhase := s.pwmPhase + ns } :=
  (step_pwmElapse hp).trans (congrArg _ (pwmElapse_of_lt (s := { s with pending := rest }) h hlt))

theorem step_pwmElapse_of_eq (h : s.pwmEn = true) (heq : s.pwmPhase + ns = s.params.pwmPeriodNs) :
    step s = .next { s with pending := rest, activeDuty := s.motor, pwmPhase := 0 } :=
  (step_pwmElapse hp).trans (congrArg _ (pwmElapse_of_eq (s := { s with pending := rest }) h heq))

end Elapse

/-! ## The waveform -/

theorem sys2Run_one {s t : State} (h : step s = .next t) : sys2Run 1 s = .next t :=
  (sys2Run_succ 0 h).trans (sys2Run_zero t)

/-- `ns` nanoseconds into a period, the state holds the duties latched at its start and the phase `ns`. -/
theorem sys2Run_periodStart_elapse {s : State} {ns : Nat} (h : s.pwmEn = true) (hlt : ns < s.params.pwmPeriodNs) :
    sys2Run 2 { s with pending := [.pwmPeriodStart, .pwmElapse ns] } =
      .next { s with pending := [], activeDuty := s.motor, pwmPhase := 0 + ns } := by
  have hstart : step { s with pending := [.pwmPeriodStart, .pwmElapse ns] } =
      .next { s with pending := [.pwmElapse ns], activeDuty := s.motor, pwmPhase := 0 } :=
    (periodStartLatches _ _ rfl).1 h
  have helapse : step { s with pending := [.pwmElapse ns], activeDuty := s.motor, pwmPhase := 0 } =
      .next { s with pending := [], activeDuty := s.motor, pwmPhase := 0 + ns } :=
    step_pwmElapse_of_lt rfl h ((Nat.zero_add ns).trans_lt hlt)
  exact (sys2Run_succ 1 hstart).trans (sys2Run_one helapse)

/-- Settles O42: within the period the phase counts the nanoseconds since the start, which the output compares with the
latched duty. -/
theorem pwmWaveform : Obligations.PwmWaveform := by
  unfold Obligations.PwmWaveform
  intro s ns h
  refine ⟨fun hlt => ⟨_, sys2Run_periodStart_elapse h hlt, fun m => ?high⟩, fun heq => ?next⟩
  case high => simp only [State.pwmOut, h, Bool.true_and, Nat.zero_add]
  case next => exact ⟨_, sys2Run_one (step_pwmElapse_of_eq (s := { s with pending := _ }) rfl h heq), rfl, rfl⟩

/-! ## What the generator reads and writes -/

/-- The two states agree on all that the generator reads: `PWM_PERIOD_NS`, `PWM_EN`, `MOTOR` and its own state. -/
structure SameGeneratorInputs (s s' : State) : Prop where
  params : s'.params = s.params
  pwmEn : s'.pwmEn = s.pwmEn
  motor : s'.motor = s.motor
  activeDuty : s'.activeDuty = s.activeDuty
  pwmPhase : s'.pwmPhase = s.pwmPhase

/-- `f` writes only the generator's own state, and what it writes depends only on what the generator reads
(43_pwm_system.md rule R190). -/
structure GeneratorUpdate (f : State → State) : Prop where
  frame : ∀ s, f s = { s with activeDuty := (f s).activeDuty, pwmPhase := (f s).pwmPhase }
  reads : ∀ {s s'}, SameGeneratorInputs s s' →
    (f s').activeDuty = (f s).activeDuty ∧ (f s').pwmPhase = (f s).pwmPhase

theorem pwmPeriodStart_generatorUpdate : GeneratorUpdate pwmPeriodStart where
  frame s := by
    unfold pwmPeriodStart
    split <;> rfl
  reads h := by
    simp only [pwmPeriodStart, h.pwmEn]
    split
    · exact ⟨h.motor, rfl⟩
    · exact ⟨h.activeDuty, h.pwmPhase⟩

theorem pwmElapse_generatorUpdate (ns : Nat) : GeneratorUpdate (pwmElapse ns) where
  frame s := by
    unfold pwmElapse
    split
    · split <;> rfl
    · rfl
  reads h := by
    simp only [pwmElapse, h.pwmEn, h.pwmPhase, h.params]
    split
    · split
      · exact ⟨h.activeDuty, rfl⟩
      · exact ⟨h.motor, rfl⟩
    · exact ⟨h.activeDuty, h.pwmPhase⟩

theorem runEvent_generator {e : Event} (he : e = .pwmPeriodStart ∨ ∃ ns, e = .pwmElapse ns) :
    ∃ f, GeneratorUpdate f ∧ ∀ s, runEvent e s = .next (f s) := by
  rcases he with rfl | ⟨ns, rfl⟩
  · exact ⟨_, pwmPeriodStart_generatorUpdate, fun _ => rfl⟩
  · exact ⟨_, pwmElapse_generatorUpdate ns, fun _ => rfl⟩

/-- Settles O44: both steps of the generator are a `GeneratorUpdate`. -/
theorem pwmGeneratorFrame : Obligations.PwmGeneratorFrame := by
  unfold Obligations.PwmGeneratorFrame
  intro s e rest hp he
  obtain ⟨f, hf, hrun⟩ := runEvent_generator he
  have hstep {u : State} (hu : u.pending = e :: rest) : step u = .next (f { u with pending := rest }) :=
    (step_of_pending hu).trans (hrun _)
  exact ⟨_, hstep hp, hf.frame _, fun s' hpending hparams hen hmotor hduty hphase =>
    ⟨_, hstep (hpending.trans hp), hf.reads ⟨hparams, hen, hmotor, hduty, hphase⟩⟩⟩

/-! ## The release of the outputs -/

theorem Completed.fault {i : Instr} {s t : State} (h : Completed i s t) : t.fault = s.fault := by
  cases h <;> rfl

/-- Only fault entry sets `STATUS.FAULT` (60_exceptions.md rule R203). -/
theorem FramedStep.fault_cases {s u t : State} {e : Event} (h : FramedStep s u e t) :
    t.fault = u.fault ∨ ∃ c v, t = faultEntry c v := by
  cases h with
  | passive h => rw [h]; exact .inl rfl
  | engine _ ht => rw [ht, rcEngineStep_frame u]; exact .inl rfl
  | store _ h => rw [h]; exact .inl rfl
  | fault c w rd _ ht => exact .inr ⟨c, _, ht⟩
  | command w i _ _ _ _ h => exact .inl h.fault

theorem eq_faultEntry_of_step {s t : State} (ht : step s = .next t) (hs : s.fault = false) (hf : t.fault = true) :
    ∃ c v, t = faultEntry c v := by
  have hne : t.fault ≠ s.fault := by simp [hs, hf]
  cases hp : s.pending with
  | nil =>
    rw [step_of_no_event hp] at ht
    cases ht
    exact absurd rfl hne
  | cons e rest =>
    by_cases he : e = .reset
    · subst he
      rw [step_of_pending hp] at ht
      cases ht
      cases hf
    · exact (step_framed hp he ht).fault_cases.resolve_left hne

theorem State.exists_pending_of_nextCommand {s : State} {w : Word} (h : s.nextCommand = some w) :
    ∃ rest, s.pending = .hostWrite .w32 s.params.blockBase w :: rest := by
  unfold State.nextCommand at h
  split at h
  case h_1 addr w' rest hp =>
    split at h
    · rename_i haddr
      cases h
      exact ⟨rest, haddr ▸ hp⟩
    · cases h
  case h_2 => cases h

theorem State.exists_command_of_nextInstr {s : State} {i : Instr} (h : s.nextInstr = some i) :
    ∃ w, s.nextCommand = some w ∧ s.halted = false ∧ s.busy = false ∧ decode s.params.numChannels w = .ok i := by
  unfold State.nextInstr at h
  split at h
  case h_1 w hc =>
    split at h
    · cases h
    · rename_i hready
      obtain ⟨hh, hb⟩ := Bool.or_eq_false_iff.mp (Bool.eq_false_of_not_eq_true hready)
      split at h
      · rename_i hd
        cases h
        exact ⟨w, hc, hh, hb, hd⟩
      · cases h
  case h_2 => cases h

/-- The step runs the command that `nextInstr` names (30_encoding.md rule R80). -/
theorem step_of_nextInstr {s : State} {i : Instr} (h : s.nextInstr = some i) :
    ∃ w rest, step s = exec i { s with pending := rest, cmd := w } := by
  obtain ⟨w, hc, hh, hb, hd⟩ := State.exists_command_of_nextInstr h
  obtain ⟨rest, hp⟩ := State.exists_pending_of_nextCommand hc
  exact ⟨w, rest, stepRunsDecodedCommand s w i rest hp hh hb hd⟩

/-- SHUTDOWN and PWM_RELEASE end with `STATUS.PWM_EN` = 0 (43_pwm_system.md rules R182, R183). -/
theorem pwmEn_of_exec_release {i : Instr} {s t : State} (hi : i = .shutdown ∨ i = .pwmRelease)
    (h : exec i s = .next t) : t.pwmEn = false := by
  rcases hi with rfl | rfl <;> cases h <;> rfl

/-- Settles O43: released, no step of the generator does anything; and fault entry, SHUTDOWN and PWM_RELEASE all clear
`PWM_EN`, which takes the outputs low. -/
theorem releasedOutputsLow : Obligations.ReleasedOutputsLow := by
  unfold Obligations.ReleasedOutputsLow
  refine ⟨fun s m h => State.pwmOut_released h m, fun s rest ns h hp => ?still, fun s t m ht hcause => ?release⟩
  case still =>
    rcases hp with hp | hp
    · exact (periodStartLatches s rest hp).2 h
    · exact step_pwmElapse_of_released hp h
  case release =>
    have release {i : Instr} (hi : i = .shutdown ∨ i = .pwmRelease) (hn : s.nextInstr = some i) :
        t.pwmOut m = false := by
      obtain ⟨w, rest, hstep⟩ := step_of_nextInstr hn
      exact State.pwmOut_released (pwmEn_of_exec_release hi (hstep.symm.trans ht)) m
    rcases hcause with ⟨hs, hf⟩ | hn | hn
    · obtain ⟨c, v, rfl⟩ := eq_faultEntry_of_step ht hs hf
      exact faultEntry_pwmOut v c m
    · exact release (.inl rfl) hn
    · exact release (.inr rfl) hn

end Sys2Proof.Machine
end

section
/-! Faults and halting: which commands raise which fault, from which state fault entry starts, what a halted block can
still change, and what halts it. -/

namespace Sys2Proof.Machine

/-! ## Fault entry -/

/-- Settles O47: the model's fault entry, with its per-motor fill written out. -/
theorem faultEntryEffect : Obligations.FaultEntryEffect := by
  unfold Obligations.FaultEntryEffect
  exact fun s c => ⟨rfl, faultEntry_busy s c⟩

/-! ## Which command raises which fault -/

/-- `Raises` read by the fault code, as 60_exceptions.md rule R200 lists the commands in column "Raised by". -/
theorem Raises.by_code {i : Instr} {c : FaultCode} (h : Raises i c) :
    (c = .nonfinite ∧ (i = .norm ∨ i = .duty ∨ i = .mix ∨ ∃ a, i = .pidUpdate a)) ∨
    (c = .dtRange ∧ ∃ a, i = .pidUpdate a) ∨
    (c = .normRange ∧ i = .norm) ∨
    (c = .dutyCfg ∧ (i = .duty ∨ i = .mix)) := by
  cases h with
  | normNonfinite => exact .inl ⟨rfl, .inl rfl⟩
  | dutyNonfinite => exact .inl ⟨rfl, .inr (.inl rfl)⟩
  | mixNonfinite => exact .inl ⟨rfl, .inr (.inr (.inl rfl))⟩
  | pidNonfinite a => exact .inl ⟨rfl, .inr (.inr (.inr ⟨a, rfl⟩))⟩
  | pidDt a => exact .inr (.inl ⟨rfl, a, rfl⟩)
  | normRange => exact .inr (.inr (.inl ⟨rfl, rfl⟩))
  | dutyCfg => exact .inr (.inr (.inr ⟨rfl, .inl rfl⟩))
  | mixCfg => exact .inr (.inr (.inr ⟨rfl, .inr rfl⟩))

/-- Settles O49: a command that completes leaves `FAULT` alone, so a command that sets it is in `Raises`. -/
theorem faultCauses : Obligations.FaultCauses := by
  unfold Obligations.FaultCauses
  intro i s t ht hs hf
  rcases exec_next_cases ht with hc | ⟨c, hr, rfl⟩
  · rw [hc.fault, hs] at hf
    cases hf
  · exact hr.by_code

/-! ## The frames at `FAULT` and `HALTED` -/

theorem OnlyQueueAndGenerator.fault_halted {s t : State} (h : OnlyQueueAndGenerator s t) :
    t.fault = s.fault ∧ t.halted = s.halted := by
  rw [h]
  exact ⟨rfl, rfl⟩

theorem OnlyEngineAndChannels.fault_halted {s t : State} (h : OnlyEngineAndChannels s t) :
    t.fault = s.fault ∧ t.halted = s.halted := by
  rw [h]
  exact ⟨rfl, rfl⟩

theorem OnlyReadWriteRegs.fault_halted {s t : State} (h : OnlyReadWriteRegs s t) :
    t.fault = s.fault ∧ t.halted = s.halted := by
  rw [h]
  exact ⟨rfl, rfl⟩

/-! ## The state a fault entry starts from -/

/-- The fault `c` of the event `e` starts its entry from `v`, where `s` is the state before the step and `u` the same
state without the event: only the word of a command, or the 0 that a bad read gives back, has been stored
(60_exceptions.md rule R202). -/
def FaultStartsFrom (s u : State) (e : Event) (c : FaultCode) (v : State) : Prop :=
  (∃ w, s.nextCommand = some w ∧ v = { u with cmd := w }) ∨
  (c = .badAccess ∧ (∃ width addr, e = .hostRead width addr) ∧ v = { u with readData := some 0 }) ∨
  (c = .badAccess ∧ (∃ width addr x, e = .hostWrite width addr x) ∧ v = u)

/-- What a step can do to `STATUS.FAULT`: leave it, clear it by reset, or set it by a fault entry. -/
theorem Stepped.fault_cases {s u t : State} {e : Event} (h : Stepped s u e t) :
    t.fault = u.fault ∨ t.fault = false ∨
      ∃ c v, c ≠ .none ∧ t = faultEntry c v ∧ FaultStartsFrom s u e c v := by
  cases h with
  | read | readHalted | writeHalted => exact .inl rfl
  | readFault width addr =>
    exact .inr (.inr ⟨.badAccess, _, by decide, rfl, .inr (.inl ⟨rfl, ⟨width, addr, rfl⟩, rfl⟩)⟩)
  | writeFault width addr x =>
    exact .inr (.inr ⟨.badAccess, _, by decide, rfl, .inr (.inr ⟨rfl, ⟨width, addr, x, rfl⟩, rfl⟩)⟩)
  | writeReg addr x r => exact .inl (writeReg_frame u r x).fault_halted.1
  | busy addr w _ _ hc => exact .inr (.inr ⟨.busy, _, by decide, rfl, .inl ⟨w, hc, rfl⟩⟩)
  | illegal addr w _ _ hc => exact .inr (.inr ⟨.badCmd, _, by decide, rfl, .inl ⟨w, hc, rfl⟩⟩)
  | command addr w i t _ _ hc _ ht =>
    rcases exec_next_cases ht with hd | ⟨c, hr, rfl⟩
    · exact .inl hd.fault
    · exact .inr (.inr ⟨c, _, hr.ne_none, rfl, .inl ⟨w, hc, rfl⟩⟩)
  | push b => exact .inl (rxPush_frame b u).fault_halted.1
  | engine => exact .inl (rcEngineStep_frame u).fault_halted.1
  | period => exact .inl (pwmPeriodStart_frame u).fault_halted.1
  | elapse ns => exact .inl (pwmElapse_frame ns u).fault_halted.1
  | reset => exact .inr (.inl rfl)

/-- Settles O48: a step that takes `FAULT` from 0 to 1 is in the last case of `Stepped.fault_cases`. -/
theorem faultsArePrecise : Obligations.FaultsArePrecise := by
  unfold Obligations.FaultsArePrecise
  intro s t e rest hp ht hs hf
  rcases (step_stepped hp ht).fault_cases with hkept | hcleared | hentry
  · exact absurd (hf.symm.trans (hkept.trans hs)) (by decide)
  · exact absurd (hf.symm.trans hcleared) (by decide)
  · exact hentry

/-! ## Halted -/

/-- `t` is `s` but for `RXQ`, `RX_OVR` and the value the bus gave back. -/
def OnlyQueueAndReadData (s t : State) : Prop :=
  t = { s with readData := t.readData, rxq := t.rxq, rxOvr := t.rxOvr }

theorem rxPush_onlyQueue (b : Byte) (s : State) : OnlyQueueAndReadData s (rxPush b s) := by
  unfold OnlyQueueAndReadData rxPush
  split <;> rfl

theorem rcEngineStep_of_idle {s : State} (h : s.rcPhase = .idle) : rcEngineStep s = s := by
  simp only [rcEngineStep, h]

/-- A halted block with its engine idle and its outputs released does nothing but take bytes and answer reads
(60_exceptions.md rule R205). -/
theorem Stepped.onlyQueue_of_halted {s u t : State} {e : Event} (h : Stepped s u e t) (he : e ≠ .reset)
    (hh : s.halted = true) (hen : u.pwmEn = false) (hidle : u.rcPhase = .idle) : OnlyQueueAndReadData u t := by
  have not_running {P : Prop} (hrun : s.halted = false) : P := absurd (hh.symm.trans hrun) (by decide)
  cases h with
  | read | readHalted | writeHalted => rfl
  | readFault _ _ hrun | writeFault _ _ _ hrun | writeReg _ _ _ hrun | busy _ _ hrun | illegal _ _ hrun
  | command _ _ _ _ hrun => exact not_running hrun
  | push b => exact rxPush_onlyQueue b u
  | engine => rw [rcEngineStep_of_idle hidle]; rfl
  | period => rw [pwmPeriodStart_of_released hen]; rfl
  | elapse ns => rw [pwmElapse_of_released ns hen]; rfl
  | reset => exact absurd rfl he

/-- Of the commands that complete, only SHUTDOWN halts (43_pwm_system.md rule R183). -/
theorem Completed.halted {i : Instr} {s t : State} (h : Completed i s t) : t.halted = s.halted ∨ i = .shutdown := by
  cases h with
  | shutdown => exact .inr rfl
  | _ => exact .inl rfl

/-- What a step but reset can do to `STATUS.HALTED` (60_exceptions.md rule R204). -/
theorem FramedStep.halted_cases {s u t : State} {e : Event} (h : FramedStep s u e t) :
    t.halted = u.halted ∨ t.fault = true ∨ s.nextInstr = some .shutdown := by
  cases h with
  | passive h => exact .inl h.fault_halted.2
  | engine _ ht => exact .inl (ht ▸ (rcEngineStep_frame u).fault_halted.2)
  | store _ h => exact .inl h.fault_halted.2
  | fault c w rd _ ht => exact .inr (.inl (congrArg State.fault ht))
  | command w i _ _ _ hi h =>
    rcases h.halted with hkept | rfl
    · exact .inl hkept
    · exact .inr (.inr hi)

/-- Settles O50: by the invariant a halted block has its engine idle and its outputs released, so each of its steps but
reset is one of `Stepped.onlyQueue_of_halted`; and `FramedStep.halted_cases` lists what halts. -/
theorem haltedIsSticky : Obligations.HaltedIsSticky := by
  unfold Obligations.HaltedIsSticky
  refine ⟨fun s t e rest hinv hp he ht => ⟨fun hh => ?sticky, fun hrun hh => ?halts⟩,
    fun s width off v rest ho hh hp => ?ignored⟩
  case sticky =>
    obtain ⟨hen, hidle⟩ := hinv.halted_inert hh
    exact (step_stepped hp ht).onlyQueue_of_halted he hh hen hidle
  case halts =>
    have hne : t.halted ≠ s.halted := by simp [hrun, hh]
    exact (step_framed hp he ht).halted_cases.resolve_left hne
  case ignored =>
    have hwin : windowOffset s.params (s.params.blockBase + off) = some off := windowOffset_base_add ho
    exact (step_of_pending hp).trans (hostWrite_of_halted v (s := { s with pending := rest }) hwin hh)

end Sys2Proof.Machine
end

section
/-! The receive buffer: no operation but the RC engine's step reads or writes `rc_buf`, and that step reads only bytes
which the read in progress has written (70_reset_and_hazards.md rule R232). -/

namespace Sys2Proof.Machine

/-! ## The relation -/

/-- `s` with another receive buffer. -/
def State.withBuf (s : State) (buf : Vector Byte 31) : State := { s with rcBuf := buf }

/-- The read in progress in `s` has written the same bytes in `buf` as in the buffer of `s`. -/
def State.WrittenBytesIn (s : State) (buf : Vector Byte 31) : Prop :=
  s.rcPhase = .payload → AgreeBelow s.rcCount s.rcBuf buf

theorem State.WrittenBytesIn.sameButUnreadBuf {s : State} {buf : Vector Byte 31} (h : s.WrittenBytesIn buf) :
    SameButUnreadBuf s (s.withBuf buf) :=
  ⟨rfl, fun hp i hi => h hp i i.isLt hi⟩

theorem SameButUnreadBuf.exists_withBuf {s t : State} (h : SameButUnreadBuf s t) :
    ∃ buf, t = s.withBuf buf ∧ s.WrittenBytesIn buf :=
  ⟨t.rcBuf, h.1.symm, fun hp i hi hlt => h.2 hp ⟨i, hi⟩ hlt⟩

theorem SameButUnreadBuf.refl (s : State) : SameButUnreadBuf s s := ⟨rfl, fun _ _ _ => rfl⟩

theorem SameButUnreadBuf.eq_of_rcBuf {s t : State} (h : SameButUnreadBuf s t) (hbuf : s.rcBuf = t.rcBuf) : s = t := by
  rw [← h.1, ← hbuf]

/-! ## The operations that ignore the buffer -/

/-- An operation that answers a result commutes with another choice of the buffer. -/
def IgnoresBuf (f : State → Result) : Prop :=
  ∀ s buf, f (s.withBuf buf) = mapNext (·.withBuf buf) (f s)

theorem readReg_withBuf (s : State) (buf : Vector Byte 31) (r : Reg) : (s.withBuf buf).readReg r = s.readReg r := by
  cases r <;> rfl

theorem readOffset_withBuf (s : State) (buf : Vector Byte 31) (off : Nat) :
    (s.withBuf buf).readOffset off = s.readOffset off := by
  simp only [State.readOffset, readReg_withBuf]

theorem mixReady_withBuf_iff (s : State) (buf : Vector Byte 31) (d : PerMotor Word) :
    MixReady (s.withBuf buf) d ↔ MixReady s d :=
  ⟨fun h => { h with }, fun h => { h with }⟩

theorem exec_ignoresBuf (i : Instr) : IgnoresBuf (exec i) := by
  intro s buf
  cases i with
  | nop | rcRead | rcNorm | forceIdle | pwmRelease | shutdown => rfl
  | pidReset sel => cases sel <;> rfl
  | norm | pidUpdate | pwmEnable =>
    simp only [exec, execNorm, execPidUpdate, execPwmEnable, apply_ite (mapNext _)]
    rfl
  | duty =>
    have hshape : (s.withBuf buf).shape (s.withBuf buf).arg0 = s.shape s.arg0 := rfl
    simp only [exec, execDuty, apply_ite (mapNext _), hshape]
    cases s.shape s.arg0 <;> rfl
  | mix =>
    cases hl : s.legalDuty with
    | false =>
      rw [exec_mix_of_illegal hl, exec_mix_of_illegal (s := s.withBuf buf) hl]
      rfl
    | true =>
      by_cases hex : ∃ d, MixReady s d
      · obtain ⟨d, hd⟩ := hex
        rw [exec_mix_of_ready hd, exec_mix_of_ready ((mixReady_withBuf_iff s buf d).mpr hd)]
        rfl
      · have hnone (d : PerMotor Word) : ¬ MixReady s d := fun hd => hex ⟨d, hd⟩
        rw [exec_mix_of_not_ready hl hnone, exec_mix_of_not_ready (s := s.withBuf buf) hl fun d hd =>
          hnone d ((mixReady_withBuf_iff s buf d).mp hd)]
        rfl

theorem issue_ignoresBuf (w : Word) : IgnoresBuf (issue w) := by
  intro s buf
  have hdecode : decode (s.withBuf buf).params.numChannels w = decode s.params.numChannels w := rfl
  simp only [issue, apply_ite (mapNext _), hdecode]
  refine if_congr Iff.rfl rfl ?_
  cases decode s.params.numChannels w with
  | error r => rfl
  | ok i => exact exec_ignoresBuf i { s with cmd := w } buf

theorem badAccess_ignoresBuf : IgnoresBuf badAccess := by
  intro s buf
  simp only [badAccess, apply_ite (mapNext _)]
  rfl

theorem hostRead_ignoresBuf (width : Width) (addr : Nat) : IgnoresBuf (hostRead width addr) := by
  intro s buf
  have hwindow : windowOffset (s.withBuf buf).params addr = windowOffset s.params addr := rfl
  simp only [hostRead, hwindow]
  cases windowOffset s.params addr with
  | none => rfl
  | some off =>
    simp only [apply_ite (mapNext _), readOffset_withBuf]
    exact if_congr Iff.rfl rfl (badAccess_ignoresBuf { s with readData := some 0 } buf)

theorem writeReg_withBuf (s : State) (buf : Vector Byte 31) (r : Reg) (v : Word) :
    (s.withBuf buf).writeReg r v = (s.writeReg r v).withBuf buf := by
  cases r with
  | arg i => fin_cases i <;> rfl
  | _ => rfl

theorem hostWrite_ignoresBuf (width : Width) (addr : Nat) (v : Word) : IgnoresBuf (hostWrite width addr v) := by
  intro s buf
  have hwindow : windowOffset (s.withBuf buf).params addr = windowOffset s.params addr := rfl
  simp only [hostWrite, hwindow, badAccess_ignoresBuf s buf, issue_ignoresBuf v s buf, writeReg_withBuf]
  cases windowOffset s.params addr with
  | none => rfl
  | some off =>
    simp only [apply_ite (mapNext _)]
    refine if_congr Iff.rfl rfl (if_congr Iff.rfl ?_ rfl)
    cases Reg.ofOffset off with
    | none => rfl
    | some r =>
      dsimp only
      cases r.access <;> rfl

theorem rxPush_withBuf (b : Byte) (s : State) (buf : Vector Byte 31) :
    rxPush b (s.withBuf buf) = (rxPush b s).withBuf buf := by
  simp only [rxPush, apply_ite (State.withBuf · buf)]
  rfl

theorem GeneratorUpdate.withBuf {f : State → State} (hf : GeneratorUpdate f) (s : State) (buf : Vector Byte 31) :
    f (s.withBuf buf) = (f s).withBuf buf := by
  obtain ⟨hduty, hphase⟩ := hf.reads (s := s) (s' := s.withBuf buf) ⟨rfl, rfl, rfl, rfl, rfl⟩
  rw [hf.frame s, hf.frame (s.withBuf buf), hduty, hphase]
  rfl

theorem runEvent_ignoresBuf {e : Event} (hrc : e ≠ .rcStep) (hreset : e ≠ .reset) : IgnoresBuf (runEvent e) := by
  intro s buf
  cases e with
  | hostRead width addr => exact hostRead_ignoresBuf width addr s buf
  | hostWrite width addr v => exact hostWrite_ignoresBuf width addr v s buf
  | rxPush b => exact congrArg _ (rxPush_withBuf b s buf)
  | pwmPeriodStart => exact congrArg _ (pwmPeriodStart_generatorUpdate.withBuf s buf)
  | pwmElapse ns => exact congrArg _ ((pwmElapse_generatorUpdate ns).withBuf s buf)
  | rcStep => exact absurd rfl hrc
  | reset => exact absurd rfl hreset

/-! ## The bytes written stay written -/

/-- A read that is in its payload phase after the operation was there before, with the same bytes written. -/
def SamePayload (s t : State) : Prop :=
  t.rcPhase = .payload → s.rcPhase = .payload ∧ t.rcCount = s.rcCount ∧ t.rcBuf = s.rcBuf

theorem Completed.samePayload {i : Instr} {s t : State} (h : Completed i s t) : SamePayload s t := by
  cases h with
  | rcRead => exact nofun
  | _ => exact fun hp => ⟨hp, rfl, rfl⟩

theorem FramedStep.samePayload {s u t : State} {e : Event} (h : FramedStep s u e t) (he : e ≠ .rcStep) :
    SamePayload u t := by
  cases h with
  | passive h => rw [h]; exact fun hp => ⟨hp, rfl, rfl⟩
  | engine hrc => exact absurd hrc he
  | store _ h => rw [h]; exact fun hp => ⟨hp, rfl, rfl⟩
  | fault c w rd _ ht => rw [ht]; exact nofun
  | command w i _ _ _ _ h => exact h.samePayload

theorem State.WrittenBytesIn.of_samePayload {s t : State} {buf : Vector Byte 31} (h : s.WrittenBytesIn buf)
    (ht : SamePayload s t) : t.WrittenBytesIn buf := by
  intro hp
  obtain ⟨hps, hcount, hbuf⟩ := ht hp
  rw [hcount, hbuf]
  exact h hps

/-! ## The engine -/

theorem AgreeBelow.setIfInBounds {n : Nat} {xs ys : Vector Byte 31} (h : AgreeBelow n xs ys) (b : Byte) :
    AgreeBelow (n + 1) (xs.setIfInBounds n b) (ys.setIfInBounds n b) := by
  intro i hi hlt
  rw [Vector.getElem_setIfInBounds, Vector.getElem_setIfInBounds]
  exact ite_congr rfl (fun _ => rfl) fun hne => h i hi (by omega)

theorem huntStep_withBuf (s : State) (buf : Vector Byte 31) : huntStep (s.withBuf buf) = (huntStep s).withBuf buf := by
  have hrxq : (s.withBuf buf).rxq = s.rxq := rfl
  simp only [huntStep, hrxq]
  cases s.rxq <;> simp only [apply_ite (State.withBuf · buf)] <;> rfl

/-- A hunt step ends with no byte of the frame written: it starts the payload phase with `rc_count` = 0. -/
theorem huntStep_writtenBytesIn {s : State} (hp : s.rcPhase = .hunt) (buf : Vector Byte 31) :
    (huntStep s).WrittenBytesIn buf := by
  rcases huntStep_cases s with ⟨q, -, h⟩ | ⟨q, -, -, h⟩ | ⟨q, -, -, h⟩ <;> rw [h]
  · exact fun _ i _ hlt => absurd hlt i.not_lt_zero
  · exact fun hp' => absurd (hp.symm.trans hp') (by decide)
  · exact nofun

/-- `s` with the byte `b` taken from `RXQ` into the buffer, where `q` is the rest of `RXQ` (40_rc_decoder.md rule
R109). -/
def State.storeByte (s : State) (b : Byte) (q : List Byte) : State :=
  { s with rxq := q, rcBuf := s.rcBuf.setIfInBounds s.rcCount b, rcCount := s.rcCount + 1 }

theorem payloadStep_of_cons {s : State} {b : Byte} {q : List Byte} (hq : s.rxq = b :: q) :
    payloadStep s = if s.rcCount + 1 = 31 then validateFrame (s.storeByte b q) else s.storeByte b q := by
  simp only [payloadStep, hq, State.storeByte]

/-- A payload step writes the same byte in both buffers; the 31st makes them equal before they are validated. -/
theorem payloadStep_related {s : State} {buf : Vector Byte 31} (h : AgreeBelow s.rcCount s.rcBuf buf) :
    SameButUnreadBuf (payloadStep s) (payloadStep (s.withBuf buf)) := by
  cases hq : s.rxq with
  | nil =>
    rw [payloadStep_of_empty hq, payloadStep_of_empty (s := s.withBuf buf) hq]
    exact ⟨rfl, nofun⟩
  | cons b q =>
    have hstored : AgreeBelow (s.rcCount + 1) (s.storeByte b q).rcBuf ((s.withBuf buf).storeByte b q).rcBuf :=
      h.setIfInBounds b
    have hrel : SameButUnreadBuf (s.storeByte b q) ((s.withBuf buf).storeByte b q) :=
      ⟨rfl, fun _ i hi => hstored i i.isLt hi⟩
    have hcount : (s.withBuf buf).rcCount = s.rcCount := rfl
    rw [payloadStep_of_cons hq, payloadStep_of_cons (s := s.withBuf buf) hq, hcount]
    split
    case isTrue hlast =>
      rw [hlast] at hstored
      rw [hrel.eq_of_rcBuf hstored.eq]
      exact .refl _
    case isFalse => exact hrel

theorem rcEngineStep_related {s : State} {buf : Vector Byte 31} (h : s.WrittenBytesIn buf) :
    SameButUnreadBuf (rcEngineStep s) (rcEngineStep (s.withBuf buf)) := by
  have hphase : (s.withBuf buf).rcPhase = s.rcPhase := rfl
  cases hp : s.rcPhase with
  | idle =>
    rw [rcEngineStep_of_idle hp, rcEngineStep_of_idle (hphase.trans hp)]
    exact h.sameButUnreadBuf
  | hunt =>
    rw [rcEngineStep_of_hunt hp, rcEngineStep_of_hunt (hphase.trans hp), huntStep_withBuf]
    exact (huntStep_writtenBytesIn hp buf).sameButUnreadBuf
  | payload =>
    rw [rcEngineStep_of_payload hp, rcEngineStep_of_payload (hphase.trans hp)]
    exact payloadStep_related (h hp)

/-! ## The step -/

theorem relatedResults_mapNext {R : State → State → Prop} {r : Result} {f : State → State}
    (h : ∀ t, r = .next t → R t (f t)) : RelatedResults R r (mapNext f r) := by
  cases r with
  | next t => exact h t rfl
  | fault c => rfl
  | refused c => rfl

theorem step_related {s : State} {buf : Vector Byte 31} (h : s.WrittenBytesIn buf) :
    RelatedResults SameButUnreadBuf (step s) (step (s.withBuf buf)) := by
  cases hp : s.pending with
  | nil =>
    rw [step_of_no_event hp, step_of_no_event (s := s.withBuf buf) hp]
    exact h.sameButUnreadBuf
  | cons e rest =>
    have hbuf : step (s.withBuf buf) = runEvent e (State.withBuf { s with pending := rest } buf) :=
      step_of_pending (s := s.withBuf buf) hp
    by_cases hrc : e = .rcStep
    · subst hrc
      rw [step_of_pending hp, hbuf]
      exact rcEngineStep_related (s := { s with pending := rest }) h
    by_cases hreset : e = .reset
    · subst hreset
      rw [step_of_pending hp, hbuf]
      exact .refl _
    rw [hbuf, runEvent_ignoresBuf hrc hreset, ← step_of_pending hp]
    refine relatedResults_mapNext fun t ht => State.WrittenBytesIn.sameButUnreadBuf ?_
    exact State.WrittenBytesIn.of_samePayload (s := { s with pending := rest }) h
      ((step_framed hp hreset ht).samePayload hrc)

/-- Settles O56: the engine writes a byte before it reads it, and nothing else reads the buffer. -/
theorem unwrittenBufferUnobservable : Obligations.UnwrittenBufferUnobservable := by
  unfold Obligations.UnwrittenBufferUnobservable
  intro s t hst
  obtain ⟨buf, rfl, hwritten⟩ := hst.exists_withBuf
  exact ⟨fun off => (readOffset_withBuf s buf off).symm, step_related hwritten⟩

end Sys2Proof.Machine
end

section
/-! Reset (70_reset_and_hazards.md rules R230, R231): the values it gives, that nothing else clears what it clears, and
that its state meets the invariant. -/

namespace Sys2Proof.Machine

/-! ## The values reset gives -/

theorem resetWith_resetValues (p : Params) : ResetValues (State.resetWith p) where
  status := rfl
  cmd := rfl
  args := ⟨rfl, rfl, rfl, rfl, rfl⟩
  res0 := rfl
  rcStatus := rfl
  channels c := Vector.getElem_replicate c.isLt
  gains a := by cases a <;> exact ⟨rfl, rfl, rfl⟩
  pidState a := by cases a <;> exact ⟨rfl, rfl, rfl⟩
  throttle := ⟨rfl, rfl, rfl⟩
  dutyConfig := ⟨rfl, rfl, rfl⟩
  motors m := by cases m <;> exact ⟨rfl, rfl⟩
  fifo := rfl
  engine := ⟨rfl, rfl, rfl⟩
  generator := ⟨fun m => by cases m <;> rfl, rfl⟩
  outputs m := State.pwmOut_released rfl m

theorem ResetValues.setPending {s : State} (h : ResetValues s) (es : List Event) :
    ResetValues { s with pending := es } := { h with }

/-! ## What only reset clears -/

theorem Completed.rxOvr {i : Instr} {s t : State} (h : Completed i s t) : t.rxOvr = s.rxOvr := by
  cases h <;> rfl

/-- No step but reset clears `STATUS.RX_OVR`: a push can set it, and the others leave it alone. -/
theorem Stepped.rxOvr_of_set {s u t : State} {e : Event} (h : Stepped s u e t) (he : e ≠ .reset)
    (hu : u.rxOvr = true) : t.rxOvr = true := by
  cases h with
  | read | readHalted | readFault | writeHalted | writeFault | busy | illegal => exact hu
  | writeReg addr v r =>
    rw [writeReg_frame u r v]
    exact hu
  | command addr w i t _ _ _ _ ht =>
    rcases exec_next_cases ht with hc | ⟨c, -, rfl⟩
    · exact hc.rxOvr.trans hu
    · exact hu
  | push b =>
    unfold rxPush
    split
    · exact hu
    · rfl
  | engine =>
    rw [rcEngineStep_frame u]
    exact hu
  | period =>
    rw [pwmPeriodStart_generatorUpdate.frame u]
    exact hu
  | elapse ns =>
    rw [(pwmElapse_generatorUpdate ns).frame u]
    exact hu
  | reset => exact absurd rfl he

/-- Settles O52: reset gives the reset state of the parameters; a faulted block is halted, and `HaltedIsSticky` says
what a halted block keeps. -/
theorem resetGivesResetValues : Obligations.ResetGivesResetValues := by
  unfold Obligations.ResetGivesResetValues
  refine ⟨fun s rest hp => ?reset, fun s t e rest hinv hp he ht => ?sticky,
    fun p => ⟨resetWith_resetValues p, rfl⟩, rfl, rfl⟩
  case reset => exact ⟨_, step_of_pending hp, rfl, rfl, (resetWith_resetValues s.params).setPending rest⟩
  case sticky =>
    have hkept (hh : s.halted = true) : t.halted = s.halted ∧ t.fault = s.fault ∧ t.faultCode = s.faultCode := by
      rw [(haltedIsSticky.1 s t e rest hinv hp he ht).1 hh]
      exact ⟨rfl, rfl, rfl⟩
    refine ⟨fun hh => (hkept hh).1.trans hh, fun hf => ?_, (step_stepped hp ht).rxOvr_of_set he⟩
    obtain ⟨-, hfault, hcode⟩ := hkept (hinv.fault_halts hf)
    exact ⟨hfault.trans hf, hcode⟩

/-! ## The invariant -/

/-- Settles O53: `resetWith_inv` checks each clause on the reset state. -/
theorem resetMeetsTheInvariant : Obligations.ResetMeetsTheInvariant := by
  unfold Obligations.ResetMeetsTheInvariant
  exact resetWith_inv

end Sys2Proof.Machine
end
